-- ==== Sys2Proof/Word.lean ====
section
/-! DEFINITION. The word types of the CME (00_scope.md rule R8) and the plainest arithmetic on them. -/

namespace Sys2Proof

/-- A 32-bit word: a descriptor word, a register (rule R8, rule R21). -/
abbrev Word := BitVec 32

/-- A byte of data memory, and a sample, an unsigned value 0 to 255 (rule R8, rule R10). -/
abbrev Byte := BitVec 8

end Sys2Proof
end

