-- ==== Sys2Proof/Config.lean ====
section
/-! DEFINITION. What the hardware fixes once: the implementation parameters of 00_scope.md rule R6,
the power-on content of memory, and the shape of the coefficient ROM (10_state.md rule R34). -/

namespace Sys2Proof.Config

/-- `DESC_WORDS`: 32-bit words in a command descriptor (rule R6, rule R90). -/
def descWords : Nat := 17

/-- `DESC_BYTES`: bytes in a command descriptor (rule R6). -/
def descBytes : Nat := 68

/-- The size of the data memory, `2^AW` bytes with `AW = 32` (rule R6, 20_memory.md rule R60). -/
def memBytes : Nat := 4294967296

/-- `NULL`: the address value that counts as a null plane pointer (rule R6, 20_memory.md rule R69). -/
def null : Word := 0

/-- `ID_VALUE`: the value of the `ID` register (rule R6, 10_state.md rule R24). -/
def idValue : Word := 0x4C595631

/-- `FRAC_BITS`: fraction bits of a source coordinate (rule R6, 43_scale.md rule R273). -/
def fracBits : Nat := 16

/-- `WEIGHT_BITS`: bits of a blend weight (rule R6, 43_scale.md rule R274). -/
def weightBits : Nat := 8

/-- DESIGN CHOICE, unsafe (log entry 1): what a byte of memory that nothing has written reads as.
The spec leaves the power-on content of `Mem` unspecified (10_state.md rule R37, U11). -/
def powerOnByte : Byte := 0

/-- One row of a colour matrix: the value `clamp8((a*p + b*q + c*r + k) >> 8)` of three components
`p`, `q`, `r` (42_convert.md rules R234 to R237). -/
structure MatrixRow where
  a : Int
  b : Int
  c : Int
  k : Int
deriving DecidableEq, Repr

/-- One set of the coefficient ROM (10_state.md rule R34): three forward rows over `(R, G, B)` and
three inverse rows over `(Y, U, V)`. -/
structure CoefficientSet where
  fwdY : MatrixRow
  fwdU : MatrixRow
  fwdV : MatrixRow
  invR : MatrixRow
  invG : MatrixRow
  invB : MatrixRow
deriving DecidableEq, Repr

end Sys2Proof.Config
end

