-- ==== Sys2Proof/Syntax.lean ====
section
/-! DEFINITION. The commands of the CME (30_encoding.md): pixel formats, the eighteen forms, and the
seventeen-word descriptor that carries a command and its operands. -/

namespace Sys2Proof

/-- The YUV-family formats, codes 0x01 to 0x09 (rule R96). -/
inductive YuvFormat where
  | i420 | i422 | i444 | i411 | nv12 | nv21 | yuy2 | uyvy | i400
deriving DecidableEq, Repr

/-- The RGB-family formats, codes 0x10 to 0x18 (rule R96). -/
inductive RgbFormat where
  | argb | bgra | abgr | rgba | rgb24 | raw | rgb565 | argb1555 | argb4444
deriving DecidableEq, Repr

/-- The Bayer-family formats, codes 0x20 to 0x23 (rule R96): the four mosaic orderings. -/
inductive BayerFormat where
  | rggb | bggr | grbg | gbrg
deriving DecidableEq, Repr

/-- What a 6-bit pixel format code denotes (rule R96): no format, a format of one of the three
families, or a reserved code. -/
inductive PixelFormat where
  | none
  | yuv (f : YuvFormat)
  | rgb (f : RgbFormat)
  | bayer (f : BayerFormat)
  | reserved (code : BitVec 6)
deriving DecidableEq, Repr

/-- The `CSTD` field (rule R95): the limited-range "601" matrices or the full-range "J" matrices. -/
inductive ColourStandard where
  | bt601
  | fullJ
deriving DecidableEq, Repr

/-- The `ROT` field (rule R94), clockwise. -/
inductive Rotation where
  | r0 | r90 | r180 | r270
deriving DecidableEq, Repr

/-- The eighteen forms (rule R100), one constructor per row of spec/opcode_table.json. A constructor
carries the free fields of the command word `W0`; the operands are the latch registers `D1` to `D16`
(rules R97, R133). A format field holds whatever its code denotes: which formats are legal is
`Instr.wellFormed` (rule R99). -/
inductive Instr where
  | endList
  | convertYR (sfmt dfmt : PixelFormat) (cstd : ColourStandard)
  | convertRY (sfmt dfmt : PixelFormat) (cstd : ColourStandard)
  | convertYY (sfmt dfmt : PixelFormat)
  | convertRR (sfmt dfmt : PixelFormat)
  | scaleNone (sfmt : PixelFormat)
  | scaleLinear (sfmt : PixelFormat)
  | scaleBilinear (sfmt : PixelFormat)
  | rotate0
  | rotate90
  | rotate180
  | rotate270
  | rotateUV0
  | rotateUV90
  | rotateUV180
  | rotateUV270
  | demosaicR (sfmt dfmt : PixelFormat)
  | demosaicY (sfmt dfmt : PixelFormat) (cstd : ColourStandard)
deriving DecidableEq, Repr

/-- A command descriptor: the words `W0` to `W16` in order, under the names of rule R90. An operand
that a listing leaves out is the word 0 (rule R103), which is each field's default. -/
structure Descriptor where
  cmd : Word := 0
  width : Word := 0
  height : Word := 0
  dwidth : Word := 0
  dheight : Word := 0
  src0Addr : Word := 0
  src0Stride : Word := 0
  src1Addr : Word := 0
  src1Stride : Word := 0
  src2Addr : Word := 0
  src2Stride : Word := 0
  dst0Addr : Word := 0
  dst0Stride : Word := 0
  dst1Addr : Word := 0
  dst1Stride : Word := 0
  dst2Addr : Word := 0
  dst2Stride : Word := 0
deriving DecidableEq, Repr

/-- The pseudo-instructions of rule R104; `Pseudo.expand` gives their expansions. -/
inductive Pseudo where
  | halt | copy | mirror | splitUV
deriving DecidableEq, Repr

end Sys2Proof
end

