-- ==== Sys2Proof/WellFormed.lean ====
section
/-! DEFINITION. Which instructions are legal instances of their form: the format sets of
30_encoding.md rule R99. -/

namespace Sys2Proof

/-- `YUVF`, the formats of the YUV family (rule R96). -/
def PixelFormat.isYuv : PixelFormat → Bool
  | .yuv _ => true
  | .none | .rgb _ | .bayer _ | .reserved _ => false

/-- `RGBF`, the formats of the RGB family (rule R96). -/
def PixelFormat.isRgb : PixelFormat → Bool
  | .rgb _ => true
  | .none | .yuv _ | .bayer _ | .reserved _ => false

/-- `BAYF`, the formats of the Bayer family (rule R96). -/
def PixelFormat.isBayer : PixelFormat → Bool
  | .bayer _ => true
  | .none | .yuv _ | .rgb _ | .reserved _ => false

/-- The formats SCALE accepts (rule R99): I400 and the byte formats of the RGB family. -/
def PixelFormat.isScalable : PixelFormat → Bool
  | .yuv .i400 => true
  | .rgb .argb | .rgb .bgra | .rgb .abgr | .rgb .rgba | .rgb .rgb24 | .rgb .raw => true
  | .none | .yuv _ | .rgb _ | .bayer _ | .reserved _ => false

/-- The source format of the form is in the set rule R99 gives. -/
def Instr.sourceLegal : Instr → Bool
  | .convertYR s _ _ | .convertYY s _ => s.isYuv
  | .convertRY s _ _ | .convertRR s _ => s.isRgb
  | .scaleNone s | .scaleLinear s | .scaleBilinear s => s.isScalable
  | .demosaicR s _ | .demosaicY s _ _ => s.isBayer
  | .endList | .rotate0 | .rotate90 | .rotate180 | .rotate270
  | .rotateUV0 | .rotateUV90 | .rotateUV180 | .rotateUV270 => true

/-- The destination format of the form is in the set rule R99 gives. -/
def Instr.destLegal : Instr → Bool
  | .convertYR _ d _ | .convertRR _ d | .demosaicR _ d => d.isRgb
  | .convertRY _ d _ | .convertYY _ d | .demosaicY _ d _ => d.isYuv
  | .endList | .scaleNone _ | .scaleLinear _ | .scaleBilinear _
  | .rotate0 | .rotate90 | .rotate180 | .rotate270
  | .rotateUV0 | .rotateUV90 | .rotateUV180 | .rotateUV270 => true

/-- A legal instance of its form (rules R99, R100): both format fields are in the form's sets. -/
def Instr.wellFormed (i : Instr) : Bool :=
  i.sourceLegal && i.destLegal

end Sys2Proof
end

