-- ==== Sys2Proof/Decode.lean ====
section
/-! DEFINITION. The decoder and the encoder of the CME, from the tables of 30_encoding.md: the fields of
`W0` (R91), the format codes (R96), the map of the eighteen forms (R100), the seven checks (R101), the
layout of a descriptor in memory (R90) and the pseudo-instructions (R104). -/

namespace Sys2Proof

/-! ### The fields of the command word (rule R91) -/

/-- `OPC`, bits 7:0. -/
def opcField (w : Word) : BitVec 8 := w.extractLsb' 0 8

/-- `SFMT`, bits 13:8. -/
def sfmtField (w : Word) : BitVec 6 := w.extractLsb' 8 6

/-- `DFMT`, bits 19:14. -/
def dfmtField (w : Word) : BitVec 6 := w.extractLsb' 14 6

/-- `FILT`, bits 21:20. -/
def filtField (w : Word) : BitVec 2 := w.extractLsb' 20 2

/-- `ROT`, bits 23:22. -/
def rotField (w : Word) : BitVec 2 := w.extractLsb' 22 2

/-- `CSTD`, bit 24. -/
def cstdField (w : Word) : BitVec 1 := w.extractLsb' 24 1

/-- `RSV`, bits 31:25. -/
def rsvField (w : Word) : BitVec 7 := w.extractLsb' 25 7

/-! ### Codes (rules R95, R96) -/

/-- The code of each YUV-family format (rule R96). -/
def YuvFormat.code : YuvFormat → BitVec 6
  | .i420 => 0x01 | .i422 => 0x02 | .i444 => 0x03 | .i411 => 0x04 | .nv12 => 0x05
  | .nv21 => 0x06 | .yuy2 => 0x07 | .uyvy => 0x08 | .i400 => 0x09

/-- The code of each RGB-family format (rule R96). -/
def RgbFormat.code : RgbFormat → BitVec 6
  | .argb => 0x10 | .bgra => 0x11 | .abgr => 0x12 | .rgba => 0x13 | .rgb24 => 0x14
  | .raw => 0x15 | .rgb565 => 0x16 | .argb1555 => 0x17 | .argb4444 => 0x18

/-- The code of each Bayer-family format (rule R96). -/
def BayerFormat.code : BayerFormat → BitVec 6
  | .rggb => 0x20 | .bggr => 0x21 | .grbg => 0x22 | .gbrg => 0x23

/-- The code of a format (rule R96). -/
def PixelFormat.code : PixelFormat → BitVec 6
  | .none => 0
  | .yuv f => f.code
  | .rgb f => f.code
  | .bayer f => f.code
  | .reserved c => c

/-- What a format code denotes (rule R96); every code the table does not name is reserved. -/
def PixelFormat.ofCode (c : BitVec 6) : PixelFormat :=
  match c.toNat with
  | 0x00 => .none
  | 0x01 => .yuv .i420 | 0x02 => .yuv .i422 | 0x03 => .yuv .i444 | 0x04 => .yuv .i411
  | 0x05 => .yuv .nv12 | 0x06 => .yuv .nv21 | 0x07 => .yuv .yuy2 | 0x08 => .yuv .uyvy
  | 0x09 => .yuv .i400
  | 0x10 => .rgb .argb | 0x11 => .rgb .bgra | 0x12 => .rgb .abgr | 0x13 => .rgb .rgba
  | 0x14 => .rgb .rgb24 | 0x15 => .rgb .raw | 0x16 => .rgb .rgb565 | 0x17 => .rgb .argb1555
  | 0x18 => .rgb .argb4444
  | 0x20 => .bayer .rggb | 0x21 => .bayer .bggr | 0x22 => .bayer .grbg | 0x23 => .bayer .gbrg
  | _ => .reserved c

/-- The `CSTD` bit of a colour standard (rule R95). -/
def ColourStandard.bit : ColourStandard → BitVec 1
  | .bt601 => 0
  | .fullJ => 1

/-- The colour standard a `CSTD` bit selects (rule R95). -/
def ColourStandard.ofBit (b : BitVec 1) : ColourStandard :=
  if b = 0 then .bt601 else .fullJ

/-- The source format the word's `SFMT` field denotes. -/
def sourceFormat (w : Word) : PixelFormat := .ofCode (sfmtField w)

/-- The destination format the word's `DFMT` field denotes. -/
def destFormat (w : Word) : PixelFormat := .ofCode (dfmtField w)

/-- The colour standard the word's `CSTD` field selects. -/
def colourStandard (w : Word) : ColourStandard := .ofBit (cstdField w)

/-! ### The opcode map (rule R100) -/

/-- One row of the opcode map: a word `w` has this form when `w &&& mask = pat`. -/
structure FormRow where
  mask : Word
  pat : Word
  build : Word → Instr

/-- The eighteen rows of rule R100, in the table's order. -/
def formTable : List FormRow :=
  [ ⟨0xFFFFFFFF, 0x00000000, fun _ => .endList⟩,
    ⟨0xFEFC30FF, 0x00040001, fun w => .convertYR (sourceFormat w) (destFormat w) (colourStandard w)⟩,
    ⟨0xFEFC30FF, 0x00001001, fun w => .convertRY (sourceFormat w) (destFormat w) (colourStandard w)⟩,
    ⟨0xFFFC30FF, 0x00000001, fun w => .convertYY (sourceFormat w) (destFormat w)⟩,
    ⟨0xFFFC30FF, 0x00041001, fun w => .convertRR (sourceFormat w) (destFormat w)⟩,
    ⟨0xFFFFC0FF, 0x00000002, fun w => .scaleNone (sourceFormat w)⟩,
    ⟨0xFFFFC0FF, 0x00100002, fun w => .scaleLinear (sourceFormat w)⟩,
    ⟨0xFFFFC0FF, 0x00200002, fun w => .scaleBilinear (sourceFormat w)⟩,
    ⟨0xFFFFFFFF, 0x00000003, fun _ => .rotate0⟩,
    ⟨0xFFFFFFFF, 0x00400003, fun _ => .rotate90⟩,
    ⟨0xFFFFFFFF, 0x00800003, fun _ => .rotate180⟩,
    ⟨0xFFFFFFFF, 0x00C00003, fun _ => .rotate270⟩,
    ⟨0xFFFFFFFF, 0x00000004, fun _ => .rotateUV0⟩,
    ⟨0xFFFFFFFF, 0x00400004, fun _ => .rotateUV90⟩,
    ⟨0xFFFFFFFF, 0x00800004, fun _ => .rotateUV180⟩,
    ⟨0xFFFFFFFF, 0x00C00004, fun _ => .rotateUV270⟩,
    ⟨0xFFFC30FF, 0x00042005, fun w => .demosaicR (sourceFormat w) (destFormat w)⟩,
    ⟨0xFEFC30FF, 0x00002005, fun w => .demosaicY (sourceFormat w) (destFormat w) (colourStandard w)⟩ ]

/-- A word matches a row of the opcode map (rule R100). -/
def FormRow.selects (r : FormRow) (w : Word) : Bool := w &&& r.mask == r.pat

/-- The form a command word selects, if any (rule R100). -/
def selectForm (w : Word) : Option Instr :=
  (formTable.find? (·.selects w)).map (·.build w)

/-! ### The checks of the command word (rules R99, R101) -/

/-- The causes of IllegalCommand (60_exceptions.md rule R363). -/
inductive IllegalCause where
  | reservedOpcode
  | reservedBits
  | badSourceFormat
  | badDestFormat
  | badFilter
  | badRotation
  | badColourStandard
deriving DecidableEq, Repr

/-- The `ECAUSE` number of an IllegalCommand cause (60_exceptions.md rule R363). -/
def IllegalCause.code : IllegalCause → BitVec 8
  | .reservedOpcode => 1
  | .reservedBits => 2
  | .badSourceFormat => 3
  | .badDestFormat => 4
  | .badFilter => 5
  | .badRotation => 6
  | .badColourStandard => 7

/-- The `SFMT` set of rule R99 for an opcode. -/
def sourceFormatAllowed (opc : Nat) (f : PixelFormat) : Bool :=
  match opc with
  | 1 => f.isYuv || f.isRgb
  | 2 => f.isScalable
  | 5 => f.isBayer
  | _ => f == .none

/-- The `DFMT` set of rule R99 for an opcode. -/
def destFormatAllowed (opc : Nat) (f : PixelFormat) : Bool :=
  match opc with
  | 1 | 5 => f.isYuv || f.isRgb
  | _ => f == .none

/-- The forms that pass pixels through the colour matrix: CONVERT between the families and DEMOSAIC to
the YUV family (rules R95, R99). -/
def usesColourMatrix (opc : Nat) (s d : PixelFormat) : Bool :=
  (opc == 1 && s.isYuv != d.isYuv) || (opc == 5 && d.isYuv)

/-- The seven checks of rule R101 in their order: the condition that fails the check, and the cause. -/
def illegalChecks (w : Word) : List (Bool × IllegalCause) :=
  let opc := (opcField w).toNat
  [ (decide (opc > 5), .reservedOpcode),
    (rsvField w != 0, .reservedBits),
    (!sourceFormatAllowed opc (sourceFormat w), .badSourceFormat),
    (!destFormatAllowed opc (destFormat w), .badDestFormat),
    (if opc = 2 then filtField w == 3 else filtField w != 0, .badFilter),
    (rotField w != 0 && opc != 3 && opc != 4, .badRotation),
    (cstdField w == 1 && !usesColourMatrix opc (sourceFormat w) (destFormat w), .badColourStandard) ]

/-- The cause of the first check of rule R101 that the word fails; none for a legal word. -/
def illegalCause (w : Word) : Option IllegalCause :=
  ((illegalChecks w).find? (·.1)).map (·.2)

/-! ### The decoder (rule R132) -/

/-- The decoder. A word that matches a row of the opcode map is that form ("a form is selected by
`W0 & mask == match`", rule R100); every other word is rejected with the cause rule R101 gives it. A
form whose mask leaves a format field free finishes its decoding in its own meaning, which raises
IllegalCommand when the code lies outside the legal set (rule R100; log entry 5). The default of `getD`
is never reached: a word that no row matches fails one of the seven checks (rule R101, "a `W0` that
passes all seven checks matches exactly one form"). -/
def decode (w : Word) : Except IllegalCause Instr :=
  match selectForm w with
  | some i => .ok i
  | none => .error ((illegalCause w).getD .badColourStandard)

/-- The little-endian word whose bytes, lowest address first, are the first four of the list; missing
bytes are 0 (20_memory.md rule R63). -/
def wordOfBytes (bs : List Byte) : Word :=
  BitVec.ofNat 32 ((bs.getD 0 0).toNat + 256 * (bs.getD 1 0).toNat + 65536 * (bs.getD 2 0).toNat
    + 16777216 * (bs.getD 3 0).toNat)

/-- Decoding a descriptor's bytes: `W0` alone selects the operation (rule R90). -/
def decodeBytes (bs : List Byte) : Except IllegalCause Instr :=
  decode (wordOfBytes bs)

/-- Byte `k` of the descriptor whose low `nbits` bits are those of `w` and whose other bits are 0. -/
def tableByte (nbits w k : Nat) : Byte :=
  BitVec.ofNat 8 ((w % 2 ^ nbits) / 256 ^ k)

/-- The instruction the decoder reads from a descriptor whose bits, numbered from the least significant
bit of the first word, are `w`, the bits above `nbits` being 0. -/
def decodeTableWord (nbits w : Nat) : Option Instr :=
  (decodeBytes ((List.range Config.descBytes).map (tableByte nbits w))).toOption

/-! ### The encoder -/

/-- The command word with the given fields (rule R91). -/
def packFields (opc : BitVec 8) (sfmt dfmt : BitVec 6) (filt rot : BitVec 2) (cstd : BitVec 1) : Word :=
  0#7 ++ cstd ++ rot ++ filt ++ dfmt ++ sfmt ++ opc

/-- The command word of an instruction (rules R91 to R96). -/
def encodeWord : Instr → Word
  | .endList => packFields 0 0 0 0 0 0
  | .convertYR s d c | .convertRY s d c => packFields 1 s.code d.code 0 0 c.bit
  | .convertYY s d | .convertRR s d => packFields 1 s.code d.code 0 0 0
  | .scaleNone s => packFields 2 s.code 0 0 0 0
  | .scaleLinear s => packFields 2 s.code 0 1 0 0
  | .scaleBilinear s => packFields 2 s.code 0 2 0 0
  | .rotate0 => packFields 3 0 0 0 0 0
  | .rotate90 => packFields 3 0 0 0 1 0
  | .rotate180 => packFields 3 0 0 0 2 0
  | .rotate270 => packFields 3 0 0 0 3 0
  | .rotateUV0 => packFields 4 0 0 0 0 0
  | .rotateUV90 => packFields 4 0 0 0 1 0
  | .rotateUV180 => packFields 4 0 0 0 2 0
  | .rotateUV270 => packFields 4 0 0 0 3 0
  | .demosaicR s d => packFields 5 s.code d.code 0 0 0
  | .demosaicY s d c => packFields 5 s.code d.code 0 0 c.bit

/-- The descriptor of an instruction with the given operand words (rule R90). -/
def encode (i : Instr) (operands : Descriptor) : Descriptor :=
  { operands with cmd := encodeWord i }

/-- The words `W0` to `W16` of a descriptor (rule R90). -/
def Descriptor.words (d : Descriptor) : List Word :=
  [ d.cmd, d.width, d.height, d.dwidth, d.dheight,
    d.src0Addr, d.src0Stride, d.src1Addr, d.src1Stride, d.src2Addr, d.src2Stride,
    d.dst0Addr, d.dst0Stride, d.dst1Addr, d.dst1Stride, d.dst2Addr, d.dst2Stride ]

/-- `D[i]`, the word `Wi` of a descriptor (10_state.md rule R21). There is no word past `W16`, and the
register interface reads those offsets as 0 (rule R29). -/
def Descriptor.word (d : Descriptor) (i : Nat) : Word :=
  d.words.getD i 0

/-- The descriptor whose word `Wi` is `f i` (rule R90). -/
def Descriptor.ofWords (f : Nat → Word) : Descriptor where
  cmd := f 0
  width := f 1
  height := f 2
  dwidth := f 3
  dheight := f 4
  src0Addr := f 5
  src0Stride := f 6
  src1Addr := f 7
  src1Stride := f 8
  src2Addr := f 9
  src2Stride := f 10
  dst0Addr := f 11
  dst0Stride := f 12
  dst1Addr := f 13
  dst1Stride := f 14
  dst2Addr := f 15
  dst2Stride := f 16

/-- The four bytes of a word, lowest address first (20_memory.md rule R63). -/
def wordBytes (w : Word) : List Byte :=
  [w.extractLsb' 0 8, w.extractLsb' 8 8, w.extractLsb' 16 8, w.extractLsb' 24 8]

/-- The 68 bytes of a descriptor as they lie in memory, lowest address first (rule R90). -/
def Descriptor.bytes (d : Descriptor) : List Byte :=
  d.words.flatMap wordBytes

/-- The expansions of the pseudo-instructions (rule R104): MIRROR is ROTATE.180 with the height negated.
DESIGN CHOICE (log entry 19): the rule does not say what MIRROR assembles to for `h = -2^31`, whose
negation is no signed 32-bit value; here the negation wraps, and the word stays 0x80000000. -/
def Pseudo.expand (p : Pseudo) (operands : Descriptor) : Descriptor :=
  match p with
  | .halt => encode .endList operands
  | .copy => encode .rotate0 operands
  | .mirror => encode .rotate180 { operands with height := -operands.height }
  | .splitUV => encode .rotateUV0 operands

end Sys2Proof
end

