-- ==== Sys2Proof/Machine/State.lean ====
section
/-! DEFINITION. The architectural state of the CME (10_state.md rule R20) and its reset values (rule R37),
the reasons a step can stop, and the plain data the meanings are written over. -/

namespace Sys2Proof.Machine

/-- Data memory `Mem` (10_state.md rule R35): the bytes that differ from what an unlisted address reads
as, `Config.powerOnByte`, by strictly rising address (`Memory.wf`). -/
abbrev Memory := List Host.Cell

/-- The architectural state (rule R20). `ID` and the coefficient ROM are constants and are not held
here (rule R38, log entry 16). -/
structure State where
  /-- `Mem`, rule R35. -/
  mem : Memory
  /-- `DPC`, the descriptor pointer; its bits 1:0 are hardwired to 0 (rule R27). -/
  dpc : Word
  /-- `D0` to `D16`, the descriptor latch (rule R21). -/
  latch : Descriptor
  /-- `CTRL.IE` (rule R25). -/
  ie : Bool
  /-- `STATUS.BUSY` (rule R26). -/
  busy : Bool
  /-- `STATUS.DONE` (rule R26). -/
  done : Bool
  /-- `STATUS.ERR` (rule R26). -/
  err : Bool
  /-- `STATUS.ECODE` (rule R26). -/
  ecode : BitVec 4
  /-- `STATUS.ECAUSE` (rule R26). -/
  ecause : BitVec 8
deriving DecidableEq, Repr

/-- The state after reset (rules R37, R400): idle, every control and status bit 0, `DPC` 0. The values
of `D0` to `D16` (log entry 2) and of memory (log entry 1) are DESIGN CHOICES: the spec leaves both
unspecified. -/
def State.reset : State where
  mem := []
  dpc := 0
  latch := {}
  ie := false
  busy := false
  done := false
  err := false
  ecode := 0
  ecause := 0

/-- The reasons a step stops with a fault: none. The CME has no exception that stops the machine: every
error is recorded in `STATUS` and leaves an idle engine, a next state (60_exceptions.md rules R360,
R364; log entry 11). -/
inductive Fault where
deriving DecidableEq, Repr

/-- The reasons the model gives a situation no meaning. -/
inductive Refusal where
  /-- Raised by `exec` for a form whose meaning is not written; no arm raises it. Safe. -/
  | notModelled (mnemonic : String)
  /-- Raised by a data command whose footprint precondition fails: two destination positions share an
  address, or the write footprint meets the read footprint ("a model gives the command no meaning",
  20_memory.md rule R68; U1, U2, treatment `refuse`; log entry 3). Safe. -/
  | footprintPrecondition
  /-- Raised by a host register access that is not 32 bits wide or not at a multiple of 4 ("has no
  defined meaning", 10_state.md rule R22; U9, treatment `refuse`; log entry 7). Safe. -/
  | badRegisterAccess
  /-- Raised by a host access to `Mem` while `BUSY = 1` that the model cannot show to lie outside the
  footprints of the commands still to complete (70_reset_and_hazards.md rule R410; U3, treatment
  `refuse`; log entry 8). Safe. -/
  | hostHazard
deriving DecidableEq, Repr

/-- The causes of InvalidArgument (60_exceptions.md rule R362). -/
inductive ArgCause where
  | nullSrc0
  | nullSrc1
  | nullSrc2
  | nullDst0
  | nullDst1
  | nullDst2
  | widthNotPositive
  | heightZero
  | destWidthNotPositive
  | destHeightNotPositive
  | bayerOddWidth
  | bayerOddHeight
deriving DecidableEq, Repr

/-- The two exception classes with their causes (60_exceptions.md rule R361). -/
inductive CommandError where
  | invalidArgument (cause : ArgCause)
  | illegalCommand (cause : IllegalCause)
deriving DecidableEq, Repr

/-- The five data commands (40_sequencing.md rule R134, "every data command"). -/
inductive CommandClass where
  | convert | scale | rotate | rotateUV | demosaic
deriving DecidableEq, Repr

/-- Row byte count and row count of one plane (41_pixel_formats.md rule R172). -/
structure Geom where
  rb : Nat
  rows : Nat
deriving DecidableEq, Repr

/-- A plane as it lies in memory (20_memory.md rule R65): row `y`, `y < rows`, is the `rb` bytes from
address `base + y * stride`. -/
structure Plane where
  base : Int
  stride : Int
  rows : Nat
  rb : Nat
deriving DecidableEq, Repr

/-- A run of `len` consecutive addresses, modulo the size of memory. -/
structure Span where
  start : Int
  len : Nat
deriving DecidableEq, Repr

/-- A store to a destination position: `Q_plane(row, off) <- value` (41_pixel_formats.md section 3). -/
structure Store where
  plane : Nat
  row : Nat
  off : Nat
  value : Byte
deriving DecidableEq, Repr

/-- A pixel of a YUV-family format (41_pixel_formats.md rule R170). -/
structure Yuv where
  y : Byte
  u : Byte
  v : Byte
deriving DecidableEq, Repr

/-- A pixel of an RGB-family format (41_pixel_formats.md rule R170). -/
structure Rgba where
  r : Byte
  g : Byte
  b : Byte
  a : Byte
deriving DecidableEq, Repr

/-- The size operands of a SCALE command (43_scale.md rule R272). -/
structure ScaleSize where
  sw : Nat
  sh : Nat
  dw : Nat
  dh : Nat
deriving DecidableEq, Repr

/-- The path of a SCALE command (43_scale.md rule R277). -/
inductive ScalePath where
  | box2 | box4 | generic
deriving DecidableEq, Repr

/-- The colour of a mosaic sample (45_demosaic.md rule R332). -/
inductive SampleRole where
  | red | green | blue
deriving DecidableEq, Repr

end Sys2Proof.Machine
end

