-- ==== Sys2Proof/Machine/Ops.lean ====
section
/-! DEFINITION. The named operations over memory and registers: byte and word access (20_memory.md rules
R60 to R63), the descriptor fetch (40_sequencing.md rule R131), the advance (R139), error entry
(60_exceptions.md rule R364) and recovery (10_state.md rule R32), footprints (20_memory.md rules R65,
R68). -/

namespace Sys2Proof.Machine

/-! ### Memory -/

/-- The address an access names: any integer, reduced modulo the size of memory (rules R61, R62). -/
def address (a : Int) : Nat := (a % (Config.memBytes : Int)).toNat

/-- The byte at an address. An address that is not listed reads as `Config.powerOnByte` (log entry 1);
every address is readable (rule R60). -/
def Memory.load : Memory → Nat → Byte
  | [], _ => Config.powerOnByte
  | (b, v) :: rest, a => if a = b then v else Memory.load rest a

/-- List a byte at its place in the rising order. -/
def Memory.insert : Memory → Nat → Byte → Memory
  | [], a, v => [(a, v)]
  | (b, u) :: rest, a, v =>
    if a < b then (a, v) :: (b, u) :: rest
    else if a = b then (a, v) :: rest
    else (b, u) :: Memory.insert rest a v

/-- List nothing at an address. -/
def Memory.erase (m : Memory) (a : Nat) : Memory :=
  m.filter (fun c => c.1 != a)

/-- Store a byte (rule R62), keeping the canonical form: a byte that an unlisted address reads as is not
listed. -/
def Memory.store (m : Memory) (a : Nat) (v : Byte) : Memory :=
  if v = Config.powerOnByte then m.erase a else m.insert a v

/-- The canonical form of memory: strictly rising addresses inside the memory, none holding what an
unlisted address reads as. -/
abbrev Memory.wf (m : Memory) : Prop :=
  m.Pairwise (fun c d => c.1 < d.1)
    ∧ ∀ c ∈ m, c.1 < Config.memBytes ∧ c.2 ≠ Config.powerOnByte

/-- `MemRead(a, n)` (rule R61): little-endian, each byte's address reduced modulo the size of memory. -/
def Memory.read (m : Memory) (a : Int) : Nat → Nat
  | 0 => 0
  | n + 1 => (m.load (address a)).toNat + 256 * m.read (a + 1) n

/-- `MemWrite(a, n, v)` (rule R62). -/
def Memory.write (m : Memory) (a : Int) : Nat → Nat → Memory
  | 0, _ => m
  | n + 1, v => (m.store (address a) (BitVec.ofNat 8 v)).write (a + 1) n (v / 256)

/-- Store a list of bytes at consecutive addresses from `a`. -/
def Memory.writeBytes (m : Memory) (a : Int) : List Byte → Memory
  | [] => m
  | v :: rest => (m.store (address a) v).writeBytes (a + 1) rest

/-! ### Registers -/

/-- A host write of `DPC`: bits 1:0 are hardwired to 0, `v & 0xFFFFFFFC` is stored (10_state.md rule
R27). -/
def State.withDpc (s : State) (v : Word) : State :=
  { s with dpc := v &&& 0xFFFFFFFC }

/-- Replace memory. -/
def State.withMem (s : State) (m : Memory) : State :=
  { s with mem := m }

/-- `CTRL.IE <- b` (10_state.md rule R25). -/
def State.withIe (s : State) (b : Bool) : State :=
  { s with ie := b }

/-- The words at `DPC` as the fetch reads them (40_sequencing.md rule R131). -/
def State.fetchedWord (s : State) (i : Nat) : Word :=
  BitVec.ofNat 32 (s.mem.read ((s.dpc.toNat : Int) + 4 * i) 4)

/-- Fetch (40_sequencing.md rule R131): all 17 words at `DPC` are latched before decoding begins. -/
def State.fetch (s : State) : State :=
  { s with latch := Descriptor.ofWords s.fetchedWord }

/-- `DPC <- (DPC + 68) mod 2^32` (40_sequencing.md rules R139, R140). 68 is a multiple of 4, so bits 1:0
stay as they are. -/
def State.advance (s : State) : State :=
  { s with dpc := s.dpc + BitVec.ofNat 32 Config.descBytes }

/-! ### Error entry and recovery -/

/-- The `ECAUSE` number of an InvalidArgument cause (60_exceptions.md rule R362). -/
def ArgCause.code : ArgCause → BitVec 8
  | .nullSrc0 => 1
  | .nullSrc1 => 2
  | .nullSrc2 => 3
  | .nullDst0 => 4
  | .nullDst1 => 5
  | .nullDst2 => 6
  | .widthNotPositive => 7
  | .heightZero => 8
  | .destWidthNotPositive => 9
  | .destHeightNotPositive => 10
  | .bayerOddWidth => 11
  | .bayerOddHeight => 12

/-- The `ECODE` value of an error (60_exceptions.md rule R361). -/
def CommandError.ecode : CommandError → BitVec 4
  | .invalidArgument _ => 1
  | .illegalCommand _ => 2

/-- The `ECAUSE` value of an error (60_exceptions.md rules R362, R363). -/
def CommandError.ecause : CommandError → BitVec 8
  | .invalidArgument c => c.code
  | .illegalCommand c => c.code

/-- Error entry, `raise <Class>(cause)` (60_exceptions.md rule R364): `ERR`, `ECODE` and `ECAUSE`
record the error, `BUSY` is cleared; `DPC`, the latch, `DONE`, `IE` and memory are unchanged. There is
no handler address, no saved state and no mode. -/
def raise (e : CommandError) (s : State) : State :=
  { s with err := true, ecode := e.ecode, ecause := e.ecause, busy := false }

/-- Recovery, the host's acknowledgement of an error (10_state.md rule R32, 60_exceptions.md rule R366):
there is no return-from-exception command; writing 1 to `STATUS.ERR` clears `ERR`, `ECODE` and
`ECAUSE`. -/
def clearError (s : State) : State :=
  { s with err := false, ecode := 0, ecause := 0 }

/-! ### Planes and footprints -/

/-- The address of byte `off` of row `y` of a plane (20_memory.md rule R65). -/
def Plane.addr (p : Plane) (y off : Nat) : Nat :=
  address (p.base + y * p.stride + off)

/-- `P_k(y, off)` of 41_pixel_formats.md section 2: the byte at offset `off` of row `y` of a plane. -/
def Plane.byte (p : Plane) (m : Memory) (y off : Nat) : Byte :=
  m.load (p.addr y off)

/-- The plane in slot `k`. Slots past the ones a command uses are never asked for (log entry 18). -/
def planeAt (ps : List Plane) (k : Nat) : Plane :=
  ps.getD k ⟨0, 0, 0, 0⟩

/-- The rows of a plane as runs of addresses (20_memory.md rule R65). -/
def Plane.spans (p : Plane) : List Span :=
  (List.range p.rows).map fun (y : Nat) => ⟨p.base + y * p.stride, p.rb⟩

/-- The address `a` lies in a run. -/
def Span.covers (s : Span) (a : Int) : Bool :=
  decide ((a - s.start) % (Config.memBytes : Int) < s.len)

/-- Two runs share no address: neither is empty and starts inside the other. -/
def Span.disjoint (s t : Span) : Bool :=
  s.len == 0 || t.len == 0 || (!s.covers t.start && !t.covers s.start)

/-- The runs of a list share no address with one another. -/
def spansDisjoint : List Span → Bool
  | [] => true
  | s :: rest => rest.all s.disjoint && spansDisjoint rest

/-- The footprint precondition (20_memory.md rule R68) over the planes a command reads and writes,
decided row by row: no run of the write footprint wraps onto itself, no two of them meet, and none
meets a run of the read footprint. -/
def footprintsOk (reads writes : List Plane) : Bool :=
  let ws := writes.flatMap Plane.spans
  let rs := reads.flatMap Plane.spans
  ws.all (fun w => decide (w.len ≤ Config.memBytes))
    && spansDisjoint ws
    && ws.all (fun w => rs.all w.disjoint)

/-- Store every destination byte of a command (40_sequencing.md rule R138, 41_pixel_formats.md
section 3). -/
def storeAll (dsts : List Plane) (stores : List Store) (m : Memory) : Memory :=
  stores.foldl (fun m st => m.store ((planeAt dsts st.plane).addr st.row st.off) st.value) m

end Sys2Proof.Machine
end

