-- ==== Sys2Proof/Machine/Formats.lean ====
section
/-! DEFINITION. Pixel formats (41_pixel_formats.md): chroma subsampling (R171), plane geometry (R172), the
unpack of a source pixel (R180 to R192) and the stores of a destination position (R200 to R212). -/

namespace Sys2Proof.Machine

/-! ### Geometry -/

/-- `cdim(n, s)`, a dimension subsampled by `2^s`, rounded up (00_scope.md rule R9). -/
def cdim (n s : Nat) : Nat := (n + 2 ^ s - 1) / 2 ^ s

/-- The chroma subsampling `(hs, vs)` of a YUV-family format (rule R171); none for I400, which has no
chroma. -/
def subsampling : YuvFormat → Option (Nat × Nat)
  | .i420 => some (1, 1)
  | .i422 => some (1, 0)
  | .i444 => some (0, 0)
  | .i411 => some (2, 0)
  | .nv12 => some (1, 1)
  | .nv21 => some (1, 1)
  | .yuy2 => some (1, 0)
  | .uyvy => some (1, 0)
  | .i400 => none

/-- The planes of a planar format with subsampling `(hs, vs)` (rule R172). -/
def planarGeom (hs vs w h : Nat) : List Geom :=
  [⟨w, h⟩, ⟨cdim w hs, cdim h vs⟩, ⟨cdim w hs, cdim h vs⟩]

/-- `PlaneGeom` of a YUV-family format (rule R172). -/
def yuvGeom (f : YuvFormat) (w h : Nat) : List Geom :=
  match f with
  | .i420 => planarGeom 1 1 w h
  | .i422 => planarGeom 1 0 w h
  | .i444 => planarGeom 0 0 w h
  | .i411 => planarGeom 2 0 w h
  | .nv12 | .nv21 => [⟨w, h⟩, ⟨2 * cdim w 1, cdim h 1⟩]
  | .yuy2 | .uyvy => [⟨4 * cdim w 1, h⟩]
  | .i400 => [⟨w, h⟩]

/-- Bytes per pixel of an RGB-family format (rule R172). -/
def rgbBytes : RgbFormat → Nat
  | .argb | .bgra | .abgr | .rgba => 4
  | .rgb24 | .raw => 3
  | .rgb565 | .argb1555 | .argb4444 => 2

/-- `PlaneGeom` of an RGB-family format (rule R172). -/
def rgbGeom (f : RgbFormat) (w h : Nat) : List Geom :=
  [⟨rgbBytes f * w, h⟩]

/-- `PlaneGeom` of a Bayer-family format (rule R172, 45_demosaic.md rule R331). -/
def bayerGeom (w h : Nat) : List Geom :=
  [⟨w, h⟩]

/-! ### Unpack -/

/-- `SrcPix(x, y)` of a YUV-family source (rules R180 to R183), chroma upsampled by replication. `ps` are
the normalised source planes, and `P k y off` is the byte `P_k(y, off)`. -/
def unpackYuv (f : YuvFormat) (m : Memory) (ps : List Plane) (x y : Nat) : Yuv :=
  let P := fun k row off => (planeAt ps k).byte m row off
  match f with
  | .i420 => ⟨P 0 y x, P 1 (y / 2) (x / 2), P 2 (y / 2) (x / 2)⟩
  | .i422 => ⟨P 0 y x, P 1 y (x / 2), P 2 y (x / 2)⟩
  | .i444 => ⟨P 0 y x, P 1 y x, P 2 y x⟩
  | .i411 => ⟨P 0 y x, P 1 y (x / 4), P 2 y (x / 4)⟩
  | .nv12 => ⟨P 0 y x, P 1 (y / 2) (2 * (x / 2)), P 1 (y / 2) (2 * (x / 2) + 1)⟩
  | .nv21 => ⟨P 0 y x, P 1 (y / 2) (2 * (x / 2) + 1), P 1 (y / 2) (2 * (x / 2))⟩
  | .yuy2 => ⟨P 0 y (2 * x), P 0 y (4 * (x / 2) + 1), P 0 y (4 * (x / 2) + 3)⟩
  | .uyvy => ⟨P 0 y (2 * x + 1), P 0 y (4 * (x / 2)), P 0 y (4 * (x / 2) + 2)⟩
  | .i400 => ⟨P 0 y x, 128, 128⟩

/-- A 5-bit field widened to 8 bits by repeating its top bits (rule R190). -/
def widen5 (v : BitVec 5) : Byte := v ++ v.extractLsb' 2 3

/-- A 6-bit field widened to 8 bits by repeating its top bits (rule R190). -/
def widen6 (v : BitVec 6) : Byte := v ++ v.extractLsb' 4 2

/-- A 4-bit field widened to 8 bits, `17 * v` (rule R192). -/
def widen4 (v : BitVec 4) : Byte := BitVec.ofNat 8 (17 * v.toNat)

/-- A 1-bit alpha widened to 8 bits, `255 * v` (rule R191). -/
def widen1 (v : BitVec 1) : Byte := BitVec.ofNat 8 (255 * v.toNat)

/-- The pixel of an RGB565 half (rule R190). -/
def unpack565 (v : BitVec 16) : Rgba :=
  ⟨widen5 (v.extractLsb' 11 5), widen6 (v.extractLsb' 5 6), widen5 (v.extractLsb' 0 5), 255⟩

/-- The pixel of an ARGB1555 half (rule R191). -/
def unpack1555 (v : BitVec 16) : Rgba :=
  ⟨widen5 (v.extractLsb' 10 5), widen5 (v.extractLsb' 5 5), widen5 (v.extractLsb' 0 5),
    widen1 (v.extractLsb' 15 1)⟩

/-- The pixel of an ARGB4444 half (rule R192). -/
def unpack4444 (v : BitVec 16) : Rgba :=
  ⟨widen4 (v.extractLsb' 8 4), widen4 (v.extractLsb' 4 4), widen4 (v.extractLsb' 0 4),
    widen4 (v.extractLsb' 12 4)⟩

/-- The little-endian half formed from two bytes, the byte at the lower address first (20_memory.md rule
R63). -/
def half (lo hi : Byte) : BitVec 16 := hi ++ lo

/-- `SrcPix(x, y)` of an RGB-family source (rules R184 to R192). -/
def unpackRgb (f : RgbFormat) (m : Memory) (ps : List Plane) (x y : Nat) : Rgba :=
  let P := fun off => (planeAt ps 0).byte m y off
  match f with
  | .argb => { b := P (4 * x), g := P (4 * x + 1), r := P (4 * x + 2), a := P (4 * x + 3) }
  | .bgra => { a := P (4 * x), r := P (4 * x + 1), g := P (4 * x + 2), b := P (4 * x + 3) }
  | .abgr => { r := P (4 * x), g := P (4 * x + 1), b := P (4 * x + 2), a := P (4 * x + 3) }
  | .rgba => { a := P (4 * x), b := P (4 * x + 1), g := P (4 * x + 2), r := P (4 * x + 3) }
  | .rgb24 => { b := P (3 * x), g := P (3 * x + 1), r := P (3 * x + 2), a := 255 }
  | .raw => { r := P (3 * x), g := P (3 * x + 1), b := P (3 * x + 2), a := 255 }
  | .rgb565 => unpack565 (half (P (2 * x)) (P (2 * x + 1)))
  | .argb1555 => unpack1555 (half (P (2 * x)) (P (2 * x + 1)))
  | .argb4444 => unpack4444 (half (P (2 * x)) (P (2 * x + 1)))

/-! ### Pack -/

/-- The luma width of a destination row (41_pixel_formats.md section 3): `2 * cdim(w, 1)` for YUY2 and
UYVY, else `w`. -/
def lumaWidth (f : YuvFormat) (w : Nat) : Nat :=
  match f with
  | .yuy2 | .uyvy => 2 * cdim w 1
  | .i420 | .i422 | .i444 | .i411 | .nv12 | .nv21 | .i400 => w

/-- The offset in its row at which `StoreY(x, y, v)` stores (rules R200 to R203). -/
def lumaOffset (f : YuvFormat) (x : Nat) : Nat :=
  match f with
  | .yuy2 => 2 * x
  | .uyvy => 2 * x + 1
  | .i420 | .i422 | .i444 | .i411 | .nv12 | .nv21 | .i400 => x

/-- `StoreY(x, y, v)` (rules R200 to R203). -/
def storeLuma (f : YuvFormat) (x y : Nat) (v : Byte) : Store :=
  ⟨0, y, lumaOffset f x, v⟩

/-- `StoreC(cx, cy, u, v)` (rules R200 to R202); I400 has no chroma store (rule R203). -/
def storeChroma (f : YuvFormat) (cx cy : Nat) (u v : Byte) : List Store :=
  match f with
  | .i420 | .i422 | .i444 | .i411 => [⟨1, cy, cx, u⟩, ⟨2, cy, cx, v⟩]
  | .nv12 => [⟨1, cy, 2 * cx, u⟩, ⟨1, cy, 2 * cx + 1, v⟩]
  | .nv21 => [⟨1, cy, 2 * cx, v⟩, ⟨1, cy, 2 * cx + 1, u⟩]
  | .yuy2 => [⟨0, cy, 4 * cx + 1, u⟩, ⟨0, cy, 4 * cx + 3, v⟩]
  | .uyvy => [⟨0, cy, 4 * cx, u⟩, ⟨0, cy, 4 * cx + 2, v⟩]
  | .i400 => []

/-- The RGB565 half of a pixel, by truncation (rule R210). -/
def pack565 (p : Rgba) : BitVec 16 :=
  p.r.extractLsb' 3 5 ++ p.g.extractLsb' 2 6 ++ p.b.extractLsb' 3 5

/-- The ARGB1555 half of a pixel, by truncation (rule R211). -/
def pack1555 (p : Rgba) : BitVec 16 :=
  p.a.extractLsb' 7 1 ++ p.r.extractLsb' 3 5 ++ p.g.extractLsb' 3 5 ++ p.b.extractLsb' 3 5

/-- The ARGB4444 half of a pixel, by truncation (rule R212). -/
def pack4444 (p : Rgba) : BitVec 16 :=
  p.a.extractLsb' 4 4 ++ p.r.extractLsb' 4 4 ++ p.g.extractLsb' 4 4 ++ p.b.extractLsb' 4 4

/-- The two bytes of a half as they are stored, the low byte first (rule R210). -/
def halfBytes (v : BitVec 16) : List Byte :=
  [v.extractLsb' 0 8, v.extractLsb' 8 8]

/-- The bytes of a pixel in memory order (rules R204 to R212). -/
def packRgb (f : RgbFormat) (p : Rgba) : List Byte :=
  match f with
  | .argb => [p.b, p.g, p.r, p.a]
  | .bgra => [p.a, p.r, p.g, p.b]
  | .abgr => [p.r, p.g, p.b, p.a]
  | .rgba => [p.a, p.b, p.g, p.r]
  | .rgb24 => [p.b, p.g, p.r]
  | .raw => [p.r, p.g, p.b]
  | .rgb565 => halfBytes (pack565 p)
  | .argb1555 => halfBytes (pack1555 p)
  | .argb4444 => halfBytes (pack4444 p)

/-- `StorePix(x, y, R, G, B, A)` (rules R204 to R212): the pixel's bytes from offset `x` times the bytes
per pixel. -/
def storePixel (f : RgbFormat) (x y : Nat) (p : Rgba) : List Store :=
  (packRgb f p).zipIdx.map fun vk => ⟨0, y, rgbBytes f * x + vk.2, vk.1⟩

end Sys2Proof.Machine
end

