-- ==== Sys2Proof/Machine/Operands.lean ====
section
/-! DEFINITION. The operands of a command: the named latch values (40_sequencing.md rule R133), the
planes' rows and row bytes (R137), the slots used (30_encoding.md rule R98), the argument checks (R134)
and the orientation normalisation (R136). -/

namespace Sys2Proof.Machine

/-! ### Operand names (rule R133) -/

/-- `WIDTH`. -/
def widthOf (d : Descriptor) : Int := d.width.toInt

/-- `HEIGHT`. -/
def heightOf (d : Descriptor) : Int := d.height.toInt

/-- `DWIDTH`. -/
def dwidthOf (d : Descriptor) : Int := d.dwidth.toInt

/-- `DHEIGHT`. -/
def dheightOf (d : Descriptor) : Int := d.dheight.toInt

/-- `SRCk_ADDR`. There are three slots, so `k` past 1 is slot 2. -/
def srcAddr (d : Descriptor) (k : Nat) : Word :=
  match k with
  | 0 => d.src0Addr
  | 1 => d.src1Addr
  | _ => d.src2Addr

/-- `SRCk_STRIDE`. -/
def srcStride (d : Descriptor) (k : Nat) : Int :=
  match k with
  | 0 => d.src0Stride.toInt
  | 1 => d.src1Stride.toInt
  | _ => d.src2Stride.toInt

/-- `DSTk_ADDR`. -/
def dstAddr (d : Descriptor) (k : Nat) : Word :=
  match k with
  | 0 => d.dst0Addr
  | 1 => d.dst1Addr
  | _ => d.dst2Addr

/-- `DSTk_STRIDE`. -/
def dstStride (d : Descriptor) (k : Nat) : Int :=
  match k with
  | 0 => d.dst0Stride.toInt
  | 1 => d.dst1Stride.toInt
  | _ => d.dst2Stride.toInt

/-- `w`, the width as a count. It is used only after the check that `WIDTH` is positive. -/
def imageWidth (d : Descriptor) : Nat := (widthOf d).toNat

/-- `h = abs(HEIGHT)`, the real row count. -/
def imageHeight (d : Descriptor) : Nat := (heightOf d).natAbs

/-- The sizes of a SCALE command (43_scale.md rule R272). -/
def scaleSize (d : Descriptor) : ScaleSize where
  sw := imageWidth d
  sh := imageHeight d
  dw := (dwidthOf d).toNat
  dh := (dheightOf d).toNat

/-! ### Rows and row bytes of the planes a command uses (rule R137) -/

/-- Bytes per pixel `N` of the formats SCALE accepts (43_scale.md rule R271). -/
def scaleBytes : PixelFormat → Option Nat
  | .yuv .i400 => some 1
  | .rgb .rgb24 | .rgb .raw => some 3
  | .rgb .argb | .rgb .bgra | .rgb .abgr | .rgb .rgba => some 4
  | .none | .yuv _ | .rgb _ | .bayer _ | .reserved _ => none

/-- The source plane of a SCALE command. -/
def scaleSourceGeom (n : Nat) (z : ScaleSize) : List Geom := [⟨n * z.sw, z.sh⟩]

/-- The destination plane of a SCALE command. -/
def scaleDestGeom (n : Nat) (z : ScaleSize) : List Geom := [⟨n * z.dw, z.dh⟩]

/-- The size of a destination plane of ROTATE and ROTATE_UV (44_rotate.md rule R301). -/
def rotatedGeom (rot : Rotation) (w h : Nat) : Geom :=
  match rot with
  | .r0 | .r180 => ⟨w, h⟩
  | .r90 | .r270 => ⟨h, w⟩

/-- The planes of an image in any format (41_pixel_formats.md rule R172). -/
def pixelGeom (f : PixelFormat) (w h : Nat) : List Geom :=
  match f with
  | .yuv g => yuvGeom g w h
  | .rgb g => rgbGeom g w h
  | .bayer _ => bayerGeom w h
  | .none | .reserved _ => []

/-- The source planes of a form (rule R137). -/
def sourceGeom (i : Instr) (d : Descriptor) : List Geom :=
  let w := imageWidth d
  let h := imageHeight d
  match i with
  | .endList => []
  | .convertYR s _ _ | .convertRY s _ _ | .convertYY s _ | .convertRR s _ => pixelGeom s w h
  | .demosaicR s _ | .demosaicY s _ _ => pixelGeom s w h
  | .scaleNone s | .scaleLinear s | .scaleBilinear s =>
    scaleSourceGeom ((scaleBytes s).getD 0) (scaleSize d)
  | .rotate0 | .rotate90 | .rotate180 | .rotate270 => [⟨w, h⟩]
  | .rotateUV0 | .rotateUV90 | .rotateUV180 | .rotateUV270 => [⟨2 * w, h⟩]

/-- The destination planes of a form (rule R137). -/
def destGeom (i : Instr) (d : Descriptor) : List Geom :=
  let w := imageWidth d
  let h := imageHeight d
  match i with
  | .endList => []
  | .convertYR _ f _ | .convertRY _ f _ | .convertYY _ f | .convertRR _ f => pixelGeom f w h
  | .demosaicR _ f | .demosaicY _ f _ => pixelGeom f w h
  | .scaleNone s | .scaleLinear s | .scaleBilinear s =>
    scaleDestGeom ((scaleBytes s).getD 0) (scaleSize d)
  | .rotate0 => [rotatedGeom .r0 w h]
  | .rotate90 => [rotatedGeom .r90 w h]
  | .rotate180 => [rotatedGeom .r180 w h]
  | .rotate270 => [rotatedGeom .r270 w h]
  | .rotateUV0 => [rotatedGeom .r0 w h, rotatedGeom .r0 w h]
  | .rotateUV90 => [rotatedGeom .r90 w h, rotatedGeom .r90 w h]
  | .rotateUV180 => [rotatedGeom .r180 w h, rotatedGeom .r180 w h]
  | .rotateUV270 => [rotatedGeom .r270 w h, rotatedGeom .r270 w h]

/-! ### Orientation normalisation (rule R136) -/

/-- Source plane slot `k`, normalised: with a negative `HEIGHT` the base is the last row and the stride
is negated, each plane with its own row count. -/
def sourcePlane (d : Descriptor) (k : Nat) (g : Geom) : Plane :=
  if heightOf d < 0 then
    { base := (srcAddr d k).toNat + ((g.rows : Int) - 1) * srcStride d k
      stride := -srcStride d k
      rows := g.rows
      rb := g.rb }
  else
    { base := (srcAddr d k).toNat, stride := srcStride d k, rows := g.rows, rb := g.rb }

/-- Destination plane slot `k`: never flipped (rule R136). -/
def destPlane (d : Descriptor) (k : Nat) (g : Geom) : Plane :=
  { base := (dstAddr d k).toNat, stride := dstStride d k, rows := g.rows, rb := g.rb }

/-- The normalised source planes of a command, in slot order. -/
def sourcePlanes (d : Descriptor) (gs : List Geom) : List Plane :=
  gs.zipIdx.map fun gk => sourcePlane d gk.2 gk.1

/-- The destination planes of a command, in slot order. -/
def destPlanes (d : Descriptor) (gs : List Geom) : List Plane :=
  gs.zipIdx.map fun gk => destPlane d gk.2 gk.1

/-! ### Argument checks (rule R134) -/

/-- The data command a form belongs to; none for END. -/
def commandClass : Instr → Option CommandClass
  | .endList => none
  | .convertYR _ _ _ | .convertRY _ _ _ | .convertYY _ _ | .convertRR _ _ => some .convert
  | .scaleNone _ | .scaleLinear _ | .scaleBilinear _ => some .scale
  | .rotate0 | .rotate90 | .rotate180 | .rotate270 => some .rotate
  | .rotateUV0 | .rotateUV90 | .rotateUV180 | .rotateUV270 => some .rotateUV
  | .demosaicR _ _ | .demosaicY _ _ _ => some .demosaic

/-- The twelve checks in their order: the condition that fails the check, and the cause. `ns` and `nd`
are the source and destination slots the command uses (30_encoding.md rule R98). -/
def argChecks (cls : CommandClass) (ns nd : Nat) (d : Descriptor) : List (Bool × ArgCause) :=
  [ (decide (1 ≤ ns) && d.src0Addr == Config.null, .nullSrc0),
    (decide (2 ≤ ns) && d.src1Addr == Config.null, .nullSrc1),
    (decide (3 ≤ ns) && d.src2Addr == Config.null, .nullSrc2),
    (d.dst0Addr == Config.null, .nullDst0),
    (decide (2 ≤ nd) && d.dst1Addr == Config.null, .nullDst1),
    (decide (3 ≤ nd) && d.dst2Addr == Config.null, .nullDst2),
    (decide (widthOf d ≤ 0), .widthNotPositive),
    (decide (heightOf d = 0), .heightZero),
    (cls == .scale && decide (dwidthOf d ≤ 0), .destWidthNotPositive),
    (cls == .scale && decide (dheightOf d ≤ 0), .destHeightNotPositive),
    (cls == .demosaic && decide (widthOf d % 2 ≠ 0), .bayerOddWidth),
    (cls == .demosaic && decide (heightOf d % 2 ≠ 0), .bayerOddHeight) ]

/-- The cause of the first argument check that fails, if any (rule R134). -/
def argFault (cls : CommandClass) (ns nd : Nat) (d : Descriptor) : Option ArgCause :=
  ((argChecks cls ns nd d).find? (·.1)).map (·.2)

/-- The cause of the first argument check that a form's operands fail; END has no argument checks. -/
def instrArgFault (i : Instr) (d : Descriptor) : Option ArgCause :=
  match commandClass i with
  | none => none
  | some cls => argFault cls (sourceGeom i d).length (destGeom i d).length d

/-! ### The stages common to every data command -/

/-- The last stage of decoding a form whose mask leaves a format field free: the code lies outside the
legal set, so the command raises IllegalCommand (30_encoding.md rules R100, R101). -/
def raiseIllegal (c : IllegalCause) (s : State) : Host.Outcome State Fault Refusal :=
  .next (raise (.illegalCommand c) s)

/-- Check, normalise, execute and advance (40_sequencing.md rules R134, R136, R138, R139) of a data
command that uses the planes `srcs` and `dsts`. `stores` gives the destination bytes, computed from the
memory before the command through the normalised source planes. A command whose footprint precondition
fails has no meaning (20_memory.md rule R68, log entry 3). -/
def runData (cls : CommandClass) (srcs dsts : List Geom) (stores : List Plane → List Store)
    (s : State) : Host.Outcome State Fault Refusal :=
  match argFault cls srcs.length dsts.length s.latch with
  | some c => .next (raise (.invalidArgument c) s)
  | none =>
    let reads := sourcePlanes s.latch srcs
    let writes := destPlanes s.latch dsts
    if footprintsOk reads writes then
      .next (s.withMem (storeAll writes (stores reads) s.mem)).advance
    else
      .refused .footprintPrecondition

end Sys2Proof.Machine
end

