-- ==== Sys2Proof/Machine/Flags.lean ====
section
/-! DEFINITION. The control and status bits: the words `CTRL` and `STATUS` read as (10_state.md rules R25,
R26), the changes of the flags (R31, R32, 40_sequencing.md rule R140) and the interrupt output (R33). -/

namespace Sys2Proof.Machine

/-- The word `CTRL` reads as (rule R25): `IE` in bit 1; `START` and the reserved bits read 0. -/
def State.ctrlWord (s : State) : Word :=
  0#30 ++ BitVec.ofBool s.ie ++ 0#1

/-- The word `STATUS` reads as (rule R26): `BUSY` bit 0, `DONE` bit 1, `ERR` bit 2, `ECODE` bits 7:4,
`ECAUSE` bits 15:8; reserved bits read 0. -/
def State.statusWord (s : State) : Word :=
  0#16 ++ s.ecause ++ s.ecode ++ 0#1 ++ BitVec.ofBool s.err ++ BitVec.ofBool s.done
    ++ BitVec.ofBool s.busy

/-- The interrupt output (rule R33, 60_exceptions.md rule R370): `IE and (DONE or ERR)`, a function of
the state. -/
def State.irq (s : State) : Bool :=
  s.ie && (s.done || s.err)

/-- An accepted START (rule R31): `DONE` is cleared and `BUSY` set. -/
def startRun (s : State) : State :=
  { s with done := false, busy := true }

/-- The START action (rule R31): refused while `ERR = 1`. -/
def startRequest (s : State) : State :=
  if s.err then s else startRun s

/-- The END of a list (40_sequencing.md rule R140): `DPC` advances, `DONE` is set, `BUSY` cleared. -/
def endRun (s : State) : State :=
  { s.advance with done := true, busy := false }

/-- Writing 1 to `STATUS.DONE` clears it (rule R32). -/
def clearDone (s : State) : State :=
  { s with done := false }

end Sys2Proof.Machine
end

