-- ==== Sys2Proof/Machine/Matrix.lean ====
section
/-! DEFINITION. The fixed-point colour matrix (42_convert.md rules R234 to R237). -/

namespace Sys2Proof.Machine

/-- `a >> k` on a mathematical integer, `floor(a / 2^k)` (00_scope.md rule R9). -/
def shiftRight (a : Int) (k : Nat) : Int := a / (2 ^ k : Int)

/-- `clamp8(a)` (00_scope.md rule R9). -/
def clamp8 (a : Int) : Byte :=
  if a < 0 then 0 else if a > 255 then 255 else BitVec.ofNat 8 a.toNat

/-- The coefficient ROM (10_state.md rule R34): the sets `COEF_601` (rules R234, R236) and `COEF_J`
(rules R235, R237). -/
def coefficientRom : ColourStandard → Config.CoefficientSet
  | .bt601 =>
    { fwdY := ⟨66, 129, 25, 4224⟩
      fwdU := ⟨-38, -74, 112, 32896⟩
      fwdV := ⟨112, -94, -18, 32896⟩
      invR := ⟨298, 0, 409, -56992⟩
      invG := ⟨298, -100, -208, 34784⟩
      invB := ⟨298, 516, 0, -70688⟩ }
  | .fullJ =>
    { fwdY := ⟨77, 150, 29, 128⟩
      fwdU := ⟨-43, -85, 128, 32896⟩
      fwdV := ⟨128, -107, -21, 32896⟩
      invR := ⟨256, 0, 359, -45824⟩
      invG := ⟨256, -88, -183, 34816⟩
      invB := ⟨256, 454, 0, -57984⟩ }

/-- One component: the linear form of a row, one truncating shift by 8, and the clamp. -/
def applyRow (row : Config.MatrixRow) (p q r : Byte) : Byte :=
  clamp8 (shiftRight (row.a * p.toNat + row.b * q.toNat + row.c * r.toNat + row.k) 8)

/-- `Fwd601` and `FwdJ` (rules R234, R235): RGB to YUV. -/
def forward (cs : ColourStandard) (r g b : Byte) : Yuv :=
  { y := applyRow (coefficientRom cs).fwdY r g b
    u := applyRow (coefficientRom cs).fwdU r g b
    v := applyRow (coefficientRom cs).fwdV r g b }

/-- `Inv601` and `InvJ` (rules R236, R237): YUV to RGB. The pixel's alpha is 255 (rule R240). -/
def inverse (cs : ColourStandard) (y u v : Byte) : Rgba :=
  { r := applyRow (coefficientRom cs).invR y u v
    g := applyRow (coefficientRom cs).invG y u v
    b := applyRow (coefficientRom cs).invB y u v
    a := 255 }

end Sys2Proof.Machine
end

