-- ==== Sys2Proof/Machine/Convert.lean ====
section
/-! DEFINITION. CONVERT (42_convert.md): the block average (R244), the loops of the two back ends (R245,
R246) and the four forms (R240 to R243). -/

namespace Sys2Proof.Machine

/-! ### Shared helpers -/

/-- `BlockAvg` (rule R244) of one component `c` of a `w` × `h` source: the rounded mean of the
`2^hs` × `2^vs` block that chroma sample `(cx, cy)` covers, coordinates clamped at the last column and
row. -/
def blockAvg (c : Nat → Nat → Byte) (w h hs vs cx cy : Nat) : Byte :=
  let terms := (List.range (2 ^ vs)).flatMap fun b => (List.range (2 ^ hs)).map fun a =>
    (c (min (cx * 2 ^ hs + a) (w - 1)) (min (cy * 2 ^ vs + b) (h - 1))).toNat
  let k := hs + vs
  if k = 0 then BitVec.ofNat 8 terms.sum
  else BitVec.ofNat 8 ((terms.sum + 2 ^ (k - 1)) / 2 ^ k)

/-- The stores of an RGB-family destination: `StorePix` at every position (rules R240, R243). -/
def rgbStores (df : RgbFormat) (w h : Nat) (pixel : Nat → Nat → Rgba) : List Store :=
  (List.range h).flatMap fun y => (List.range w).flatMap fun x => storePixel df x y (pixel x y)

/-- The luma stores of a YUV-family destination (rules R245, R246): the position past an odd width
repeats the last pixel's luma. -/
def lumaStores (df : YuvFormat) (w h : Nat) (luma : Nat → Nat → Byte) : List Store :=
  (List.range h).flatMap fun y => (List.range (lumaWidth df w)).map fun x =>
    storeLuma df x y (luma (min x (w - 1)) y)

/-- The chroma stores of a YUV-family destination (rule R245), none for I400. `chroma hs vs cx cy` is
the pair of chroma values of the form. -/
def chromaStores (df : YuvFormat) (w h : Nat) (chroma : Nat → Nat → Nat → Nat → Byte × Byte) :
    List Store :=
  match subsampling df with
  | none => []
  | some (hs, vs) =>
    (List.range (cdim h vs)).flatMap fun cy => (List.range (cdim w hs)).flatMap fun cx =>
      storeChroma df cx cy (chroma hs vs cx cy).1 (chroma hs vs cx cy).2

/-- The stores of a YUV-family destination (rule R245). -/
def yuvStores (df : YuvFormat) (w h : Nat) (luma : Nat → Nat → Byte)
    (chroma : Nat → Nat → Nat → Nat → Byte × Byte) : List Store :=
  lumaStores df w h luma ++ chromaStores df w h chroma

/-- The chroma pair of an RGB-family source (rule R241): red, green and blue of the block are averaged,
and the matrix is applied once to the averaged colour. -/
def averagedChroma (cs : ColourStandard) (w h : Nat) (pixel : Nat → Nat → Rgba) (hs vs cx cy : Nat) :
    Byte × Byte :=
  let avg := fun (c : Rgba → Byte) => blockAvg (fun x y => c (pixel x y)) w h hs vs cx cy
  let yuv := forward cs (avg Rgba.r) (avg Rgba.g) (avg Rgba.b)
  (yuv.u, yuv.v)

/-- The stores of a YUV-family destination from RGB pixels, through the forward matrix (rule R241,
45_demosaic.md rule R341). -/
def rgbToYuvStores (cs : ColourStandard) (df : YuvFormat) (w h : Nat) (pixel : Nat → Nat → Rgba) :
    List Store :=
  yuvStores df w h
    (fun x y => (forward cs (pixel x y).r (pixel x y).g (pixel x y).b).y)
    (averagedChroma cs w h pixel)

/-- The chroma pair of a YUV-family source, the matrix bypassed (rule R242). -/
def bypassedChroma (w h : Nat) (pixel : Nat → Nat → Yuv) (hs vs cx cy : Nat) : Byte × Byte :=
  (blockAvg (fun x y => (pixel x y).u) w h hs vs cx cy,
   blockAvg (fun x y => (pixel x y).v) w h hs vs cx cy)

/-! ### The forms -/

/-- `CONVERT.YR` on legal formats (rule R240): unpack, inverse matrix, pack with alpha 255. -/
def convertYR (sf : YuvFormat) (df : RgbFormat) (cs : ColourStandard) (s : State) :
    Host.Outcome State Fault Refusal :=
  let w := imageWidth s.latch
  let h := imageHeight s.latch
  runData .convert (yuvGeom sf w h) (rgbGeom df w h)
    (fun srcs => rgbStores df w h fun x y =>
      let p := unpackYuv sf s.mem srcs x y
      inverse cs p.y p.u p.v) s

/-- `CONVERT.RY` on legal formats (rule R241). -/
def convertRY (sf : RgbFormat) (df : YuvFormat) (cs : ColourStandard) (s : State) :
    Host.Outcome State Fault Refusal :=
  let w := imageWidth s.latch
  let h := imageHeight s.latch
  runData .convert (rgbGeom sf w h) (yuvGeom df w h)
    (fun srcs => rgbToYuvStores cs df w h (unpackRgb sf s.mem srcs)) s

/-- `CONVERT.YY` on legal formats (rule R242). -/
def convertYY (sf df : YuvFormat) (s : State) : Host.Outcome State Fault Refusal :=
  let w := imageWidth s.latch
  let h := imageHeight s.latch
  runData .convert (yuvGeom sf w h) (yuvGeom df w h)
    (fun srcs => yuvStores df w h (fun x y => (unpackYuv sf s.mem srcs x y).y)
      (bypassedChroma w h (unpackYuv sf s.mem srcs))) s

/-- `CONVERT.RR` on legal formats (rule R243). -/
def convertRR (sf df : RgbFormat) (s : State) : Host.Outcome State Fault Refusal :=
  let w := imageWidth s.latch
  let h := imageHeight s.latch
  runData .convert (rgbGeom sf w h) (rgbGeom df w h)
    (fun srcs => rgbStores df w h (unpackRgb sf s.mem srcs)) s

/-- `CONVERT.YR` (rule R240); a format code outside the legal sets raises IllegalCommand cause 3 or 4
(30_encoding.md rule R101). -/
def execConvertYR (sfmt dfmt : PixelFormat) (cs : ColourStandard) (s : State) :
    Host.Outcome State Fault Refusal :=
  match sfmt, dfmt with
  | .yuv sf, .rgb df => convertYR sf df cs s
  | .yuv _, _ => raiseIllegal .badDestFormat s
  | _, _ => raiseIllegal .badSourceFormat s

/-- `CONVERT.RY` (rule R241). -/
def execConvertRY (sfmt dfmt : PixelFormat) (cs : ColourStandard) (s : State) :
    Host.Outcome State Fault Refusal :=
  match sfmt, dfmt with
  | .rgb sf, .yuv df => convertRY sf df cs s
  | .rgb _, _ => raiseIllegal .badDestFormat s
  | _, _ => raiseIllegal .badSourceFormat s

/-- `CONVERT.YY` (rule R242). -/
def execConvertYY (sfmt dfmt : PixelFormat) (s : State) : Host.Outcome State Fault Refusal :=
  match sfmt, dfmt with
  | .yuv sf, .yuv df => convertYY sf df s
  | .yuv _, _ => raiseIllegal .badDestFormat s
  | _, _ => raiseIllegal .badSourceFormat s

/-- `CONVERT.RR` (rule R243). -/
def execConvertRR (sfmt dfmt : PixelFormat) (s : State) : Host.Outcome State Fault Refusal :=
  match sfmt, dfmt with
  | .rgb sf, .rgb df => convertRR sf df s
  | .rgb _, _ => raiseIllegal .badDestFormat s
  | _, _ => raiseIllegal .badSourceFormat s

end Sys2Proof.Machine
end

