-- ==== Sys2Proof/Machine/Demosaic.lean ====
section
/-! DEFINITION. DEMOSAIC (45_demosaic.md): the colour map (R332), the interpolation (R333 to R336) and the
two forms (R340, R341). -/

namespace Sys2Proof.Machine

/-! ### The colour map -/

/-- `Role(x, y)` (rule R332): the colour of the sample, by the parities of its position. -/
def sampleRole (f : BayerFormat) (x y : Nat) : SampleRole :=
  match f, x % 2 == 1, y % 2 == 1 with
  | .rggb, false, false => .red
  | .rggb, true, false => .green
  | .rggb, false, true => .green
  | .rggb, true, true => .blue
  | .bggr, false, false => .blue
  | .bggr, true, false => .green
  | .bggr, false, true => .green
  | .bggr, true, true => .red
  | .grbg, false, false => .green
  | .grbg, true, false => .red
  | .grbg, false, true => .blue
  | .grbg, true, true => .green
  | .gbrg, false, false => .green
  | .gbrg, true, false => .blue
  | .gbrg, false, true => .red
  | .gbrg, true, true => .green

/-- `RowColour(x, y)` of a green position, `Role(x ^ 1, y)` (rule R332). -/
def rowColour (f : BayerFormat) (x y : Nat) : SampleRole :=
  sampleRole f (x ^^^ 1) y

/-! ### Interpolation -/

/-- The horizontal neighbours (rule R333). -/
def horNeighbours (x y : Nat) : List (Int × Int) :=
  [((x : Int) - 1, (y : Int)), ((x : Int) + 1, (y : Int))]

/-- The vertical neighbours (rule R333). -/
def verNeighbours (x y : Nat) : List (Int × Int) :=
  [((x : Int), (y : Int) - 1), ((x : Int), (y : Int) + 1)]

/-- The orthogonal neighbours (rule R333). -/
def orthNeighbours (x y : Nat) : List (Int × Int) :=
  horNeighbours x y ++ verNeighbours x y

/-- The diagonal neighbours (rule R333). -/
def diagNeighbours (x y : Nat) : List (Int × Int) :=
  [((x : Int) - 1, (y : Int) - 1), ((x : Int) + 1, (y : Int) - 1),
   ((x : Int) - 1, (y : Int) + 1), ((x : Int) + 1, (y : Int) + 1)]

/-- The positions of a list that lie inside a `w` × `h` image (rule R333). -/
def insideImage (w h : Nat) (ps : List (Int × Int)) : List (Int × Int) :=
  ps.filter fun p => decide (0 ≤ p.1 ∧ p.1 < w ∧ 0 ≤ p.2 ∧ p.2 < h)

/-- `AvgAvail(P)` (rule R333): the truncated mean of the samples at the positions inside the image. -/
def avgAvail (sample : Nat → Nat → Byte) (w h : Nat) (ps : List (Int × Int)) : Byte :=
  let q := insideImage w h ps
  BitVec.ofNat 8 ((q.map fun p => (sample p.1.toNat p.2.toNat).toNat).sum / q.length)

/-- `SrcPix(x, y)` of a mosaic (rules R334 to R336), alpha 255. -/
def bayerPixel (f : BayerFormat) (sample : Nat → Nat → Byte) (w h x y : Nat) : Rgba :=
  let avg := avgAvail sample w h
  match sampleRole f x y with
  | .red => ⟨sample x y, avg (orthNeighbours x y), avg (diagNeighbours x y), 255⟩
  | .blue => ⟨avg (diagNeighbours x y), avg (orthNeighbours x y), sample x y, 255⟩
  | .green =>
    if rowColour f x y = .red then
      ⟨avg (horNeighbours x y), sample x y, avg (verNeighbours x y), 255⟩
    else
      ⟨avg (verNeighbours x y), sample x y, avg (horNeighbours x y), 255⟩

/-! ### The forms -/

/-- `M(x, y)` (rule R331). -/
def mosaicSample (m : Memory) (srcs : List Plane) (x y : Nat) : Byte :=
  (planeAt srcs 0).byte m y x

/-- `DEMOSAIC.R` on legal formats (rule R340). -/
def demosaicR (bf : BayerFormat) (df : RgbFormat) (s : State) : Host.Outcome State Fault Refusal :=
  let w := imageWidth s.latch
  let h := imageHeight s.latch
  runData .demosaic (bayerGeom w h) (rgbGeom df w h)
    (fun srcs => rgbStores df w h (bayerPixel bf (mosaicSample s.mem srcs) w h)) s

/-- `DEMOSAIC.Y` on legal formats (rule R341). -/
def demosaicY (bf : BayerFormat) (df : YuvFormat) (cs : ColourStandard) (s : State) :
    Host.Outcome State Fault Refusal :=
  let w := imageWidth s.latch
  let h := imageHeight s.latch
  runData .demosaic (bayerGeom w h) (yuvGeom df w h)
    (fun srcs => rgbToYuvStores cs df w h (bayerPixel bf (mosaicSample s.mem srcs) w h)) s

/-- `DEMOSAIC.R` (rule R340); a format code outside the legal sets raises IllegalCommand cause 3 or 4
(30_encoding.md rule R101). -/
def execDemosaicR (sfmt dfmt : PixelFormat) (s : State) : Host.Outcome State Fault Refusal :=
  match sfmt, dfmt with
  | .bayer bf, .rgb df => demosaicR bf df s
  | .bayer _, _ => raiseIllegal .badDestFormat s
  | _, _ => raiseIllegal .badSourceFormat s

/-- `DEMOSAIC.Y` (rule R341). -/
def execDemosaicY (sfmt dfmt : PixelFormat) (cs : ColourStandard) (s : State) :
    Host.Outcome State Fault Refusal :=
  match sfmt, dfmt with
  | .bayer bf, .yuv df => demosaicY bf df cs s
  | .bayer _, _ => raiseIllegal .badDestFormat s
  | _, _ => raiseIllegal .badSourceFormat s

end Sys2Proof.Machine
end

