-- ==== Sys2Proof/Machine/Rotate.lean ====
section
/-! DEFINITION. ROTATE and ROTATE_UV (44_rotate.md): the placement map (R303) and the eight forms (R310 to
R313, R320 to R323). -/

namespace Sys2Proof.Machine

/-- The placement map `P_ROT` (rule R303): the destination column and row of source position `(x, y)` of
a `w` × `h` plane. -/
def place (rot : Rotation) (w h x y : Nat) : Nat × Nat :=
  match rot with
  | .r0 => (x, y)
  | .r90 => (h - 1 - y, x)
  | .r180 => (w - 1 - x, h - 1 - y)
  | .r270 => (y, w - 1 - x)

/-- The stores of ROTATE (rules R310 to R313): each source byte at its place. -/
def rotateStores (rot : Rotation) (w h : Nat) (sample : Nat → Nat → Byte) : List Store :=
  (List.range h).flatMap fun y => (List.range w).map fun x =>
    let cr := place rot w h x y
    ⟨0, cr.2, cr.1, sample x y⟩

/-- The stores of ROTATE_UV (rules R320 to R323): byte 0 of each element to slot 0, byte 1 to slot 1. -/
def rotateUVStores (rot : Rotation) (w h : Nat) (sample : Nat → Nat → Nat → Byte) : List Store :=
  (List.range h).flatMap fun y => (List.range w).flatMap fun x =>
    let cr := place rot w h x y
    [⟨0, cr.2, cr.1, sample x y 0⟩, ⟨1, cr.2, cr.1, sample x y 1⟩]

/-- ROTATE by one of the four angles (rules R301, R302). -/
def runRotate (rot : Rotation) (s : State) : Host.Outcome State Fault Refusal :=
  let w := imageWidth s.latch
  let h := imageHeight s.latch
  runData .rotate [⟨w, h⟩] [rotatedGeom rot w h]
    (fun srcs => rotateStores rot w h fun x y => (planeAt srcs 0).byte s.mem y x) s

/-- ROTATE_UV by one of the four angles (rules R301, R302). -/
def runRotateUV (rot : Rotation) (s : State) : Host.Outcome State Fault Refusal :=
  let w := imageWidth s.latch
  let h := imageHeight s.latch
  runData .rotateUV [⟨2 * w, h⟩] [rotatedGeom rot w h, rotatedGeom rot w h]
    (fun srcs => rotateUVStores rot w h fun x y e => (planeAt srcs 0).byte s.mem y (2 * x + e)) s

/-- `ROTATE.0` (rule R310). -/
def execRotate0 (s : State) : Host.Outcome State Fault Refusal := runRotate .r0 s

/-- `ROTATE.90` (rule R311). -/
def execRotate90 (s : State) : Host.Outcome State Fault Refusal := runRotate .r90 s

/-- `ROTATE.180` (rule R312). -/
def execRotate180 (s : State) : Host.Outcome State Fault Refusal := runRotate .r180 s

/-- `ROTATE.270` (rule R313). -/
def execRotate270 (s : State) : Host.Outcome State Fault Refusal := runRotate .r270 s

/-- `ROTATE_UV.0` (rule R320). -/
def execRotateUV0 (s : State) : Host.Outcome State Fault Refusal := runRotateUV .r0 s

/-- `ROTATE_UV.90` (rule R321). -/
def execRotateUV90 (s : State) : Host.Outcome State Fault Refusal := runRotateUV .r90 s

/-- `ROTATE_UV.180` (rule R322). -/
def execRotateUV180 (s : State) : Host.Outcome State Fault Refusal := runRotateUV .r180 s

/-- `ROTATE_UV.270` (rule R323). -/
def execRotateUV270 (s : State) : Host.Outcome State Fault Refusal := runRotateUV .r270 s

end Sys2Proof.Machine
end

