-- ==== Sys2Proof/Machine/Scale.lean ====
section
/-! DEFINITION. SCALE (43_scale.md): the steps and positions (R273, R274), the blend (R275), the box
kernels (R276), the path (R277) and the three forms (R280 to R282). -/

namespace Sys2Proof.Machine

/-! ### Coordinate stepping -/

/-- The 16.16 step `(srcSize << 16) div dstSize` (rule R273), the exact quotient rounded down. -/
def scaleStep (srcSize dstSize : Nat) : Nat := srcSize * 2 ^ Config.fracBits / dstSize

/-- The integer part of position `j * step` (rule R274). -/
def scaleIndex (step j : Nat) : Nat := j * step / 2 ^ Config.fracBits

/-- The blend weight of position `j * step`, the top 8 bits of its fraction (rule R274). -/
def scaleWeight (step j : Nat) : Nat :=
  j * step / 2 ^ (Config.fracBits - Config.weightBits) % 2 ^ Config.weightBits

/-- The neighbour of an index, clamped to the last column or row (rule R274). -/
def scaleNext (i size : Nat) : Nat := min (i + 1) (size - 1)

/-- `Blend(a, b, f)` (rule R275), truncated. -/
def blend (a b : Byte) (f : Nat) : Byte :=
  BitVec.ofNat 8 ((a.toNat * (2 ^ Config.weightBits - f) + b.toNat * f) / 2 ^ Config.weightBits)

/-! ### The box kernels -/

/-- `Box2(j, i, c)` (rule R276). -/
def box2 (sample : Nat → Nat → Nat → Byte) (j i c : Nat) : Byte :=
  BitVec.ofNat 8 (((sample (2 * j) (2 * i) c).toNat + (sample (2 * j + 1) (2 * i) c).toNat
    + (sample (2 * j) (2 * i + 1) c).toNat + (sample (2 * j + 1) (2 * i + 1) c).toNat + 2) / 4)

/-- `Box4(j, i, c)` (rule R276). -/
def box4 (sample : Nat → Nat → Nat → Byte) (j i c : Nat) : Byte :=
  let terms := (List.range 4).flatMap fun b => (List.range 4).map fun a =>
    (sample (4 * j + a) (4 * i + b) c).toNat
  BitVec.ofNat 8 ((terms.sum + 8) / 16)

/-- The path of a filtering command, both axes having the exact ratio (rule R277). With `FILT = 0` the
path is always GENERIC, so SCALE.NONE does not ask. -/
def scalePath (z : ScaleSize) : ScalePath :=
  if z.sw = 2 * z.dw ∧ z.sh = 2 * z.dh then .box2
  else if z.sw = 4 * z.dw ∧ z.sh = 4 * z.dh then .box4
  else .generic

/-! ### The value of a destination byte -/

/-- Point sampling (rule R280). -/
def pointSample (z : ScaleSize) (sample : Nat → Nat → Nat → Byte) (j i c : Nat) : Byte :=
  sample (scaleIndex (scaleStep z.sw z.dw) j) (scaleIndex (scaleStep z.sh z.dh) i) c

/-- Interpolation along rows (rule R281): the row is point-sampled. -/
def linearSample (z : ScaleSize) (sample : Nat → Nat → Nat → Byte) (j i c : Nat) : Byte :=
  let dx := scaleStep z.sw z.dw
  let yi := scaleIndex (scaleStep z.sh z.dh) i
  let xi := scaleIndex dx j
  match scalePath z with
  | .box2 => box2 sample j i c
  | .box4 => box4 sample j i c
  | .generic => blend (sample xi yi c) (sample (scaleNext xi z.sw) yi c) (scaleWeight dx j)

/-- Interpolation along columns, then along rows (rule R282): the vertical blend is truncated to 8 bits
before the horizontal blend uses it. -/
def bilinearSample (z : ScaleSize) (sample : Nat → Nat → Nat → Byte) (j i c : Nat) : Byte :=
  let dx := scaleStep z.sw z.dw
  let dy := scaleStep z.sh z.dh
  let yi := scaleIndex dy i
  let xi := scaleIndex dx j
  let row := fun x => blend (sample x yi c) (sample x (scaleNext yi z.sh) c) (scaleWeight dy i)
  match scalePath z with
  | .box2 => box2 sample j i c
  | .box4 => box4 sample j i c
  | .generic => blend (row xi) (row (scaleNext xi z.sw)) (scaleWeight dx j)

/-! ### The forms -/

/-- `S(x, y, c)` (rule R272): byte `c` of source pixel `(x, y)`. -/
def scaleSource (n : Nat) (m : Memory) (srcs : List Plane) (x y c : Nat) : Byte :=
  (planeAt srcs 0).byte m y (n * x + c)

/-- The stores of a SCALE command: every byte of every destination pixel (rules R272, R280). -/
def scaleStores (n : Nat) (z : ScaleSize) (value : Nat → Nat → Nat → Byte) : List Store :=
  (List.range z.dh).flatMap fun i => (List.range z.dw).flatMap fun j => (List.range n).map fun c =>
    ⟨0, i, n * j + c, value j i c⟩

/-- A SCALE command whose destination byte is given by `filter`; a format SCALE does not accept raises
IllegalCommand cause 3 (rule R271, 30_encoding.md rule R101). -/
def runScale (filter : ScaleSize → (Nat → Nat → Nat → Byte) → Nat → Nat → Nat → Byte)
    (sfmt : PixelFormat) (s : State) : Host.Outcome State Fault Refusal :=
  match scaleBytes sfmt with
  | none => raiseIllegal .badSourceFormat s
  | some n =>
    let z := scaleSize s.latch
    runData .scale (scaleSourceGeom n z) (scaleDestGeom n z)
      (fun srcs => scaleStores n z (filter z (scaleSource n s.mem srcs))) s

/-- `SCALE.NONE` (rule R280). -/
def execScaleNone (sfmt : PixelFormat) (s : State) : Host.Outcome State Fault Refusal :=
  runScale pointSample sfmt s

/-- `SCALE.LINEAR` (rule R281). -/
def execScaleLinear (sfmt : PixelFormat) (s : State) : Host.Outcome State Fault Refusal :=
  runScale linearSample sfmt s

/-- `SCALE.BILINEAR` (rule R282). -/
def execScaleBilinear (sfmt : PixelFormat) (s : State) : Host.Outcome State Fault Refusal :=
  runScale bilinearSample sfmt s

end Sys2Proof.Machine
end

