-- ==== Sys2Proof/Machine/Sequencing.lean ====
section
/-! DEFINITION. The END command (40_sequencing.md rule R140). -/

namespace Sys2Proof.Machine

/-- `END` (rule R140): the list ends; `DPC` advances, `DONE` is set, `BUSY` cleared. -/
def execEnd (s : State) : Host.Outcome State Fault Refusal :=
  .next (endRun s)

end Sys2Proof.Machine
end

