-- ==== Sys2Proof/Machine/Dispatch.lean ====
section
/-! DEFINITION. The execution of each of the eighteen forms (30_encoding.md rule R100), one arm each. -/

namespace Sys2Proof.Machine

def exec (i : Instr) (s : State) : Host.Outcome State Fault Refusal :=
  match i with
  | .endList => Sys2Proof.Machine.execEnd s
  | .convertYR sfmt dfmt cs => Sys2Proof.Machine.execConvertYR sfmt dfmt cs s
  | .convertRY sfmt dfmt cs => Sys2Proof.Machine.execConvertRY sfmt dfmt cs s
  | .convertYY sfmt dfmt => Sys2Proof.Machine.execConvertYY sfmt dfmt s
  | .convertRR sfmt dfmt => Sys2Proof.Machine.execConvertRR sfmt dfmt s
  | .scaleNone sfmt => Sys2Proof.Machine.execScaleNone sfmt s
  | .scaleLinear sfmt => Sys2Proof.Machine.execScaleLinear sfmt s
  | .scaleBilinear sfmt => Sys2Proof.Machine.execScaleBilinear sfmt s
  | .rotate0 => Sys2Proof.Machine.execRotate0 s
  | .rotate90 => Sys2Proof.Machine.execRotate90 s
  | .rotate180 => Sys2Proof.Machine.execRotate180 s
  | .rotate270 => Sys2Proof.Machine.execRotate270 s
  | .rotateUV0 => Sys2Proof.Machine.execRotateUV0 s
  | .rotateUV90 => Sys2Proof.Machine.execRotateUV90 s
  | .rotateUV180 => Sys2Proof.Machine.execRotateUV180 s
  | .rotateUV270 => Sys2Proof.Machine.execRotateUV270 s
  | .demosaicR sfmt dfmt => Sys2Proof.Machine.execDemosaicR sfmt dfmt s
  | .demosaicY sfmt dfmt cs => Sys2Proof.Machine.execDemosaicY sfmt dfmt cs s

end Sys2Proof.Machine
end

