-- ==== Sys2Proof/Machine/Step.lean ====
section
/-! DEFINITION. One step of the engine (40_sequencing.md rule R130). -/

namespace Sys2Proof.Machine

/-- One step of the engine (rule R130). Idle, it does nothing and changes no state. Running, it fetches
the descriptor at `DPC`, decodes its command word, and executes the form; a word that encodes nothing
raises IllegalCommand. -/
def step (s : State) : Host.Outcome State Fault Refusal :=
  if s.busy then
    match decode s.fetch.latch.cmd with
    | .ok i => exec i s.fetch
    | .error c => raiseIllegal c s.fetch
  else .next s

/-- The state whose next step fetches and runs the descriptor with the low `nbits` bits of `w` and 0 in
every other bit: the 68 bytes at `DPC` hold it, and a START has been accepted (10_state.md rule R31; log
entry 6). -/
def State.withFetchWord (s : State) (nbits w : Nat) : State :=
  startRun (s.withMem (s.mem.writeBytes s.dpc.toNat
    ((List.range Config.descBytes).map (tableByte nbits w))))

end Sys2Proof.Machine
end

