-- ==== Sys2Proof/Machine/Registers.lean ====
section
/-! DEFINITION. The register interface (10_state.md rules R22 to R32): what a host read returns and what a
host write does; the reads of a running engine (70_reset_and_hazards.md rule R410). -/

namespace Sys2Proof.Machine

/-- An access the register space defines: 4 bytes wide, at a multiple of 4 (rule R22). -/
def registerAccessOk (size offset : Nat) : Bool :=
  size == 4 && offset % 4 == 0

/-- The value of the register at an offset (rules R23 to R29); reserved offsets read 0. -/
def registerValue (offset : Nat) (s : State) : Word :=
  if offset = 0x00 then Config.idValue
  else if offset = 0x04 then s.ctrlWord
  else if offset = 0x08 then s.statusWord
  else if offset = 0x0C then s.dpc
  else if 0x40 ≤ offset ∧ offset ≤ 0x80 then s.latch.word ((offset - 0x40) / 4)
  else 0

/-- The moments of a run from `s`, in order: before a command, with its descriptor latched, before the
next command, and so on; the last one is that of the stopped engine, or of a command that the model gives
no meaning, in flight. -/
def momentAhead : Nat → State → State
  | 0, s => s
  | 1, s => if s.busy then s.fetch else s
  | n + 2, s =>
    if s.busy then
      match step s with
      | .next t => momentAhead n t
      | .fault _ | .refused _ => s.fetch
    else s

/-- `DPC` and the windows `D0` to `D16`, the registers whose value during a run belongs to the command in
flight (70_reset_and_hazards.md rule R410). -/
def isInspectionWindow (offset : Nat) : Bool :=
  offset == 0x0C || (decide (0x40 ≤ offset) && decide (offset ≤ 0x80))

/-- A host read of a register: no side effect, served at any time (rules R22, R30). A read of `DPC` or of
a D window while the engine runs returns a value the engine held at some moment during the read
(70_reset_and_hazards.md rule R410, U16): `moment`, a free argument, counts the moments the engine has
passed since the read began (log entry 10). On an idle engine it makes no difference. -/
def readRegister (size offset moment : Nat) (s : State) : Except Refusal Word :=
  if registerAccessOk size offset then
    .ok (registerValue offset (if isInspectionWindow offset then momentAhead moment s else s))
  else .error .badRegisterAccess

/-- A write of `CTRL` (rule R25): bit 1 is stored to `IE`, then bit 0 performs the START action. -/
def writeCtrl (v : Word) (s : State) : State :=
  let s' := s.withIe (v.getLsbD 1)
  if v.getLsbD 0 then startRequest s' else s'

/-- A write of `STATUS` (rule R32), write 1 to clear: bit 1 clears `DONE`, bit 2 clears `ERR`, `ECODE`
and `ECAUSE`. -/
def writeStatus (v : Word) (s : State) : State :=
  let s' := if v.getLsbD 1 then clearDone s else s
  if v.getLsbD 2 then clearError s' else s'

/-- What a write does while the engine is idle: read-only and reserved offsets change nothing (rules
R23, R29). -/
def writeIdle (offset : Nat) (v : Word) (s : State) : State :=
  if offset = 0x04 then writeCtrl v s
  else if offset = 0x08 then writeStatus v s
  else if offset = 0x0C then s.withDpc v
  else s

/-- A host write of a register; while `BUSY = 1` it is ignored as a whole (rule R30). -/
def writeRegister (size offset : Nat) (v : Word) (s : State) : Host.Outcome State Fault Refusal :=
  if registerAccessOk size offset then .next (if s.busy then s else writeIdle offset v s)
  else .refused .badRegisterAccess

end Sys2Proof.Machine
end

