-- ==== Sys2Proof/Machine/HostAgent.lean ====
section
/-! DEFINITION. The host agent (00_scope.md rule R5): its accesses to data memory (10_state.md rule R35,
70_reset_and_hazards.md rule R410), the reset input (R400), and the interleaving of host and engine. -/

namespace Sys2Proof.Machine

/-! ### The footprints of the commands still to complete -/

/-- The source and destination planes of the command that the next step runs; none when it decodes to no
command or an argument check fails, since such a command "reads only its descriptor footprint and
writes nothing" (20_memory.md rule R66). -/
def pendingPlanes (s : State) : List Plane × List Plane :=
  let d := s.fetch.latch
  match decode d.cmd with
  | .error _ => ([], [])
  | .ok i =>
    if i.wellFormed && (instrArgFault i d).isNone then
      (sourcePlanes d (sourceGeom i d), destPlanes d (destGeom i d))
    else ([], [])

/-- The descriptor footprint (20_memory.md rule R65). -/
def descriptorSpan (s : State) : Span := ⟨s.dpc.toNat, Config.descBytes⟩

/-- The runs that the host must not write while the next command is pending: its descriptor footprint,
its read footprint and its write footprint (rule R410). -/
def writeHazards (s : State) : List Span :=
  descriptorSpan s :: ((pendingPlanes s).1 ++ (pendingPlanes s).2).flatMap Plane.spans

/-- The runs that the host must not read expecting a defined value while the next command is pending: its
write footprint (rule R410). -/
def readHazards (s : State) : List Span :=
  (pendingPlanes s).2.flatMap Plane.spans

/-- What the run ahead is known to be: the engine's state before a command, and the runs of addresses whose
content the spec leaves unspecified by then, because a command whose footprint precondition fails wrote
them (20_memory.md rule R68) or because a later command computed them from such bytes. The bytes that
`state` holds there mean nothing. -/
structure Outlook where
  state : State
  unknown : List Span
deriving DecidableEq, Repr

/-- Some run of one list shares an address with some run of the other. -/
def spansMeet (xs ys : List Span) : Bool :=
  xs.any fun x => ys.any fun y => !x.disjoint y

/-- The outlook after the next command. The engine does not check the footprint precondition (20_memory.md
rule R68): it goes on past a command whose precondition fails, of which only the content of the write
footprint is unspecified. -/
def Outlook.next (o : Outlook) : Outlook :=
  let reads := (pendingPlanes o.state).1.flatMap Plane.spans
  let writes := (pendingPlanes o.state).2.flatMap Plane.spans
  let spoilt := o.unknown ++ writes.filter fun w => !o.unknown.contains w
  match step o.state with
  | .next t => ⟨t, if spansMeet reads o.unknown then spoilt else o.unknown⟩
  | .fault _ | .refused _ => ⟨o.state.fetch.advance, spoilt⟩

/-- The descriptor words that the command at `DPC` consults: `W0`, and the operands its form uses
(30_encoding.md rules R97 to R99). -/
def consultedWords (d : Descriptor) : List Nat :=
  match decode d.cmd with
  | .error _ => [0]
  | .ok i =>
    match i.wellFormed, commandClass i with
    | true, some cls =>
      [0, 1, 2] ++ (if cls = .scale then [3, 4] else [])
        ++ (List.range (sourceGeom i d).length).flatMap (fun k => [5 + 2 * k, 6 + 2 * k])
        ++ (List.range (destGeom i d).length).flatMap (fun k => [11 + 2 * k, 12 + 2 * k])
    | _, _ => [0]

/-- The next command is determined: the words it consults hold no unspecified byte. `W0` is asked first,
since the others follow from it. -/
def Outlook.determined (o : Outlook) : Bool :=
  let word := fun (k : Nat) => (⟨o.state.dpc.toNat + 4 * k, 4⟩ : Span)
  !spansMeet [word 0] o.unknown && !spansMeet ((consultedWords o.state.fetch.latch).map word) o.unknown

/-- Nothing new lies ahead: the engine has stopped, or the run repeats from here on. -/
def Outlook.settled (seen : List Outlook) (o : Outlook) : Bool :=
  !o.state.busy || seen.contains o

/-- The runs of all the commands still to complete, followed for at most `bound` commands until the list
stops or repeats; none when that takes more of them, or when a command to be fetched is not determined, so
that the list itself is unspecified from there on (log entry 8). -/
def runHazards (hazards : State → List Span) : Nat → List Outlook → Outlook → Option (List Span)
  | 0, seen, o => if o.settled seen then some [] else none
  | n + 1, seen, o =>
    if o.settled seen then some []
    else if o.determined then (runHazards hazards n (o :: seen) o.next).map (hazards o.state ++ ·)
    else none

/-- The bytes `a`, …, `a + n - 1` lie outside all the runs. -/
def outside (spans : List Span) (a : Int) (n : Nat) : Bool :=
  spans.all fun sp => sp.disjoint ⟨a, n⟩

/-- A host access to the `n` bytes from `a` is allowed: always while the engine is idle (10_state.md rule
R35); while it runs, outside the footprints of the commands still to complete (rule R410), which are found
within `bound` commands (log entry 8). -/
def hostAccessOk (hazards : State → List Span) (bound : Nat) (a : Int) (n : Nat) (s : State) : Bool :=
  match runHazards hazards bound [] ⟨s, []⟩ with
  | some spans => outside spans a n
  | none => false

/-- A host read of `n` bytes of data memory. -/
def hostLoad (bound : Nat) (a : Int) (n : Nat) (s : State) : Except Refusal Nat :=
  if hostAccessOk readHazards bound a n s then .ok (s.mem.read a n) else .error .hostHazard

/-- A host write of `n` bytes of data memory. -/
def hostStore (bound : Nat) (a : Int) (n v : Nat) (s : State) : Host.Outcome State Fault Refusal :=
  if hostAccessOk writeHazards bound a n s then .next (s.withMem (s.mem.write a n v))
  else .refused .hostHazard

/-! ### The reset input -/

/-- The registers after a reset (rule R400): the control and status bits and `DPC` are 0. `latch` is what
`D0` to `D16` hold, which the rule leaves unspecified (log entry 9). -/
def resetRegisters (latch : Descriptor) (m : Memory) : State :=
  { State.reset with latch := latch, mem := m }

/-- The address lies in one of the planes. -/
def inPlanes (ps : List Plane) (a : Nat) : Bool :=
  (ps.flatMap Plane.spans).any fun sp => sp.covers a

/-- The reset input (rule R400). Memory is not touched, except that a reset while `BUSY = 1` abandons the
command in flight: bytes of its write footprint may then hold anything. `torn` lists the bytes it left
changed; entries outside that footprint are dropped. Both arguments are free (log entry 9). -/
def resetInput (latch : Descriptor) (torn : List Host.Cell) (s : State) : State :=
  if s.busy then
    resetRegisters latch ((torn.filter fun c => inPlanes (pendingPlanes s).2 c.1).foldl
      (fun m c => m.store (c.1 % Config.memBytes) c.2) s.mem)
  else resetRegisters latch s.mem

/-! ### Actions -/

/-- What the host, or the reset input, does between two steps of the engine. -/
inductive HostAction where
  /-- A register read of `size` bytes at `offset`, with the moment its value belongs to; the value is
  `readRegister`. -/
  | readReg (size offset moment : Nat)
  /-- A register write. -/
  | writeReg (size offset : Nat) (v : Word)
  /-- A read of `n` bytes of memory; its value is `hostLoad`. -/
  | readMem (bound : Nat) (a : Int) (n : Nat)
  /-- A write of `n` bytes of memory. -/
  | writeMem (bound : Nat) (a : Int) (n v : Nat)
  /-- The reset input, with the latch content and the torn bytes it leaves. -/
  | reset (latch : Descriptor) (torn : List Host.Cell)
deriving DecidableEq, Repr

/-- One host action. Reads change nothing (10_state.md rule R22, 20_memory.md rule R60). -/
def hostAct (h : HostAction) (s : State) : Host.Outcome State Fault Refusal :=
  match h with
  | .readReg size offset moment =>
    match readRegister size offset moment s with
    | .ok _ => .next s
    | .error r => .refused r
  | .writeReg size offset v => writeRegister size offset v s
  | .readMem bound a n =>
    match hostLoad bound a n s with
    | .ok _ => .next s
    | .error r => .refused r
  | .writeMem bound a n v => hostStore bound a n v s
  | .reset latch torn => .next (resetInput latch torn s)

/-- An action of either agent (00_scope.md rule R5). -/
inductive Action where
  | engine
  | host (h : HostAction)
deriving DecidableEq, Repr

/-- One action: a step of the engine, or a host action. -/
def act (a : Action) (s : State) : Host.Outcome State Fault Refusal :=
  match a with
  | .engine => step s
  | .host h => hostAct h s

/-- The actions of a list one after the other, up to the first refusal. -/
def actAll : List Action → State → Host.Outcome State Fault Refusal
  | [], s => .next s
  | a :: rest, s =>
    match act a s with
    | .next t => actAll rest t
    | .fault f => .fault f
    | .refused r => .refused r

end Sys2Proof.Machine
end

