-- ==== Sys2Proof/Safety.lean ====
section
/-! DEFINITION. The terms claims are stated in: the preconditions of a command as the rules give them
(40_sequencing.md R134, 20_memory.md R65, R68), the bytes of its planes, what a completed command
leaves unchanged (R138), and the invariant of the machine (10_state.md R26, R27, 60_exceptions.md R361
to R363). -/

namespace Sys2Proof.Machine

/-! ### Planes and footprints of a command -/

/-- The normalised source planes of a form (rules R136, R137). -/
def readPlanes (i : Instr) (d : Descriptor) : List Plane := sourcePlanes d (sourceGeom i d)

/-- The destination planes of a form (rules R136, R137). -/
def writePlanes (i : Instr) (d : Descriptor) : List Plane := destPlanes d (destGeom i d)

/-- `(k, y, off)` is a position of the planes: byte `off` of row `y` of the plane in slot `k`. -/
def IsPosition (ps : List Plane) (k y off : Nat) : Prop :=
  k < ps.length ∧ y < (planeAt ps k).rows ∧ off < (planeAt ps k).rb

/-- The address belongs to the planes' footprint, the union of their `PlaneSet`s (rule R65). -/
def InFootprint (ps : List Plane) (a : Nat) : Prop :=
  ∃ k y off, IsPosition ps k y off ∧ (planeAt ps k).addr y off = a

/-- The footprint precondition (rule R68): no two destination positions share an address, and the write
footprint is disjoint from the read footprint. -/
def FootprintPrecondition (reads writes : List Plane) : Prop :=
  (∀ k y off k' y' off', IsPosition writes k y off → IsPosition writes k' y' off' →
    (planeAt writes k).addr y off = (planeAt writes k').addr y' off' →
    k = k' ∧ y = y' ∧ off = off')
  ∧ ∀ a, InFootprint writes a → ¬ InFootprint reads a

/-- The byte at a position of source slot `k` of a command, as it walks the plane. -/
def sourceByte (i : Instr) (s : State) (k y off : Nat) : Byte :=
  (planeAt (readPlanes i s.latch) k).byte s.mem y off

/-- The byte that memory `m` holds at a position of destination slot `k` of a command with latch `d`. -/
def destByte (i : Instr) (d : Descriptor) (m : Memory) (k y off : Nat) : Byte :=
  (planeAt (writePlanes i d) k).byte m y off

/-! ### Preconditions of a command -/

/-- Every argument check of rule R134 passes. -/
def ArgsOk (i : Instr) (d : Descriptor) : Prop :=
  (∀ k < (sourceGeom i d).length, srcAddr d k ≠ Config.null)
  ∧ (∀ k < (destGeom i d).length, dstAddr d k ≠ Config.null)
  ∧ 0 < widthOf d ∧ heightOf d ≠ 0
  ∧ (commandClass i = some .scale → 0 < dwidthOf d ∧ 0 < dheightOf d)
  ∧ (commandClass i = some .demosaic → widthOf d % 2 = 0 ∧ heightOf d % 2 = 0)

/-- A data command that the spec gives a result: a legal instance of its form, whose argument checks
pass and whose footprint precondition holds. -/
def Ready (i : Instr) (s : State) : Prop :=
  i ≠ .endList ∧ i.wellFormed = true ∧ ArgsOk i s.latch
  ∧ FootprintPrecondition (readPlanes i s.latch) (writePlanes i s.latch)

/-- What a completed data command leaves as it was: the latch, `IE` and every status bit (rule R138). -/
def SameControl (s t : State) : Prop :=
  t.latch = s.latch ∧ t.ie = s.ie ∧ t.busy = s.busy ∧ t.done = s.done ∧ t.err = s.err
  ∧ t.ecode = s.ecode ∧ t.ecause = s.ecause

/-- The command completes in `t`: `DPC` advances by 68, every other register and flag is unchanged, and
so is every byte outside the write footprint (rules R66, R138, R139). -/
def Completes (i : Instr) (s t : State) : Prop :=
  exec i s = .next t ∧ t.dpc = s.dpc + 68 ∧ SameControl s t
  ∧ ∀ a, ¬ InFootprint (writePlanes i s.latch) a → t.mem.load a = s.mem.load a

/-! ### The checks, read off the bits and the operands -/

/-- The `SFMT` codes rule R99 allows for an opcode, as numbers. -/
def sourceCodeLegal (opc c : Nat) : Prop :=
  (opc = 1 ∧ (1 ≤ c ∧ c ≤ 9 ∨ 16 ≤ c ∧ c ≤ 24))
  ∨ (opc = 2 ∧ (c = 9 ∨ 16 ≤ c ∧ c ≤ 21))
  ∨ (opc = 5 ∧ 32 ≤ c ∧ c ≤ 35)
  ∨ ((opc = 0 ∨ opc = 3 ∨ opc = 4) ∧ c = 0)

/-- The `DFMT` codes rule R99 allows for an opcode, as numbers. -/
def destCodeLegal (opc c : Nat) : Prop :=
  ((opc = 1 ∨ opc = 5) ∧ (1 ≤ c ∧ c ≤ 9 ∨ 16 ≤ c ∧ c ≤ 24))
  ∨ ((opc = 0 ∨ opc = 2 ∨ opc = 3 ∨ opc = 4) ∧ c = 0)

/-- The word `w`, as a number, fails check `c` of rule R101. -/
def FailsCheck (w : Nat) : IllegalCause → Prop
  | .reservedOpcode => 5 < w % 256
  | .reservedBits => w / 2 ^ 25 ≠ 0
  | .badSourceFormat => ¬ sourceCodeLegal (w % 256) (w / 2 ^ 8 % 64)
  | .badDestFormat => ¬ destCodeLegal (w % 256) (w / 2 ^ 14 % 64)
  | .badFilter =>
    (w % 256 ≠ 2 ∧ w / 2 ^ 20 % 4 ≠ 0) ∨ (w % 256 = 2 ∧ w / 2 ^ 20 % 4 = 3)
  | .badRotation => w % 256 ≠ 3 ∧ w % 256 ≠ 4 ∧ w / 2 ^ 22 % 4 ≠ 0
  | .badColourStandard =>
    w / 2 ^ 24 % 2 = 1 ∧
      ¬ ((w % 256 = 1 ∧ w / 2 ^ 12 % 4 ≠ w / 2 ^ 18 % 4) ∨ (w % 256 = 5 ∧ w / 2 ^ 18 % 4 = 0))

/-- `c` is the first check of rule R101, in its order, that the word fails. -/
def FirstFailingCheck (w : Nat) (c : IllegalCause) : Prop :=
  FailsCheck w c ∧ ∀ c', c'.code < c.code → ¬ FailsCheck w c'

/-- The operands of form `i` fail argument check `c` of rule R134. -/
def FailsArgument (i : Instr) (d : Descriptor) : ArgCause → Prop
  | .nullSrc0 => 1 ≤ (sourceGeom i d).length ∧ d.src0Addr = 0
  | .nullSrc1 => 2 ≤ (sourceGeom i d).length ∧ d.src1Addr = 0
  | .nullSrc2 => 3 ≤ (sourceGeom i d).length ∧ d.src2Addr = 0
  | .nullDst0 => d.dst0Addr = 0
  | .nullDst1 => 2 ≤ (destGeom i d).length ∧ d.dst1Addr = 0
  | .nullDst2 => 3 ≤ (destGeom i d).length ∧ d.dst2Addr = 0
  | .widthNotPositive => d.width.toInt ≤ 0
  | .heightZero => d.height.toInt = 0
  | .destWidthNotPositive => commandClass i = some .scale ∧ d.dwidth.toInt ≤ 0
  | .destHeightNotPositive => commandClass i = some .scale ∧ d.dheight.toInt ≤ 0
  | .bayerOddWidth => commandClass i = some .demosaic ∧ d.width.toInt % 2 ≠ 0
  | .bayerOddHeight => commandClass i = some .demosaic ∧ d.height.toInt % 2 ≠ 0

/-- `c` is the first argument check of rule R134, in its order, that the operands fail. -/
def FirstFailingArgument (i : Instr) (d : Descriptor) (c : ArgCause) : Prop :=
  FailsArgument i d c ∧ ∀ c', c'.code < c.code → ¬ FailsArgument i d c'

/-! ### Images -/

/-- The ROTATE form of an angle (30_encoding.md rule R100 rows 9 to 12). -/
def rotateForm : Rotation → Instr
  | .r0 => .rotate0
  | .r90 => .rotate90
  | .r180 => .rotate180
  | .r270 => .rotate270

/-- The ROTATE_UV form of an angle (30_encoding.md rule R100 rows 13 to 16). -/
def rotateUVForm : Rotation → Instr
  | .r0 => .rotateUV0
  | .r90 => .rotateUV90
  | .r180 => .rotateUV180
  | .r270 => .rotateUV270

/-- The angle that undoes another (44_rotate.md rule R324). -/
def inverseAngle : Rotation → Rotation
  | .r0 => .r0
  | .r90 => .r270
  | .r180 => .r180
  | .r270 => .r90

/-- `SrcPix(x, y)` of the YUV-family source of a command. -/
def sourceYuv (i : Instr) (f : YuvFormat) (s : State) (x y : Nat) : Yuv :=
  unpackYuv f s.mem (readPlanes i s.latch) x y

/-- `SrcPix(x, y)` of the RGB-family source of a command. -/
def sourceRgb (i : Instr) (f : RgbFormat) (s : State) (x y : Nat) : Rgba :=
  unpackRgb f s.mem (readPlanes i s.latch) x y

/-- `SrcPix(x, y)` of the Bayer-family source of a command. -/
def sourceBayer (i : Instr) (f : BayerFormat) (s : State) (x y : Nat) : Rgba :=
  bayerPixel f (fun px py => sourceByte i s 0 py px) (imageWidth s.latch) (imageHeight s.latch) x y

/-- After a command, memory `m` holds the packed pixel `p` at position `(x, y)` of the RGB-family
destination image (41_pixel_formats.md rules R204 to R212). -/
def HoldsPixel (i : Instr) (df : RgbFormat) (d : Descriptor) (m : Memory) (x y : Nat) (p : Rgba) : Prop :=
  ∀ n b, (packRgb df p)[n]? = some b → destByte i d m 0 y (rgbBytes df * x + n) = b

/-- Slot and row offset at which the U sample of chroma column `cx` is stored (41_pixel_formats.md rules
R200 to R202). I400 has no chroma; its entry is never used. -/
def chromaPlaceU (f : YuvFormat) (cx : Nat) : Nat × Nat :=
  match f with
  | .i420 | .i422 | .i444 | .i411 => (1, cx)
  | .nv12 => (1, 2 * cx)
  | .nv21 => (1, 2 * cx + 1)
  | .yuy2 => (0, 4 * cx + 1)
  | .uyvy => (0, 4 * cx)
  | .i400 => (0, 0)

/-- Slot and row offset at which the V sample of chroma column `cx` is stored (rules R200 to R202). -/
def chromaPlaceV (f : YuvFormat) (cx : Nat) : Nat × Nat :=
  match f with
  | .i420 | .i422 | .i444 | .i411 => (2, cx)
  | .nv12 => (1, 2 * cx + 1)
  | .nv21 => (1, 2 * cx)
  | .yuy2 => (0, 4 * cx + 3)
  | .uyvy => (0, 4 * cx + 2)
  | .i400 => (0, 0)

/-- After a command, memory `m` holds the luma `luma (min x (w - 1)) y` at every luma position of the
YUV-family destination image, the padding position of YUY2 and UYVY among them (42_convert.md rules
R245, R246). -/
def HoldsLuma (i : Instr) (df : YuvFormat) (d : Descriptor) (m : Memory) (luma : Nat → Nat → Byte) : Prop :=
  ∀ x y, x < lumaWidth df (imageWidth d) → y < imageHeight d →
    destByte i d m 0 y (lumaOffset df x) = luma (min x (imageWidth d - 1)) y

/-- After a command, memory `m` holds the chroma pair `(u, v) = chroma hs vs cx cy` at every chroma
position of the YUV-family destination image (42_convert.md rule R245). -/
def HoldsChroma (i : Instr) (df : YuvFormat) (d : Descriptor) (m : Memory)
    (chroma : Nat → Nat → Nat → Nat → Byte × Byte) : Prop :=
  ∀ hs vs, subsampling df = some (hs, vs) →
    ∀ cx cy, cx < cdim (imageWidth d) hs → cy < cdim (imageHeight d) vs →
      destByte i d m (chromaPlaceU df cx).1 cy (chromaPlaceU df cx).2 = (chroma hs vs cx cy).1
      ∧ destByte i d m (chromaPlaceV df cx).1 cy (chromaPlaceV df cx).2 = (chroma hs vs cx cy).2

/-- The byte is within 1 of the real value `num / 1000000`, rounded to a nearest integer and clamped to
0..255 (42_convert.md rules R232, R238); where two integers are nearest, of either. -/
def NearReference (num : Int) (b : Byte) : Prop :=
  ∀ n : Int, 2 * |1000000 * n - num| ≤ 1000000 → |(b.toNat : Int) - max 0 (min 255 n)| ≤ 1

/-! ### The invariant -/

/-- At most one of `BUSY`, `DONE` and `ERR` is 1 (10_state.md rule R26). -/
def State.flagsExclusive (s : State) : Prop :=
  ¬ (s.busy = true ∧ s.done = true) ∧ ¬ (s.busy = true ∧ s.err = true)
  ∧ ¬ (s.done = true ∧ s.err = true)

/-- `ECODE` and `ECAUSE` describe the error that set `ERR`, with a class and a cause that the tables of
60_exceptions.md rules R361 to R363 list; with `ERR = 0` both are 0 (10_state.md rule R26). -/
def State.errorRecorded (s : State) : Prop :=
  (s.err = false → s.ecode = 0 ∧ s.ecause = 0)
  ∧ (s.err = true →
      (s.ecode = 1 ∧ 1 ≤ s.ecause.toNat ∧ s.ecause.toNat ≤ 12)
      ∨ (s.ecode = 2 ∧ 1 ≤ s.ecause.toNat ∧ s.ecause.toNat ≤ 7))

/-- The invariant: memory is in its canonical form, `DPC` is a multiple of 4 (rule R27), the flags exclude
each other (rule R26) and the error fields are consistent. -/
def State.Inv (s : State) : Prop :=
  s.mem.wf ∧ s.dpc &&& 3 = 0 ∧ s.flagsExclusive ∧ s.errorRecorded

/-! ### Runs -/

/-- The engine's run from `s` stops within `n` steps in an idle state `t` (40_sequencing.md rule R142). -/
def StopsIn (n : Nat) (s t : State) : Prop :=
  core.run n s = .next t ∧ t.busy = false

end Sys2Proof.Machine
end

