-- ==== Sys2Proof/Certificates/Slice0/Obligations.lean ====
section
/-! DEFINITION. The statements for the provers, from the numbered rules of spec/. -/

open Sys2Proof Sys2Proof.Machine

/-! ### Fetch, decode, checks, the run loop -/

/-- 40_sequencing.md rules R130 to R132: the fetch latches 17 little-endian words from `DPC`, wrapping at the top
of memory, and changes nothing else; a running engine whose descriptor decodes to a legal instruction does
what that instruction does from the fetched state; an idle engine does nothing. -/
def Obligations.StepRunsDecodedCommand : Prop :=
  ∀ s : State,
    (∀ i, i < 17 → (s.fetch.latch.word i).toNat =
      ∑ j ∈ Finset.range 4, (s.mem.load ((s.dpc.toNat + 4 * i + j) % 2 ^ 32)).toNat * 256 ^ j)
    ∧ s.fetch = { s with latch := s.fetch.latch }
    ∧ (∀ i, s.busy = true → decode (s.fetch.latch.word 0) = .ok i → i.wellFormed = true →
      step s = exec i s.fetch)
    ∧ (s.busy = false → step s = .next s)

/-- 30_encoding.md rules R90 to R97, R100: a legal instruction with any operands, laid out in memory at
`DPC` as 68 little-endian bytes, is fetched and decoded as that instruction with those operands, and a
running engine executes it. -/
def Obligations.DecodeEncodeRoundTrip : Prop :=
  ∀ (i : Instr) (operands : Descriptor) (s : State),
    i.wellFormed = true →
    (∀ k, k < 68 → s.mem.load ((s.dpc.toNat + k) % 2 ^ 32)
      = BitVec.ofNat 8 (((encode i operands).word (k / 4)).toNat / 256 ^ (k % 4))) →
    s.fetch.latch = encode i operands
    ∧ decode s.fetch.latch.cmd = .ok i
    ∧ (s.busy = true → step s = exec i { s with latch := encode i operands })

/-- 30_encoding.md rule R100: no word matches two rows of the opcode map. -/
def Obligations.CommandWordMatchesOneForm : Prop :=
  ∀ (w : Word) (m n : Nat) (rm rn : FormRow),
    formTable[m]? = some rm → formTable[n]? = some rn →
    w &&& rm.mask = rm.pat → w &&& rn.mask = rn.pat → m = n

/-- Words written out field by field from 30_encoding.md rules R91 to R96 decode to the instructions they
stand for; words with a reserved opcode, a reserved bit or an unused field set do not. -/
def Obligations.DecodesWrittenWords : Prop :=
  decode 0x00000000 = .ok .endList
  ∧ decode 0x00040301 = .ok (.convertYR (.yuv .i444) (.rgb .argb) .bt601)
  ∧ decode 0x01041801 = .error .badColourStandard
  ∧ decode 0x01005801 = .ok (.convertRY (.rgb .argb4444) (.yuv .i420) .fullJ)
  ∧ decode 0x00004501 = .ok (.convertYY (.yuv .nv12) (.yuv .i420))
  ∧ decode 0x00059001 = .ok (.convertRR (.rgb .argb) (.rgb .rgb565))
  ∧ decode 0x00000902 = .ok (.scaleNone (.yuv .i400))
  ∧ decode 0x00101402 = .ok (.scaleLinear (.rgb .rgb24))
  ∧ decode 0x00201002 = .ok (.scaleBilinear (.rgb .argb))
  ∧ decode 0x00400003 = .ok .rotate90
  ∧ decode 0x00C00004 = .ok .rotateUV270
  ∧ decode 0x00042005 = .ok (.demosaicR (.bayer .rggb) (.rgb .argb))
  ∧ decode 0x01006305 = .ok (.demosaicY (.bayer .gbrg) (.yuv .i420) .fullJ)
  ∧ decode 0x00000006 = .error .reservedOpcode
  ∧ decode 0x02000000 = .error .reservedBits
  ∧ decode 0x00300902 = .error .badFilter
  ∧ decode 0x00000100 = .error .badSourceFormat

/-- 30_encoding.md rule R101, 40_sequencing.md rule R132, 60_exceptions.md rules R363, R364: a running
engine whose command word fails a check records the cause of the first failing check, changes nothing else
but the latch and stops; a word that fails none is a legal instance of a form, which is executed. The last
clause the spec derives from rules R99 and R100. -/
def Obligations.IllegalWordsRaiseFirstFailingCheck : Prop :=
  ∀ s : State, s.busy = true →
    (∀ c, FirstFailingCheck (s.fetchedWord 0).toNat c →
      step s = .next { s.fetch with err := true, ecode := 2, ecause := c.code, busy := false })
    ∧ ((∀ c, ¬ FailsCheck (s.fetchedWord 0).toNat c) →
      ∃ i, i.wellFormed = true ∧ encodeWord i = s.fetchedWord 0 ∧ step s = exec i s.fetch)

/-- 40_sequencing.md rule R134, 60_exceptions.md rules R362, R364: a legal data command whose operands fail
an argument check records the cause of the first failing check and stops, changing nothing else. -/
def Obligations.InvalidArgumentStopsBeforeAnyWrite : Prop :=
  ∀ (i : Instr) (s : State) (c : ArgCause),
    i ≠ .endList → i.wellFormed = true → FirstFailingArgument i s.latch c →
    exec i s = .next { s with err := true, ecode := 1, ecause := c.code, busy := false }

/-- 60_exceptions.md rules R361 to R364: what error entry writes, that it leaves everything else as it was,
and the numbers of the classes and causes. -/
def Obligations.ErrorEntryAndCodes : Prop :=
  (∀ (e : CommandError) (s : State),
    raise e s = { s with err := true, ecode := e.ecode, ecause := e.ecause, busy := false })
  ∧ (∀ c, (CommandError.invalidArgument c).ecode = 1 ∧ (CommandError.invalidArgument c).ecause = c.code)
  ∧ (∀ c, (CommandError.illegalCommand c).ecode = 2 ∧ (CommandError.illegalCommand c).ecause = c.code)
  ∧ [ArgCause.nullSrc0, .nullSrc1, .nullSrc2, .nullDst0, .nullDst1, .nullDst2, .widthNotPositive,
      .heightZero, .destWidthNotPositive, .destHeightNotPositive, .bayerOddWidth,
      .bayerOddHeight].map ArgCause.code = [1, 2, 3, 4, 5, 6, 7, 8, 9, 10, 11, 12]
  ∧ [IllegalCause.reservedOpcode, .reservedBits, .badSourceFormat, .badDestFormat, .badFilter,
      .badRotation, .badColourStandard].map IllegalCause.code = [1, 2, 3, 4, 5, 6, 7]

/-- 40_sequencing.md rule R140: END advances `DPC` by 68 modulo `2^32`, sets `DONE`, clears `BUSY` and
changes nothing else; a running engine whose command word is 0 executes it. -/
def Obligations.EndStopsTheRun : Prop :=
  ∀ s : State,
    exec .endList s = .next { s with dpc := s.dpc + 68, done := true, busy := false }
    ∧ (s.busy = true → s.fetchedWord 0 = 0 →
      step s = .next { s.fetch with dpc := s.dpc + 68, done := true, busy := false })

/-- 60_exceptions.md rule R366: after an error, START alone is refused; with `ERR` cleared, starting again
without changing `DPC` or memory fetches the same descriptor and raises the same error. -/
def Obligations.RestartWithoutRepairRaisesSameError : Prop :=
  ∀ (s t : State) (v c : Word),
    s.busy = true → s.err = false → step s = .next t → t.err = true →
    v.getLsbD 2 = true → c.getLsbD 0 = true →
    writeRegister 4 0x04 c t = .next { t with ie := c.getLsbD 1 }
    ∧ ∃ u, actAll [.host (.writeReg 4 0x08 v), .host (.writeReg 4 0x04 c)] t = .next u
      ∧ u.busy = true
      ∧ step u = .next { t with ie := c.getLsbD 1, done := false }

/-- 20_memory.md rule R68, 60_exceptions.md rule R360: a step never faults, and has no meaning exactly when
the engine runs a legal data command whose argument checks pass and whose footprint precondition fails.
That the model answers there with a refusal is its own choice (log entry 3). -/
def Obligations.StepRefusesOnlyFootprint : Prop :=
  ∀ s : State,
    (∀ f, step s ≠ .fault f)
    ∧ ∀ r, step s = .refused r ↔
      r = .footprintPrecondition ∧ s.busy = true
      ∧ ∃ i, decode (s.fetchedWord 0) = .ok i ∧ i ≠ .endList ∧ i.wellFormed = true
        ∧ ArgsOk i s.fetch.latch
        ∧ ¬ FootprintPrecondition (readPlanes i s.fetch.latch) (writePlanes i s.fetch.latch)

/-- 40_sequencing.md rule R142: the state a run stops in has exactly one of `DONE` and `ERR` set. -/
def Obligations.RunEndsDoneOrError : Prop :=
  ∀ (n : Nat) (s t : State), s.Inv → s.busy = true → StopsIn n s t → t.done = !t.err

/-! ### What every data command does -/

/-- 40_sequencing.md rules R138, R139, 20_memory.md rule R66: a legal data command whose argument checks pass
and whose footprint precondition holds completes: `DPC` advances by 68, every other register and flag and
every byte outside the write footprint is unchanged. -/
def Obligations.DataCommandsCompleteWithFrame : Prop :=
  ∀ (i : Instr) (s : State), Ready i s → ∃ t, Completes i s t

/-- 20_memory.md rule R66, 40_sequencing.md rule R138: what a completed command leaves in its write footprint
depends on the latch and on the bytes of its read footprint only: memories that agree there give the same
bytes at every address of the write footprint. -/
def Obligations.ResultDependsOnlyOnReadFootprint : Prop :=
  ∀ (i : Instr) (s s' t : State),
    Ready i s → s'.latch = s.latch →
    (∀ a, InFootprint (readPlanes i s.latch) a → s'.mem.load a = s.mem.load a) →
    exec i s = .next t →
    ∃ t', exec i s' = .next t' ∧
      ∀ a, InFootprint (writePlanes i s.latch) a → t'.mem.load a = t.mem.load a

/-- 20_memory.md rule R65, 40_sequencing.md rules R133, R136, 30_encoding.md rule R90: where the bytes of every
source and destination plane of a command lie, by the named words of its descriptor; a source plane is
walked from its last row up when `HEIGHT` is negative, a destination plane never is. Hence the command with
the negated height over a buffer equals the command with the positive height over the buffer whose rows,
plane by plane, are in reverse order. -/
def Obligations.NegativeHeightIsFlippedSource : Prop :=
  (∀ (i : Instr) (d : Descriptor) (k y off : Nat) (g : Geom),
    let src : List (Word × Word) := [(d.src0Addr, d.src0Stride), (d.src1Addr, d.src1Stride), (d.src2Addr, d.src2Stride)]
    let dst := [(d.dst0Addr, d.dst0Stride), (d.dst1Addr, d.dst1Stride), (d.dst2Addr, d.dst2Stride)]
    (∀ base stride : Word, src[k]? = some (base, stride) → (sourceGeom i d)[k]? = some g →
      let p := planeAt (readPlanes i d) k
      p.rows = g.rows ∧ p.rb = g.rb
      ∧ (0 ≤ d.height.toInt →
        (p.addr y off : Int) = ((base.toNat : Int) + y * stride.toInt + off) % 2 ^ 32)
      ∧ (d.height.toInt < 0 →
        (p.addr y off : Int)
          = ((base.toNat : Int) + ((g.rows : Int) - 1 - y) * stride.toInt + off) % 2 ^ 32))
    ∧ ∀ base stride : Word, dst[k]? = some (base, stride) → (destGeom i d)[k]? = some g →
      let p := planeAt (writePlanes i d) k
      p.rows = g.rows ∧ p.rb = g.rb
      ∧ (p.addr y off : Int) = ((base.toNat : Int) + y * stride.toInt + off) % 2 ^ 32)
  ∧ ∀ (i : Instr) (s s' : State),
    let src := [(s.latch.src0Addr, s.latch.src0Stride), (s.latch.src1Addr, s.latch.src1Stride),
      (s.latch.src2Addr, s.latch.src2Stride)]
    Ready i s → 0 < s.latch.height.toInt →
    s'.latch = { s.latch with height := -s.latch.height } →
    (∀ (k : Nat) (g : Geom) (base stride : Word) (y off : Nat), (sourceGeom i s.latch)[k]? = some g → src[k]? = some (base, stride) →
      y < g.rows → off < g.rb →
      s'.mem.load (address ((base.toNat : Int) + ((g.rows : Int) - 1 - (y : Int)) * stride.toInt + off))
        = s.mem.load (address ((base.toNat : Int) + (y : Int) * stride.toInt + off))) →
    ∃ t t', exec i s = .next t ∧ exec i s' = .next t' ∧
      ∀ a, InFootprint (writePlanes i s.latch) a → t'.mem.load a = t.mem.load a

/-- 41_pixel_formats.md rule R172: the planes of an image in each format, as (row bytes, rows) in slot order,
with every chroma size rounded up; 43_scale.md rule R271: the bytes per pixel of the formats SCALE accepts;
40_sequencing.md rule R137: the source and destination planes of every data command. -/
def Obligations.PlaneGeometryOfEachCommand : Prop :=
  (∀ w h : Nat,
    pixelGeom (.yuv .i420) w h = [⟨w, h⟩, ⟨(w + 1) / 2, (h + 1) / 2⟩, ⟨(w + 1) / 2, (h + 1) / 2⟩]
    ∧ pixelGeom (.yuv .i422) w h = [⟨w, h⟩, ⟨(w + 1) / 2, h⟩, ⟨(w + 1) / 2, h⟩]
    ∧ pixelGeom (.yuv .i444) w h = [⟨w, h⟩, ⟨w, h⟩, ⟨w, h⟩]
    ∧ pixelGeom (.yuv .i411) w h = [⟨w, h⟩, ⟨(w + 3) / 4, h⟩, ⟨(w + 3) / 4, h⟩]
    ∧ (∀ f, f = .nv12 ∨ f = .nv21 →
        pixelGeom (.yuv f) w h = [⟨w, h⟩, ⟨2 * ((w + 1) / 2), (h + 1) / 2⟩])
    ∧ (∀ f, f = .yuy2 ∨ f = .uyvy → pixelGeom (.yuv f) w h = [⟨4 * ((w + 1) / 2), h⟩])
    ∧ pixelGeom (.yuv .i400) w h = [⟨w, h⟩]
    ∧ (∀ f, f = .argb ∨ f = .bgra ∨ f = .abgr ∨ f = .rgba → pixelGeom (.rgb f) w h = [⟨4 * w, h⟩])
    ∧ (∀ f, f = .rgb24 ∨ f = .raw → pixelGeom (.rgb f) w h = [⟨3 * w, h⟩])
    ∧ (∀ f, f = .rgb565 ∨ f = .argb1555 ∨ f = .argb4444 → pixelGeom (.rgb f) w h = [⟨2 * w, h⟩])
    ∧ ∀ f, pixelGeom (.bayer f) w h = [⟨w, h⟩])
  ∧ (scaleBytes (.yuv .i400) = some 1
    ∧ (∀ f, f = .rgb24 ∨ f = .raw → scaleBytes (.rgb f) = some 3)
    ∧ (∀ f, f = .argb ∨ f = .bgra ∨ f = .abgr ∨ f = .rgba → scaleBytes (.rgb f) = some 4)
    ∧ ∀ f, (Instr.scaleNone f).wellFormed = (scaleBytes f).isSome)
  ∧ ∀ d : Descriptor,
    let w := d.width.toInt.toNat
    let h := d.height.toInt.natAbs
    (∀ s f cs, sourceGeom (.convertYR s f cs) d = pixelGeom s w h
      ∧ destGeom (.convertYR s f cs) d = pixelGeom f w h
      ∧ sourceGeom (.convertRY s f cs) d = pixelGeom s w h
      ∧ destGeom (.convertRY s f cs) d = pixelGeom f w h
      ∧ sourceGeom (.convertYY s f) d = pixelGeom s w h ∧ destGeom (.convertYY s f) d = pixelGeom f w h
      ∧ sourceGeom (.convertRR s f) d = pixelGeom s w h ∧ destGeom (.convertRR s f) d = pixelGeom f w h)
    ∧ (∀ b f cs, sourceGeom (.demosaicR (.bayer b) f) d = [⟨w, h⟩]
      ∧ destGeom (.demosaicR (.bayer b) f) d = pixelGeom f w h
      ∧ sourceGeom (.demosaicY (.bayer b) f cs) d = [⟨w, h⟩]
      ∧ destGeom (.demosaicY (.bayer b) f cs) d = pixelGeom f w h)
    ∧ (∀ f n i, scaleBytes f = some n → i = .scaleNone f ∨ i = .scaleLinear f ∨ i = .scaleBilinear f →
      sourceGeom i d = [⟨n * w, h⟩]
      ∧ destGeom i d = [⟨n * d.dwidth.toInt.toNat, d.dheight.toInt.toNat⟩])
    ∧ (∀ r, sourceGeom (rotateForm r) d = [⟨w, h⟩] ∧ sourceGeom (rotateUVForm r) d = [⟨2 * w, h⟩])
    ∧ (∀ r, r = .r0 ∨ r = .r180 →
      destGeom (rotateForm r) d = [⟨w, h⟩] ∧ destGeom (rotateUVForm r) d = [⟨w, h⟩, ⟨w, h⟩])
    ∧ ∀ r, r = .r90 ∨ r = .r270 →
      destGeom (rotateForm r) d = [⟨h, w⟩] ∧ destGeom (rotateUVForm r) d = [⟨h, w⟩, ⟨h, w⟩]

/-! ### ROTATE and ROTATE_UV -/

/-- 44_rotate.md rules R310 to R313: each ROTATE completes and puts every source byte `S(x, y)` at its place,
(x, y), (h - 1 - y, x), (w - 1 - x, h - 1 - y) or (y, w - 1 - x) as (column, row). -/
def Obligations.RotateMovesEveryByte : Prop :=
  ∀ (rot : Rotation) (s : State), Ready (rotateForm rot) s →
    ∃ t, Completes (rotateForm rot) s t ∧
      ∀ x y, x < imageWidth s.latch → y < imageHeight s.latch →
        let w := imageWidth s.latch
        let h := imageHeight s.latch
        let D := fun (c r : Nat) => destByte (rotateForm rot) s.latch t.mem 0 r c
        let v := sourceByte (rotateForm rot) s 0 y x
        match rot with
        | .r0 => D x y = v
        | .r90 => D (h - 1 - y) x = v
        | .r180 => D (w - 1 - x) (h - 1 - y) = v
        | .r270 => D y (w - 1 - x) = v

/-- 44_rotate.md rules R320 to R323: each ROTATE_UV completes and puts byte 0 of every source element in
destination slot 0 and byte 1 in slot 1, at the place of the element. -/
def Obligations.RotateUVSplitsAndMoves : Prop :=
  ∀ (rot : Rotation) (s : State), Ready (rotateUVForm rot) s →
    ∃ t, Completes (rotateUVForm rot) s t ∧
      ∀ x y e, x < imageWidth s.latch → y < imageHeight s.latch → e < 2 →
        let w := imageWidth s.latch
        let h := imageHeight s.latch
        let D := fun (c r : Nat) => destByte (rotateUVForm rot) s.latch t.mem e r c
        let v := sourceByte (rotateUVForm rot) s 0 y (2 * x + e)
        match rot with
        | .r0 => D x y = v
        | .r90 => D (h - 1 - y) x = v
        | .r180 => D (w - 1 - x) (h - 1 - y) = v
        | .r270 => D y (w - 1 - x) = v

/-- 44_rotate.md rule R303: the placement map of each angle is a bijection of the `w` × `h` source onto the
destination, with the inverse the rule's table gives. -/
def Obligations.PlacementIsBijection : Prop :=
  ∀ (rot : Rotation) (w h : Nat),
    (∀ x y, x < w → y < h →
      (place rot w h x y).1 < (rotatedGeom rot w h).rb ∧ (place rot w h x y).2 < (rotatedGeom rot w h).rows)
    ∧ ∀ c r, c < (rotatedGeom rot w h).rb → r < (rotatedGeom rot w h).rows →
      let p := match rot with
        | .r0 => (c, r)
        | .r90 => (r, h - 1 - c)
        | .r180 => (w - 1 - c, h - 1 - r)
        | .r270 => (w - 1 - r, c)
      (p.1 < w ∧ p.2 < h ∧ place rot w h p.1 p.2 = (c, r))
      ∧ ∀ x y, x < w → y < h → place rot w h x y = (c, r) → (x, y) = p

/-- 44_rotate.md rule R324: one ROTATE and then the ROTATE of the inverse angle over its result, with the
sizes as the first one left them and a positive height, give back every source byte. The second command
reads the first result where it was written, in any memory that still holds it. -/
def Obligations.RotationThenInverseRestores : Prop :=
  ∀ (rot : Rotation) (s t s' u : State),
    Ready (rotateForm rot) s → exec (rotateForm rot) s = .next t →
    Ready (rotateForm (inverseAngle rot)) s' →
    s'.latch.width.toInt = (rotatedGeom rot (imageWidth s.latch) (imageHeight s.latch)).rb →
    s'.latch.height.toInt = (rotatedGeom rot (imageWidth s.latch) (imageHeight s.latch)).rows →
    s'.latch.src0Addr = s.latch.dst0Addr → s'.latch.src0Stride = s.latch.dst0Stride →
    (∀ a, InFootprint (writePlanes (rotateForm rot) s.latch) a → s'.mem.load a = t.mem.load a) →
    exec (rotateForm (inverseAngle rot)) s' = .next u →
    ∀ x y, x < imageWidth s.latch → y < imageHeight s.latch →
      destByte (rotateForm (inverseAngle rot)) s'.latch u.mem 0 y x = sourceByte (rotateForm rot) s 0 y x

/-! ### CONVERT -/

/-- 42_convert.md rule R240: CONVERT.YR completes and stores at every position the packed inverse-matrix
colour of the source pixel, with alpha 255. -/
def Obligations.ConvertYRPixels : Prop :=
  ∀ (sf : YuvFormat) (df : RgbFormat) (cs : ColourStandard) (s : State),
    let i := Instr.convertYR (.yuv sf) (.rgb df) cs
    Ready i s →
    ∃ t, Completes i s t ∧
      ∀ x y, x < imageWidth s.latch → y < imageHeight s.latch →
        let p := sourceYuv i sf s x y
        HoldsPixel i df s.latch t.mem x y { inverse cs p.y p.u p.v with a := 255 }

/-- 42_convert.md rules R241, R245, R246: CONVERT.RY completes; luma is the forward matrix of each pixel,
chroma the forward matrix of the block's averaged colour. -/
def Obligations.ConvertRYLumaChroma : Prop :=
  ∀ (sf : RgbFormat) (df : YuvFormat) (cs : ColourStandard) (s : State),
    let i := Instr.convertRY (.rgb sf) (.yuv df) cs
    let w := imageWidth s.latch
    let h := imageHeight s.latch
    Ready i s →
    ∃ t, Completes i s t
      ∧ HoldsLuma i df s.latch t.mem (fun x y =>
          (forward cs (sourceRgb i sf s x y).r (sourceRgb i sf s x y).g (sourceRgb i sf s x y).b).y)
      ∧ HoldsChroma i df s.latch t.mem (fun hs vs cx cy =>
          let r := blockAvg (fun x y => (sourceRgb i sf s x y).r) w h hs vs cx cy
          let g := blockAvg (fun x y => (sourceRgb i sf s x y).g) w h hs vs cx cy
          let b := blockAvg (fun x y => (sourceRgb i sf s x y).b) w h hs vs cx cy
          ((forward cs r g b).u, (forward cs r g b).v))

/-- 42_convert.md rules R242, R245, R246: CONVERT.YY completes; luma is copied, chroma is the block average
of the source chroma. -/
def Obligations.ConvertYYLumaChroma : Prop :=
  ∀ (sf df : YuvFormat) (s : State),
    let i := Instr.convertYY (.yuv sf) (.yuv df)
    let w := imageWidth s.latch
    let h := imageHeight s.latch
    Ready i s →
    ∃ t, Completes i s t
      ∧ HoldsLuma i df s.latch t.mem (fun x y => (sourceYuv i sf s x y).y)
      ∧ HoldsChroma i df s.latch t.mem (fun hs vs cx cy =>
          (blockAvg (fun x y => (sourceYuv i sf s x y).u) w h hs vs cx cy,
           blockAvg (fun x y => (sourceYuv i sf s x y).v) w h hs vs cx cy))

/-- 42_convert.md rule R243: CONVERT.RR completes and stores every source pixel, repacked. -/
def Obligations.ConvertRRPixels : Prop :=
  ∀ (sf df : RgbFormat) (s : State),
    let i := Instr.convertRR (.rgb sf) (.rgb df)
    Ready i s →
    ∃ t, Completes i s t ∧
      ∀ x y, x < imageWidth s.latch → y < imageHeight s.latch →
        HoldsPixel i df s.latch t.mem x y (sourceRgb i sf s x y)

/-- 42_convert.md rules R242, R243 (corner cases): the same format on both sides is a plane-by-plane copy,
except for the padding luma byte of YUY2 and UYVY with odd `w`. -/
def Obligations.SameFormatConvertCopies : Prop :=
  (∀ (f : RgbFormat) (s t : State),
    let i := Instr.convertRR (.rgb f) (.rgb f)
    Ready i s → exec i s = .next t →
    ∀ k y off, IsPosition (writePlanes i s.latch) k y off →
      destByte i s.latch t.mem k y off = sourceByte i s k y off)
  ∧ ∀ (f : YuvFormat) (s t : State),
    let i := Instr.convertYY (.yuv f) (.yuv f)
    let w := imageWidth s.latch
    Ready i s → exec i s = .next t →
    ∀ k y off, IsPosition (writePlanes i s.latch) k y off →
      ¬ (f = .yuy2 ∧ w % 2 = 1 ∧ off = 2 * w) → ¬ (f = .uyvy ∧ w % 2 = 1 ∧ off = 2 * w + 1) →
      destByte i s.latch t.mem k y off = sourceByte i s k y off

/-- 42_convert.md rule R244: the block average is the sample itself for a 1 × 1 block, else the sum of the
clamped block with half of its size added, divided by its size, rounding down; it needs no truncation to 8
bits. -/
def Obligations.BlockAverageIsRoundedMean : Prop :=
  ∀ (c : Nat → Nat → Byte) (w h hs vs cx cy : Nat),
    let sum := ∑ b ∈ Finset.range (2 ^ vs), ∑ a ∈ Finset.range (2 ^ hs),
      (c (min (cx * 2 ^ hs + a) (w - 1)) (min (cy * 2 ^ vs + b) (h - 1))).toNat
    (blockAvg c w h hs vs cx cy).toNat =
      if hs + vs = 0 then sum else (sum + 2 ^ (hs + vs - 1)) / 2 ^ (hs + vs)

/-! ### The colour matrix -/

/-- 42_convert.md rules R234, R235: the forward matrices, with the clamps where they act: nowhere for "601",
at 256 for "J"; the limited-range outputs stay in 16..235 and 16..240. -/
def Obligations.ForwardMatrixFormulas : Prop :=
  ∀ r g b : Byte,
    let R : Int := r.toNat
    let G : Int := g.toNat
    let B : Int := b.toNat
    let l := forward .bt601 r g b
    let j := forward .fullJ r g b
    ((l.y.toNat : Int) = (66 * R + 129 * G + 25 * B + 4224) / 256
      ∧ (l.u.toNat : Int) = (-38 * R - 74 * G + 112 * B + 32896) / 256
      ∧ (l.v.toNat : Int) = (112 * R - 94 * G - 18 * B + 32896) / 256)
    ∧ ((16 ≤ l.y.toNat ∧ l.y.toNat ≤ 235) ∧ (16 ≤ l.u.toNat ∧ l.u.toNat ≤ 240)
      ∧ 16 ≤ l.v.toNat ∧ l.v.toNat ≤ 240)
    ∧ (j.y.toNat : Int) = (77 * R + 150 * G + 29 * B + 128) / 256
      ∧ (j.u.toNat : Int) = min 255 ((-43 * R - 85 * G + 128 * B + 32896) / 256)
      ∧ (j.v.toNat : Int) = min 255 ((128 * R - 107 * G - 21 * B + 32896) / 256)

/-- 42_convert.md rules R236, R237: the inverse matrices, in the unfolded form the rules give, clamped to
0..255; the pixel's alpha is 255 (rule R240). -/
def Obligations.InverseMatrixFormulas : Prop :=
  ∀ y u v : Byte,
    let Y : Int := y.toNat
    let U : Int := u.toNat
    let V : Int := v.toNat
    let l := inverse .bt601 y u v
    let j := inverse .fullJ y u v
    ((l.r.toNat : Int) = max 0 (min 255 ((298 * (Y - 16) + 409 * (V - 128) + 128) / 256))
      ∧ (l.g.toNat : Int)
        = max 0 (min 255 ((298 * (Y - 16) - 100 * (U - 128) - 208 * (V - 128) + 128) / 256))
      ∧ (l.b.toNat : Int) = max 0 (min 255 ((298 * (Y - 16) + 516 * (U - 128) + 128) / 256))
      ∧ l.a = 255)
    ∧ (j.r.toNat : Int) = max 0 (min 255 ((256 * Y + 359 * (V - 128) + 128) / 256))
      ∧ (j.g.toNat : Int) = max 0 (min 255 ((256 * Y - 88 * (U - 128) - 183 * (V - 128) + 128) / 256))
      ∧ (j.b.toNat : Int) = max 0 (min 255 ((256 * Y + 454 * (U - 128) + 128) / 256))
      ∧ j.a = 255

/-- 42_convert.md rule R239, which the spec derives from its rules R234 to R237: gray stays gray through both
matrices of both standards. -/
def Obligations.GrayStaysGray : Prop :=
  ∀ k : Byte,
    (∀ cs, (forward cs k k k).u = 128 ∧ (forward cs k k k).v = 128)
    ∧ (let g := inverse .bt601 k 128 128
       g.r = g.g ∧ g.g = g.b
        ∧ (g.r.toNat : Int) = max 0 (min 255 ((298 * (k.toNat : Int) - 4640) / 256)))
    ∧ (let g := inverse .fullJ k 128 128
       g.r = k ∧ g.g = k ∧ g.b = k)

/-- 42_convert.md rule R238, which the spec derives by a computation of its own: every component of the four
matrices is within 1 of the rounded and clamped real matrix of rule R232, for every input. Those real
matrices come from general knowledge (log entry 14). -/
def Obligations.MatricesNearRealReference : Prop :=
  ∀ p q r : Byte,
    let P : Int := p.toNat
    let Q : Int := q.toNat
    let R : Int := r.toNat
    (NearReference (16000000 + 256788 * P + 504129 * Q + 97906 * R) (forward .bt601 p q r).y
      ∧ NearReference (128000000 - 148223 * P - 290993 * Q + 439216 * R) (forward .bt601 p q r).u
      ∧ NearReference (128000000 + 439216 * P - 367788 * Q - 71427 * R) (forward .bt601 p q r).v)
    ∧ (NearReference (299000 * P + 587000 * Q + 114000 * R) (forward .fullJ p q r).y
      ∧ NearReference (128000000 - 168736 * P - 331264 * Q + 500000 * R) (forward .fullJ p q r).u
      ∧ NearReference (128000000 + 500000 * P - 418688 * Q - 81312 * R) (forward .fullJ p q r).v)
    ∧ (NearReference (1164383 * (P - 16) + 1596027 * (R - 128)) (inverse .bt601 p q r).r
      ∧ NearReference (1164383 * (P - 16) - 391762 * (Q - 128) - 812968 * (R - 128))
          (inverse .bt601 p q r).g
      ∧ NearReference (1164383 * (P - 16) + 2017232 * (Q - 128)) (inverse .bt601 p q r).b)
    ∧ NearReference (1000000 * P + 1402000 * (R - 128)) (inverse .fullJ p q r).r
      ∧ NearReference (1000000 * P - 344136 * (Q - 128) - 714136 * (R - 128)) (inverse .fullJ p q r).g
      ∧ NearReference (1000000 * P + 1772000 * (Q - 128)) (inverse .fullJ p q r).b

/-- 42_convert.md rule R247: the round trip through the forward and the inverse matrix moves red, green and
blue by at most 2, 2, 3 ("601") and 2, 1, 2 ("J"), for every colour. -/
def Obligations.ColourRoundTripBounds : Prop :=
  ∀ r g b : Byte,
    (let y := forward .bt601 r g b
     let p := inverse .bt601 y.y y.u y.v
     |(p.r.toNat : Int) - r.toNat| ≤ 2 ∧ |(p.g.toNat : Int) - g.toNat| ≤ 2
      ∧ |(p.b.toNat : Int) - b.toNat| ≤ 3)
    ∧ (let y := forward .fullJ r g b
       let p := inverse .fullJ y.y y.u y.v
       |(p.r.toNat : Int) - r.toNat| ≤ 2 ∧ |(p.g.toNat : Int) - g.toNat| ≤ 1
        ∧ |(p.b.toNat : Int) - b.toNat| ≤ 2)

/-! ### Pixel formats -/

/-- 41_pixel_formats.md rules R180 to R183: the components of a source pixel of each YUV-family format, by
the bytes of the planes; chroma is replicated. -/
def Obligations.UnpackYuvLayouts : Prop :=
  ∀ (m : Memory) (ps : List Plane) (x y : Nat),
    let P := fun (k row off : Nat) => (planeAt ps k).byte m row off
    unpackYuv .i420 m ps x y = ⟨P 0 y x, P 1 (y / 2) (x / 2), P 2 (y / 2) (x / 2)⟩
    ∧ unpackYuv .i422 m ps x y = ⟨P 0 y x, P 1 y (x / 2), P 2 y (x / 2)⟩
    ∧ unpackYuv .i444 m ps x y = ⟨P 0 y x, P 1 y x, P 2 y x⟩
    ∧ unpackYuv .i411 m ps x y = ⟨P 0 y x, P 1 y (x / 4), P 2 y (x / 4)⟩
    ∧ unpackYuv .nv12 m ps x y = ⟨P 0 y x, P 1 (y / 2) (2 * (x / 2)), P 1 (y / 2) (2 * (x / 2) + 1)⟩
    ∧ unpackYuv .nv21 m ps x y = ⟨P 0 y x, P 1 (y / 2) (2 * (x / 2) + 1), P 1 (y / 2) (2 * (x / 2))⟩
    ∧ unpackYuv .yuy2 m ps x y = ⟨P 0 y (2 * x), P 0 y (4 * (x / 2) + 1), P 0 y (4 * (x / 2) + 3)⟩
    ∧ unpackYuv .uyvy m ps x y = ⟨P 0 y (2 * x + 1), P 0 y (4 * (x / 2)), P 0 y (4 * (x / 2) + 2)⟩
    ∧ unpackYuv .i400 m ps x y = ⟨P 0 y x, 128, 128⟩

/-- 41_pixel_formats.md rules R184 to R192: the components of a source pixel of each RGB-family format, as
numbers. -/
def Obligations.UnpackRgbLayouts : Prop :=
  ∀ (m : Memory) (ps : List Plane) (x y : Nat),
    let P := fun (off : Nat) => (planeAt ps 0).byte m y off
    let v := (P (2 * x)).toNat + 256 * (P (2 * x + 1)).toNat
    let nats := fun (p : Rgba) => (p.r.toNat, p.g.toNat, p.b.toNat, p.a.toNat)
    let wide5 := fun (n : Nat) => 8 * n + n / 4
    let wide6 := fun (n : Nat) => 4 * n + n / 16
    unpackRgb .argb m ps x y = ⟨P (4 * x + 2), P (4 * x + 1), P (4 * x), P (4 * x + 3)⟩
    ∧ unpackRgb .bgra m ps x y = ⟨P (4 * x + 1), P (4 * x + 2), P (4 * x + 3), P (4 * x)⟩
    ∧ unpackRgb .abgr m ps x y = ⟨P (4 * x), P (4 * x + 1), P (4 * x + 2), P (4 * x + 3)⟩
    ∧ unpackRgb .rgba m ps x y = ⟨P (4 * x + 3), P (4 * x + 2), P (4 * x + 1), P (4 * x)⟩
    ∧ unpackRgb .rgb24 m ps x y = ⟨P (3 * x + 2), P (3 * x + 1), P (3 * x), 255⟩
    ∧ unpackRgb .raw m ps x y = ⟨P (3 * x), P (3 * x + 1), P (3 * x + 2), 255⟩
    ∧ nats (unpackRgb .rgb565 m ps x y)
      = (wide5 (v / 2048), wide6 (v / 32 % 64), wide5 (v % 32), 255)
    ∧ nats (unpackRgb .argb1555 m ps x y)
      = (wide5 (v / 1024 % 32), wide5 (v / 32 % 32), wide5 (v % 32), 255 * (v / 32768))
    ∧ nats (unpackRgb .argb4444 m ps x y)
      = (17 * (v / 256 % 16), 17 * (v / 16 % 16), 17 * (v % 16), 17 * (v / 4096))

/-- 41_pixel_formats.md rules R204 to R212: the bytes of a packed pixel of each RGB-family format in memory
order; the 16-bit formats truncate each channel and put the low byte first. -/
def Obligations.PackRgbLayouts : Prop :=
  ∀ p : Rgba,
    let R := p.r.toNat
    let G := p.g.toNat
    let B := p.b.toNat
    let A := p.a.toNat
    let bytes := fun (f : RgbFormat) => (packRgb f p).map BitVec.toNat
    let half := fun (v : Nat) => [v % 256, v / 256]
    bytes .argb = [B, G, R, A] ∧ bytes .bgra = [A, R, G, B] ∧ bytes .abgr = [R, G, B, A]
    ∧ bytes .rgba = [A, B, G, R] ∧ bytes .rgb24 = [B, G, R] ∧ bytes .raw = [R, G, B]
    ∧ bytes .rgb565 = half (B / 8 + 32 * (G / 4) + 2048 * (R / 8))
    ∧ bytes .argb1555 = half (B / 8 + 32 * (G / 8) + 1024 * (R / 8) + 32768 * (A / 128))
    ∧ bytes .argb4444 = half (B / 16 + 16 * (G / 16) + 256 * (R / 16) + 4096 * (A / 16))

/-- 41_pixel_formats.md rule R214, which the spec derives from its layout rules: packing an unpacked pixel gives back its bytes in every RGB-family format;
unpacking a packed pixel of a byte format gives back its channels, alpha included where the format carries
it; for the 16-bit formats the converse does not hold. -/
def Obligations.PackAfterUnpack : Prop :=
  (∀ (f : RgbFormat) (m : Memory) (ps : List Plane) (x y : Nat),
    packRgb f (unpackRgb f m ps x y)
      = (List.range (rgbBytes f)).map fun n => (planeAt ps 0).byte m y (rgbBytes f * x + n))
  ∧ (∀ (f : RgbFormat) (m : Memory) (ps : List Plane) (x y : Nat) (p : Rgba),
    rgbBytes f ≠ 2 →
    (∀ n b, (packRgb f p)[n]? = some b → (planeAt ps 0).byte m y (rgbBytes f * x + n) = b) →
    (unpackRgb f m ps x y).r = p.r ∧ (unpackRgb f m ps x y).g = p.g ∧ (unpackRgb f m ps x y).b = p.b
      ∧ (rgbBytes f = 4 → (unpackRgb f m ps x y).a = p.a))
  ∧ ∀ f : RgbFormat, rgbBytes f = 2 → ∃ p q : Rgba, p.r ≠ q.r ∧ packRgb f p = packRgb f q

/-! ### SCALE -/

/-- 43_scale.md rules R272 to R274, R280: SCALE.NONE completes and copies to every destination byte the byte of
the source pixel at the integer part of its 16.16 position. -/
def Obligations.ScaleNonePointSamples : Prop :=
  ∀ (f : PixelFormat) (n : Nat) (s : State),
    let e := Instr.scaleNone f
    let z := scaleSize s.latch
    scaleBytes f = some n → Ready e s →
    ∃ t, Completes e s t ∧
      ∀ i j c, i < z.dh → j < z.dw → c < n →
        let xi := j * (z.sw * 65536 / z.dw) / 65536
        let yi := i * (z.sh * 65536 / z.dh) / 65536
        destByte e s.latch t.mem 0 i (n * j + c) = sourceByte e s 0 yi (n * xi + c)

/-- 43_scale.md rules R272 to R277, R281: SCALE.LINEAR completes; every destination byte is the 2 × 2 or 4 × 4
box average at the exact ratios, else the blend of two neighbours in the point-sampled row. -/
def Obligations.ScaleLinearBlendsRows : Prop :=
  ∀ (f : PixelFormat) (n : Nat) (s : State),
    let e := Instr.scaleLinear f
    let z := scaleSize s.latch
    scaleBytes f = some n → Ready e s →
    ∃ t, Completes e s t ∧
      ∀ i j c, i < z.dh → j < z.dw → c < n →
        let S := fun (x y : Nat) => (sourceByte e s 0 y (n * x + c)).toNat
        let out := (destByte e s.latch t.mem 0 i (n * j + c)).toNat
        let x := j * (z.sw * 65536 / z.dw)
        let xi := x / 65536
        let xf := x / 256 % 256
        let x1 := min (xi + 1) (z.sw - 1)
        let yi := i * (z.sh * 65536 / z.dh) / 65536
        if z.sw = 2 * z.dw ∧ z.sh = 2 * z.dh then
          out = (S (2 * j) (2 * i) + S (2 * j + 1) (2 * i) + S (2 * j) (2 * i + 1)
            + S (2 * j + 1) (2 * i + 1) + 2) / 4
        else if z.sw = 4 * z.dw ∧ z.sh = 4 * z.dh then
          out = ((∑ a ∈ Finset.range 4, ∑ b ∈ Finset.range 4, S (4 * j + a) (4 * i + b)) + 8) / 16
        else
          out = (S xi yi * (256 - xf) + S x1 yi * xf) / 256

/-- 43_scale.md rules R272 to R277, R282: SCALE.BILINEAR completes; every destination byte is the box average at
the exact ratios, else the vertical blend, truncated to 8 bits, blended horizontally. -/
def Obligations.ScaleBilinearBlendsColumnsThenRows : Prop :=
  ∀ (f : PixelFormat) (n : Nat) (s : State),
    let e := Instr.scaleBilinear f
    let z := scaleSize s.latch
    scaleBytes f = some n → Ready e s →
    ∃ t, Completes e s t ∧
      ∀ i j c, i < z.dh → j < z.dw → c < n →
        let S := fun (x y : Nat) => (sourceByte e s 0 y (n * x + c)).toNat
        let out := (destByte e s.latch t.mem 0 i (n * j + c)).toNat
        let x := j * (z.sw * 65536 / z.dw)
        let xi := x / 65536
        let xf := x / 256 % 256
        let x1 := min (xi + 1) (z.sw - 1)
        let y := i * (z.sh * 65536 / z.dh)
        let yi := y / 65536
        let yf := y / 256 % 256
        let y1 := min (yi + 1) (z.sh - 1)
        let row := fun (col : Nat) => (S col yi * (256 - yf) + S col y1 * yf) / 256
        if z.sw = 2 * z.dw ∧ z.sh = 2 * z.dh then
          out = (S (2 * j) (2 * i) + S (2 * j + 1) (2 * i) + S (2 * j) (2 * i + 1)
            + S (2 * j + 1) (2 * i + 1) + 2) / 4
        else if z.sw = 4 * z.dw ∧ z.sh = 4 * z.dh then
          out = ((∑ a ∈ Finset.range 4, ∑ b ∈ Finset.range 4, S (4 * j + a) (4 * i + b)) + 8) / 16
        else
          out = (row xi * (256 - xf) + row x1 * xf) / 256

/-- 43_scale.md rule R274: every sampled position and its neighbour lie inside the source, and the position is
low of the ideal one by less than `j / 65536` source pixels. -/
def Obligations.ScalePositionsInside : Prop :=
  ∀ srcSize dstSize j : Nat, 0 < srcSize → j < dstSize →
    let x := j * scaleStep srcSize dstSize
    scaleIndex (scaleStep srcSize dstSize) j ≤ srcSize - 1
    ∧ scaleNext (scaleIndex (scaleStep srcSize dstSize) j) srcSize ≤ srcSize - 1
    ∧ scaleWeight (scaleStep srcSize dstSize) j ≤ 255
    ∧ x * dstSize ≤ j * srcSize * 65536
    ∧ (0 < j → j * srcSize * 65536 < (x + j) * dstSize)

/-- 43_scale.md rule R275: the blend is truncated, lies between its samples, and equals the first sample when
the weight is 0 or the samples are equal. -/
def Obligations.BlendBetween : Prop :=
  ∀ (a b : Byte) (f : Nat), f ≤ 255 →
    (blend a b f).toNat = (a.toNat * (256 - f) + b.toNat * f) / 256
    ∧ min a.toNat b.toNat ≤ (blend a b f).toNat ∧ (blend a b f).toNat ≤ max a.toNat b.toNat
    ∧ (f = 0 ∨ a = b → blend a b f = a)

/-- 43_scale.md rules R280 to R282 (corner cases): with equal sizes all three SCALE forms return the source
unchanged. -/
def Obligations.ScaleIdentity : Prop :=
  ∀ (e : Instr) (f : PixelFormat) (n : Nat) (s t : State),
    e = .scaleNone f ∨ e = .scaleLinear f ∨ e = .scaleBilinear f →
    scaleBytes f = some n → Ready e s →
    (scaleSize s.latch).dw = (scaleSize s.latch).sw → (scaleSize s.latch).dh = (scaleSize s.latch).sh →
    exec e s = .next t →
    ∀ y off, y < (scaleSize s.latch).sh → off < n * (scaleSize s.latch).sw →
      destByte e s.latch t.mem 0 y off = sourceByte e s 0 y off

/-! ### DEMOSAIC -/

/-- 45_demosaic.md rule R340: DEMOSAIC.R completes and stores the interpolated colour of every position. -/
def Obligations.DemosaicRPixels : Prop :=
  ∀ (bf : BayerFormat) (df : RgbFormat) (s : State),
    let i := Instr.demosaicR (.bayer bf) (.rgb df)
    Ready i s →
    ∃ t, Completes i s t ∧
      ∀ x y, x < imageWidth s.latch → y < imageHeight s.latch →
        HoldsPixel i df s.latch t.mem x y (sourceBayer i bf s x y)

/-- 45_demosaic.md rule R341: DEMOSAIC.Y completes; luma and chroma are those of CONVERT.RY over the
interpolated colours. -/
def Obligations.DemosaicYLumaChroma : Prop :=
  ∀ (bf : BayerFormat) (df : YuvFormat) (cs : ColourStandard) (s : State),
    let i := Instr.demosaicY (.bayer bf) (.yuv df) cs
    let w := imageWidth s.latch
    let h := imageHeight s.latch
    Ready i s →
    ∃ t, Completes i s t
      ∧ HoldsLuma i df s.latch t.mem (fun x y =>
          (forward cs (sourceBayer i bf s x y).r (sourceBayer i bf s x y).g (sourceBayer i bf s x y).b).y)
      ∧ HoldsChroma i df s.latch t.mem (fun hs vs cx cy =>
          let r := blockAvg (fun x y => (sourceBayer i bf s x y).r) w h hs vs cx cy
          let g := blockAvg (fun x y => (sourceBayer i bf s x y).g) w h hs vs cx cy
          let b := blockAvg (fun x y => (sourceBayer i bf s x y).b) w h hs vs cx cy
          ((forward cs r g b).u, (forward cs r g b).v))

/-- 45_demosaic.md rules R333 to R336: at every position, edges and corners among them, the sampled colour is
kept, each missing colour is the truncated mean of the samples at the neighbours that lie inside the image
(orthogonal, diagonal, horizontal or vertical ones, by the role of the position), and alpha is 255. -/
def Obligations.BayerColoursAtEveryPosition : Prop :=
  ∀ (f : BayerFormat) (M : Nat → Nat → Byte) (w h x y : Nat),
    2 ≤ w → 2 ≤ h → x < w → y < h →
    let p := bayerPixel f M w h x y
    let X : Int := x
    let Y : Int := y
    let mean := fun (ps : List (Int × Int)) =>
      let q := ps.filter fun n => decide (0 ≤ n.1 ∧ n.1 < (w : Int) ∧ 0 ≤ n.2 ∧ n.2 < (h : Int))
      (q.map fun n => (M n.1.toNat n.2.toNat).toNat).sum / q.length
    let hor := mean [(X - 1, Y), (X + 1, Y)]
    let ver := mean [(X, Y - 1), (X, Y + 1)]
    let orth := mean [(X - 1, Y), (X + 1, Y), (X, Y - 1), (X, Y + 1)]
    let diag := mean [(X - 1, Y - 1), (X + 1, Y - 1), (X - 1, Y + 1), (X + 1, Y + 1)]
    p.a = 255
    ∧ (sampleRole f x y = .red → p.r = M x y ∧ p.g.toNat = orth ∧ p.b.toNat = diag)
    ∧ (sampleRole f x y = .blue → p.b = M x y ∧ p.g.toNat = orth ∧ p.r.toNat = diag)
    ∧ (sampleRole f x y = .green → sampleRole f (x ^^^ 1) y = .red →
        p.g = M x y ∧ p.r.toNat = hor ∧ p.b.toNat = ver)
    ∧ (sampleRole f x y = .green → sampleRole f (x ^^^ 1) y ≠ .red →
        p.g = M x y ∧ p.r.toNat = ver ∧ p.b.toNat = hor)

/-- 45_demosaic.md rule R333: the number of neighbours inside the image, by the class of the position, in an
image of at least 2 × 2; with the sum of at least one sample the mean needs no truncation to 8 bits. -/
def Obligations.BayerNeighbourCounts : Prop :=
  ∀ (w h x y : Nat), 2 ≤ w → 2 ≤ h → x < w → y < h →
    let n := fun (ps : List (Int × Int)) => (insideImage w h ps).length
    let counts := (n (orthNeighbours x y), n (diagNeighbours x y), n (horNeighbours x y),
      n (verNeighbours x y))
    let edgeX := x = 0 ∨ x = w - 1
    let edgeY := y = 0 ∨ y = h - 1
    (¬ edgeX ∧ ¬ edgeY → counts = (4, 4, 2, 2))
    ∧ (edgeX ∧ ¬ edgeY → counts = (3, 2, 1, 2))
    ∧ (¬ edgeX ∧ edgeY → counts = (3, 2, 2, 1))
    ∧ (edgeX ∧ edgeY → counts = (2, 1, 1, 1))
    ∧ ∀ (M : Nat → Nat → Byte) (ps : List (Int × Int)),
      insideImage w h ps = ps.filter (fun p => decide (0 ≤ p.1 ∧ p.1 < (w : Int) ∧ 0 ≤ p.2 ∧ p.2 < (h : Int)))
      ∧ (insideImage w h ps ≠ [] →
        (avgAvail M w h ps).toNat
          = ((insideImage w h ps).map fun p => (M p.1.toNat p.2.toNat).toNat).sum
            / (insideImage w h ps).length)

/-- 45_demosaic.md rule R340 (corner cases): a flat mosaic gives every pixel its one value in red, green and
blue, at every position of every ordering. -/
def Obligations.FlatMosaicGivesFlatColour : Prop :=
  ∀ (f : BayerFormat) (M : Nat → Nat → Byte) (w h : Nat) (k : Byte),
    2 ≤ w → 2 ≤ h → (∀ x y, x < w → y < h → M x y = k) →
    ∀ x y, x < w → y < h → bayerPixel f M w h x y = ⟨k, k, k, 255⟩

/-- 45_demosaic.md rules R331, R332: the colour map of each ordering, that red and blue samples have green
orthogonal neighbours, and that a mosaic with an even number of rows read bottom-up is the mosaic of the
row-exchanged ordering. -/
def Obligations.BayerColourMap : Prop :=
  (∀ x y : Nat,
    let R := SampleRole.red
    let G := SampleRole.green
    let B := SampleRole.blue
    let block := fun f => (sampleRole f (2 * x) (2 * y), sampleRole f (2 * x + 1) (2 * y),
      sampleRole f (2 * x) (2 * y + 1), sampleRole f (2 * x + 1) (2 * y + 1))
    block .rggb = (R, G, G, B) ∧ block .bggr = (B, G, G, R)
    ∧ block .grbg = (G, R, B, G) ∧ block .gbrg = (G, B, R, G))
  ∧ (∀ f x y, sampleRole f x y ≠ .green →
      sampleRole f (x + 1) y = .green ∧ sampleRole f x (y + 1) = .green
      ∧ sampleRole f (x + 1) (y + 1) ≠ .green ∧ sampleRole f (x + 1) (y + 1) ≠ sampleRole f x y)
  ∧ ∀ x y h, h % 2 = 0 → y < h →
      sampleRole .gbrg x y = sampleRole .rggb x (h - 1 - y)
      ∧ sampleRole .rggb x y = sampleRole .gbrg x (h - 1 - y)
      ∧ sampleRole .grbg x y = sampleRole .bggr x (h - 1 - y)
      ∧ sampleRole .bggr x y = sampleRole .grbg x (h - 1 - y)

/-! ### Memory -/

/-- 20_memory.md rules R61, R62: for accesses of 1, 2 and 4 bytes at any integer address, a read is the
little-endian sum of the bytes at the addresses reduced modulo `2^32`; a write stores the low bytes of the
value there, leaves every other byte unchanged, and is read back. 10_state.md rule R35,
70_reset_and_hazards.md rule R410: the host reads and writes freely while the engine is idle; while it runs,
a write of bytes of the descriptor at `DPC` or of the next command's planes, and a read of bytes of its
destination planes, is refused, which is the model's choice (log entry 8); a write outside the only
footprint of a list that ends at once, and every read then, is served. -/
def Obligations.MemoryReadWriteAndHostAccess : Prop :=
  ∀ (m : Memory) (a : Int) (n v : Nat), n = 1 ∨ n = 2 ∨ n = 4 →
    let at' := fun (k : Nat) => ((a + k) % 2 ^ 32).toNat
    m.read a n = ∑ k ∈ Finset.range n, (m.load (at' k)).toNat * 256 ^ k
    ∧ (∀ k, k < n → ((m.write a n v).load (at' k)).toNat = v / 256 ^ k % 256)
    ∧ (∀ b, (∀ k, k < n → b ≠ at' k) → (m.write a n v).load b = m.load b)
    ∧ (m.write a n v).read a n = v % 256 ^ n
    ∧ ∀ (s : State) (bound : Nat), s.mem = m →
      (s.busy = false → hostLoad bound a n s = .ok (m.read a n)
        ∧ hostStore bound a n v s = .next { s with mem := m.write a n v })
      ∧ (s.busy = true →
        (∀ k j, k < n → j < 68 → at' k = (s.dpc.toNat + j) % 2 ^ 32 →
          hostStore bound a n v s = .refused .hostHazard)
        ∧ (∀ k i, k < n → decode (s.fetchedWord 0) = .ok i → Ready i s.fetch →
          (InFootprint (readPlanes i s.fetch.latch) (at' k)
              ∨ InFootprint (writePlanes i s.fetch.latch) (at' k) →
            hostStore bound a n v s = .refused .hostHazard)
          ∧ (InFootprint (writePlanes i s.fetch.latch) (at' k) →
            hostLoad bound a n s = .error .hostHazard))
        ∧ (s.fetchedWord 0 = 0 → 0 < bound →
          hostLoad bound a n s = .ok (m.read a n)
          ∧ ((∀ k j, k < n → j < 68 → at' k ≠ (s.dpc.toNat + j) % 2 ^ 32) →
            hostStore bound a n v s = .next { s with mem := m.write a n v })))

/-! ### Registers -/

/-- 10_state.md rules R23, R25 to R28: what an aligned 32-bit register read returns, field by field; on an
idle engine the moment makes no difference. 70_reset_and_hazards.md rule R410: the values that reads of `DPC`
and of the D windows can return are exactly those the engine holds before a command, after it, or with its
descriptor latched, at any moment of the run ahead (that the moment is an argument is the model's choice,
log entry 10). -/
def Obligations.RegisterMapReads : Prop :=
  ∀ s : State,
    (∀ m, (∃ v, readRegister 4 0x04 m s = .ok v ∧ ∀ n, n < 32 → v.getLsbD n = (n == 1 && s.ie))
      ∧ ∃ v, readRegister 4 0x08 m s = .ok v
        ∧ v.toNat = s.busy.toNat + 2 * s.done.toNat + 4 * s.err.toNat + 16 * s.ecode.toNat
          + 256 * s.ecause.toNat)
    ∧ (∀ m, s.busy = false ∨ m = 0 →
      readRegister 4 0x0C m s = .ok s.dpc
      ∧ ∀ i, i < 17 → readRegister 4 (0x40 + 4 * i) m s = .ok (s.latch.word i))
    ∧ (∀ v, (∃ m, readRegister 4 0x0C m s = .ok v)
      ↔ ∃ k t, core.run k s = .next t ∧ v = t.dpc)
    ∧ ∀ i v, i < 17 →
      ((∃ m, readRegister 4 (0x40 + 4 * i) m s = .ok v)
        ↔ ∃ k t, core.run k s = .next t
          ∧ (v = t.latch.word i ∨ (t.busy = true ∧ v = t.fetch.latch.word i)))

/-- 10_state.md rule R24. -/
def Obligations.IdReadsConstant : Prop :=
  ∀ (s : State) (v : Word) (m : Nat),
    readRegister 4 0x00 m s = .ok 0x4C595631 ∧ writeRegister 4 0x00 v s = .next s
    ∧ readRegister 4 0x00 m State.reset = .ok 0x4C595631

/-- 10_state.md rule R29: reserved offsets and bits read 0; writes to reserved offsets, reserved bits and
read-only registers change nothing. -/
def Obligations.ReservedReadsZeroWritesIgnored : Prop :=
  ∀ (s : State) (v : Word),
    (∀ off, off % 4 = 0 → (0x10 ≤ off ∧ off ≤ 0x3C) ∨ 0x84 ≤ off →
      (∀ m, readRegister 4 off m s = .ok 0) ∧ writeRegister 4 off v s = .next s)
    ∧ (∀ off, off % 4 = 0 → off = 0 ∨ (0x40 ≤ off ∧ off ≤ 0x80) → writeRegister 4 off v s = .next s)
    ∧ s.ctrlWord &&& 0xFFFFFFFD = 0 ∧ s.statusWord &&& 0xFFFF0008 = 0
    ∧ writeRegister 4 0x04 (v ||| 0xFFFFFFFC) s = writeRegister 4 0x04 (v &&& 0x00000003) s
    ∧ writeRegister 4 0x08 (v ||| 0xFFFFFFF9) s = writeRegister 4 0x08 (v &&& 0x00000006) s

/-- 10_state.md rule R30: while `BUSY = 1` a register write changes nothing; reads are served at any time. -/
def Obligations.BusyIgnoresRegisterWrites : Prop :=
  ∀ (s : State) (off : Nat) (v : Word), off % 4 = 0 →
    (s.busy = true → writeRegister 4 off v s = .next s)
    ∧ readRegister 4 off 0 s = .ok (registerValue off s)
    ∧ ∀ m, ∃ r, readRegister 4 off m s = .ok r

/-- 10_state.md rules R25, R31: a write of `CTRL` to an idle engine stores bit 1 to `IE`; with bit 0 set and
`ERR = 0` it then clears `DONE` and sets `BUSY`; nothing else changes. -/
def Obligations.StartAction : Prop :=
  ∀ (s : State) (v : Word), s.busy = false →
    (v.getLsbD 0 = true → s.err = true → writeRegister 4 0x04 v s = .next { s with ie := v.getLsbD 1 })
    ∧ (v.getLsbD 0 = true → s.err = false →
        writeRegister 4 0x04 v s = .next { s with ie := v.getLsbD 1, done := false, busy := true })
    ∧ (v.getLsbD 0 = false → writeRegister 4 0x04 v s = .next { s with ie := v.getLsbD 1 })

/-- 10_state.md rule R32: a write of `STATUS` to an idle engine clears `DONE` if bit 1 is set, and `ERR`,
`ECODE` and `ECAUSE` if bit 2 is set; nothing else changes. -/
def Obligations.ClearAction : Prop :=
  ∀ (s : State) (v : Word), s.busy = false →
    ∃ t, writeRegister 4 0x08 v s = .next t
      ∧ t = { s with
          done := s.done && !v.getLsbD 1
          err := s.err && !v.getLsbD 2
          ecode := if v.getLsbD 2 then 0 else s.ecode
          ecause := if v.getLsbD 2 then 0 else s.ecause }

/-- 10_state.md rule R27: a host write of `DPC` to an idle engine stores the value with bits 1:0 cleared. -/
def Obligations.DpcWriteClearsLowBits : Prop :=
  ∀ (s : State) (v : Word), s.busy = false →
    ∃ t, writeRegister 4 0x0C v s = .next t ∧ t = { s with dpc := t.dpc }
      ∧ t.dpc.toNat = 4 * (v.toNat / 4)

/-- 10_state.md rule R33: the interrupt output is `IE and (DONE or ERR)`, a function of the three bits. -/
def Obligations.InterruptLevel : Prop :=
  ∀ s : State, s.irq = true ↔ s.ie = true ∧ (s.done = true ∨ s.err = true)

/-! ### Reset and invariants -/

/-- 10_state.md rule R37, 70_reset_and_hazards.md rule R400: every control and status bit, and `DPC`, are 0
after reset. -/
def Obligations.ResetClearsControlState : Prop :=
  let s := State.reset
  s.dpc = 0 ∧ s.ie = false ∧ s.busy = false ∧ s.done = false ∧ s.err = false ∧ s.ecode = 0
  ∧ s.ecause = 0 ∧ s.irq = false ∧ step s = .next s

/-- 70_reset_and_hazards.md rule R400: the reset input, at any time, clears every control and status bit and
`DPC`, whatever it leaves in the latch; it does not touch memory when idle, and when busy it changes no
byte outside the write footprint of the command in flight. That its open outcomes are arguments is the
model's choice (log entry 9). -/
def Obligations.ResetInputAbandonsCommand : Prop :=
  ∀ (latch : Descriptor) (torn : List Host.Cell) (s : State),
    let t := resetInput latch torn s
    t = { State.reset with latch := latch, mem := t.mem }
    ∧ (s.busy = false → t.mem = s.mem)
    ∧ ∀ a, ¬ InFootprint (pendingPlanes s).2 a → t.mem.load a = s.mem.load a

/-- The invariant (memory in canonical form; `DPC` a multiple of 4, 10_state.md rule R27; at most one of
`BUSY`, `DONE`, `ERR`, rule R26; consistent error fields, 60_exceptions.md rules R361 to R363) holds at
reset. The canonical form, and what memory holds then, are the model's choice (log entry 1). -/
def Obligations.InvariantAtReset : Prop :=
  State.reset.Inv

/-- The invariant is kept by every step of the engine (10_state.md rules R26, R27, 60_exceptions.md rules R361 to
R364); its clause on memory is the model's canonical form (log entry 1). -/
def Obligations.StepKeepsInvariant : Prop :=
  ∀ s t : State, s.Inv → step s = .next t → t.Inv

/-- The invariant is kept by every interleaving of engine steps, register accesses, host memory accesses and
resets (10_state.md rules R25 to R32, 70_reset_and_hazards.md rules R400, R410); which host accesses run, and
the free outcomes of a reset, are the model's choice (log entries 8, 9). -/
def Obligations.ActionsKeepInvariant : Prop :=
  ∀ (as : List Action) (s t : State), s.Inv → actAll as s = .next t → t.Inv
end

