-- ==== Sys2Proof/Laws/State.lean ====
section
/-! SUPPORT. One lemma per field per update of the state, so that no proof unfolds a record update. -/

namespace Sys2Proof.Machine

/-! ### `State.withDpc` -/

@[simp] theorem State.withDpc_mem (s : State) (v : Word) : (s.withDpc v).mem = s.mem := rfl
@[simp] theorem State.withDpc_dpc (s : State) (v : Word) : (s.withDpc v).dpc = v &&& 0xFFFFFFFC := rfl
@[simp] theorem State.withDpc_latch (s : State) (v : Word) : (s.withDpc v).latch = s.latch := rfl
@[simp] theorem State.withDpc_ie (s : State) (v : Word) : (s.withDpc v).ie = s.ie := rfl
@[simp] theorem State.withDpc_busy (s : State) (v : Word) : (s.withDpc v).busy = s.busy := rfl
@[simp] theorem State.withDpc_done (s : State) (v : Word) : (s.withDpc v).done = s.done := rfl
@[simp] theorem State.withDpc_err (s : State) (v : Word) : (s.withDpc v).err = s.err := rfl
@[simp] theorem State.withDpc_ecode (s : State) (v : Word) : (s.withDpc v).ecode = s.ecode := rfl
@[simp] theorem State.withDpc_ecause (s : State) (v : Word) : (s.withDpc v).ecause = s.ecause := rfl

/-! ### `State.withMem` -/

@[simp] theorem State.withMem_mem (s : State) (m : Memory) : (s.withMem m).mem = m := rfl
@[simp] theorem State.withMem_dpc (s : State) (m : Memory) : (s.withMem m).dpc = s.dpc := rfl
@[simp] theorem State.withMem_latch (s : State) (m : Memory) : (s.withMem m).latch = s.latch := rfl
@[simp] theorem State.withMem_ie (s : State) (m : Memory) : (s.withMem m).ie = s.ie := rfl
@[simp] theorem State.withMem_busy (s : State) (m : Memory) : (s.withMem m).busy = s.busy := rfl
@[simp] theorem State.withMem_done (s : State) (m : Memory) : (s.withMem m).done = s.done := rfl
@[simp] theorem State.withMem_err (s : State) (m : Memory) : (s.withMem m).err = s.err := rfl
@[simp] theorem State.withMem_ecode (s : State) (m : Memory) : (s.withMem m).ecode = s.ecode := rfl
@[simp] theorem State.withMem_ecause (s : State) (m : Memory) : (s.withMem m).ecause = s.ecause := rfl

/-! ### `State.withIe` -/

@[simp] theorem State.withIe_mem (s : State) (b : Bool) : (s.withIe b).mem = s.mem := rfl
@[simp] theorem State.withIe_dpc (s : State) (b : Bool) : (s.withIe b).dpc = s.dpc := rfl
@[simp] theorem State.withIe_latch (s : State) (b : Bool) : (s.withIe b).latch = s.latch := rfl
@[simp] theorem State.withIe_ie (s : State) (b : Bool) : (s.withIe b).ie = b := rfl
@[simp] theorem State.withIe_busy (s : State) (b : Bool) : (s.withIe b).busy = s.busy := rfl
@[simp] theorem State.withIe_done (s : State) (b : Bool) : (s.withIe b).done = s.done := rfl
@[simp] theorem State.withIe_err (s : State) (b : Bool) : (s.withIe b).err = s.err := rfl
@[simp] theorem State.withIe_ecode (s : State) (b : Bool) : (s.withIe b).ecode = s.ecode := rfl
@[simp] theorem State.withIe_ecause (s : State) (b : Bool) : (s.withIe b).ecause = s.ecause := rfl

/-! ### `State.fetch` -/

@[simp] theorem State.fetch_mem (s : State) : s.fetch.mem = s.mem := rfl
@[simp] theorem State.fetch_dpc (s : State) : s.fetch.dpc = s.dpc := rfl
@[simp] theorem State.fetch_latch (s : State) : s.fetch.latch = Descriptor.ofWords s.fetchedWord := rfl
@[simp] theorem State.fetch_ie (s : State) : s.fetch.ie = s.ie := rfl
@[simp] theorem State.fetch_busy (s : State) : s.fetch.busy = s.busy := rfl
@[simp] theorem State.fetch_done (s : State) : s.fetch.done = s.done := rfl
@[simp] theorem State.fetch_err (s : State) : s.fetch.err = s.err := rfl
@[simp] theorem State.fetch_ecode (s : State) : s.fetch.ecode = s.ecode := rfl
@[simp] theorem State.fetch_ecause (s : State) : s.fetch.ecause = s.ecause := rfl

/-! ### `State.advance` -/

@[simp] theorem State.advance_mem (s : State) : s.advance.mem = s.mem := rfl
@[simp] theorem State.advance_dpc (s : State) : s.advance.dpc = s.dpc + 68 := rfl
@[simp] theorem State.advance_latch (s : State) : s.advance.latch = s.latch := rfl
@[simp] theorem State.advance_ie (s : State) : s.advance.ie = s.ie := rfl
@[simp] theorem State.advance_busy (s : State) : s.advance.busy = s.busy := rfl
@[simp] theorem State.advance_done (s : State) : s.advance.done = s.done := rfl
@[simp] theorem State.advance_err (s : State) : s.advance.err = s.err := rfl
@[simp] theorem State.advance_ecode (s : State) : s.advance.ecode = s.ecode := rfl
@[simp] theorem State.advance_ecause (s : State) : s.advance.ecause = s.ecause := rfl

/-! ### `raise` -/

@[simp] theorem raise_mem (s : State) (e : CommandError) : (raise e s).mem = s.mem := rfl
@[simp] theorem raise_dpc (s : State) (e : CommandError) : (raise e s).dpc = s.dpc := rfl
@[simp] theorem raise_latch (s : State) (e : CommandError) : (raise e s).latch = s.latch := rfl
@[simp] theorem raise_ie (s : State) (e : CommandError) : (raise e s).ie = s.ie := rfl
@[simp] theorem raise_busy (s : State) (e : CommandError) : (raise e s).busy = false := rfl
@[simp] theorem raise_done (s : State) (e : CommandError) : (raise e s).done = s.done := rfl
@[simp] theorem raise_err (s : State) (e : CommandError) : (raise e s).err = true := rfl
@[simp] theorem raise_ecode (s : State) (e : CommandError) : (raise e s).ecode = e.ecode := rfl
@[simp] theorem raise_ecause (s : State) (e : CommandError) : (raise e s).ecause = e.ecause := rfl

/-! ### `clearError` -/

@[simp] theorem clearError_mem (s : State) : (clearError s).mem = s.mem := rfl
@[simp] theorem clearError_dpc (s : State) : (clearError s).dpc = s.dpc := rfl
@[simp] theorem clearError_latch (s : State) : (clearError s).latch = s.latch := rfl
@[simp] theorem clearError_ie (s : State) : (clearError s).ie = s.ie := rfl
@[simp] theorem clearError_busy (s : State) : (clearError s).busy = s.busy := rfl
@[simp] theorem clearError_done (s : State) : (clearError s).done = s.done := rfl
@[simp] theorem clearError_err (s : State) : (clearError s).err = false := rfl
@[simp] theorem clearError_ecode (s : State) : (clearError s).ecode = 0 := rfl
@[simp] theorem clearError_ecause (s : State) : (clearError s).ecause = 0 := rfl

/-! ### `startRun` -/

@[simp] theorem startRun_mem (s : State) : (startRun s).mem = s.mem := rfl
@[simp] theorem startRun_dpc (s : State) : (startRun s).dpc = s.dpc := rfl
@[simp] theorem startRun_latch (s : State) : (startRun s).latch = s.latch := rfl
@[simp] theorem startRun_ie (s : State) : (startRun s).ie = s.ie := rfl
@[simp] theorem startRun_busy (s : State) : (startRun s).busy = true := rfl
@[simp] theorem startRun_done (s : State) : (startRun s).done = false := rfl
@[simp] theorem startRun_err (s : State) : (startRun s).err = s.err := rfl
@[simp] theorem startRun_ecode (s : State) : (startRun s).ecode = s.ecode := rfl
@[simp] theorem startRun_ecause (s : State) : (startRun s).ecause = s.ecause := rfl

/-! ### `endRun` -/

@[simp] theorem endRun_mem (s : State) : (endRun s).mem = s.mem := rfl
@[simp] theorem endRun_dpc (s : State) : (endRun s).dpc = s.dpc + 68 := rfl
@[simp] theorem endRun_latch (s : State) : (endRun s).latch = s.latch := rfl
@[simp] theorem endRun_ie (s : State) : (endRun s).ie = s.ie := rfl
@[simp] theorem endRun_busy (s : State) : (endRun s).busy = false := rfl
@[simp] theorem endRun_done (s : State) : (endRun s).done = true := rfl
@[simp] theorem endRun_err (s : State) : (endRun s).err = s.err := rfl
@[simp] theorem endRun_ecode (s : State) : (endRun s).ecode = s.ecode := rfl
@[simp] theorem endRun_ecause (s : State) : (endRun s).ecause = s.ecause := rfl

/-! ### `clearDone` -/

@[simp] theorem clearDone_mem (s : State) : (clearDone s).mem = s.mem := rfl
@[simp] theorem clearDone_dpc (s : State) : (clearDone s).dpc = s.dpc := rfl
@[simp] theorem clearDone_latch (s : State) : (clearDone s).latch = s.latch := rfl
@[simp] theorem clearDone_ie (s : State) : (clearDone s).ie = s.ie := rfl
@[simp] theorem clearDone_busy (s : State) : (clearDone s).busy = s.busy := rfl
@[simp] theorem clearDone_done (s : State) : (clearDone s).done = false := rfl
@[simp] theorem clearDone_err (s : State) : (clearDone s).err = s.err := rfl
@[simp] theorem clearDone_ecode (s : State) : (clearDone s).ecode = s.ecode := rfl
@[simp] theorem clearDone_ecause (s : State) : (clearDone s).ecause = s.ecause := rfl

/-! ### `resetRegisters` -/

@[simp] theorem resetRegisters_mem (d : Descriptor) (m : Memory) : (resetRegisters d m).mem = m := rfl
@[simp] theorem resetRegisters_dpc (d : Descriptor) (m : Memory) : (resetRegisters d m).dpc = 0 := rfl
@[simp] theorem resetRegisters_latch (d : Descriptor) (m : Memory) : (resetRegisters d m).latch = d := rfl
@[simp] theorem resetRegisters_ie (d : Descriptor) (m : Memory) : (resetRegisters d m).ie = false := rfl
@[simp] theorem resetRegisters_busy (d : Descriptor) (m : Memory) : (resetRegisters d m).busy = false := rfl
@[simp] theorem resetRegisters_done (d : Descriptor) (m : Memory) : (resetRegisters d m).done = false := rfl
@[simp] theorem resetRegisters_err (d : Descriptor) (m : Memory) : (resetRegisters d m).err = false := rfl
@[simp] theorem resetRegisters_ecode (d : Descriptor) (m : Memory) : (resetRegisters d m).ecode = 0 := rfl
@[simp] theorem resetRegisters_ecause (d : Descriptor) (m : Memory) : (resetRegisters d m).ecause = 0 := rfl

end Sys2Proof.Machine
end

