-- ==== Sys2Proof/Laws/Memory.lean ====
section
/-! SUPPORT. The laws of memory: what a byte reads as after a store, and that every memory operation keeps
the canonical form. -/

namespace Sys2Proof.Machine

/-! ### Reading -/

@[simp] theorem Memory.load_nil (a : Nat) : Memory.load [] a = Config.powerOnByte := rfl

theorem Memory.load_cons (c : Host.Cell) (m : Memory) (a : Nat) :
    Memory.load (c :: m) a = if a = c.1 then c.2 else Memory.load m a := rfl

theorem Memory.load_erase_same (m : Memory) (a : Nat) :
    (m.erase a).load a = Config.powerOnByte := by
  induction m with
  | nil => rfl
  | cons c m ih =>
    by_cases h : c.1 = a
    · simpa [Memory.erase, h] using ih
    · simpa [Memory.erase, h, Memory.load_cons, Ne.symm h] using ih

theorem Memory.load_erase_ne (m : Memory) {a b : Nat} (h : b ≠ a) :
    (m.erase a).load b = m.load b := by
  induction m with
  | nil => rfl
  | cons c m ih =>
    by_cases hc : c.1 = a
    · have : b ≠ c.1 := by omega
      simpa [Memory.erase, hc, Memory.load_cons, h] using ih
    · simp only [Memory.erase] at ih
      simp [Memory.erase, hc, Memory.load_cons, ih]

theorem Memory.load_insert_same (m : Memory) (a : Nat) (v : Byte) :
    (m.insert a v).load a = v := by
  induction m with
  | nil => simp [Memory.insert, Memory.load_cons]
  | cons c m ih =>
    obtain ⟨b, u⟩ := c
    unfold Memory.insert
    split
    · simp [Memory.load_cons]
    · split
      · simp [Memory.load_cons]
      · simp [Memory.load_cons, *]

theorem Memory.load_insert_ne (m : Memory) {a b : Nat} (v : Byte) (h : b ≠ a) :
    (m.insert a v).load b = m.load b := by
  induction m with
  | nil => simp [Memory.insert, Memory.load_cons, h]
  | cons c m ih =>
    obtain ⟨x, u⟩ := c
    unfold Memory.insert
    split
    · simp [Memory.load_cons, h]
    · split
      · rename_i _ hx
        subst hx
        simp [Memory.load_cons, h]
      · simp [Memory.load_cons, ih]

@[simp] theorem Memory.load_store_same (m : Memory) (a : Nat) (v : Byte) :
    (m.store a v).load a = v := by
  unfold Memory.store
  split
  · rename_i h
    rw [Memory.load_erase_same, h]
  · exact m.load_insert_same a v

theorem Memory.load_store_ne (m : Memory) {a b : Nat} (v : Byte) (h : b ≠ a) :
    (m.store a v).load b = m.load b := by
  unfold Memory.store
  split
  · exact m.load_erase_ne h
  · exact m.load_insert_ne v h

/-- What a byte reads as after a store. -/
theorem Memory.load_store (m : Memory) (a b : Nat) (v : Byte) :
    (m.store a v).load b = if b = a then v else m.load b := by
  split
  · rename_i h
    subst h
    simp
  · exact m.load_store_ne v ‹_›

/-! ### The canonical form -/

theorem Memory.mem_insert {m : Memory} {a : Nat} {v : Byte} {c : Host.Cell}
    (h : c ∈ m.insert a v) : c = (a, v) ∨ c ∈ m := by
  induction m with
  | nil => simpa [Memory.insert] using h
  | cons x m ih =>
    obtain ⟨b, u⟩ := x
    unfold Memory.insert at h
    split at h
    · simpa using h
    · split at h
      · rcases List.mem_cons.mp h with h | h
        · exact .inl h
        · exact .inr (List.mem_cons_of_mem _ h)
      · rcases List.mem_cons.mp h with h | h
        · exact .inr (h ▸ List.mem_cons_self)
        · exact (ih h).imp_right (List.mem_cons_of_mem _)

theorem Memory.wf_nil : Memory.wf [] := by simp [Memory.wf]

theorem Memory.wf_erase {m : Memory} (h : m.wf) (a : Nat) : (m.erase a).wf :=
  ⟨h.1.filter _, fun c hc => h.2 c (List.mem_of_mem_filter hc)⟩

theorem Memory.pairwise_insert {m : Memory} (h : m.Pairwise fun c d => c.1 < d.1) (a : Nat) (v : Byte) :
    (m.insert a v).Pairwise fun c d => c.1 < d.1 := by
  induction m with
  | nil => simp [Memory.insert]
  | cons x m ih =>
    obtain ⟨b, u⟩ := x
    obtain ⟨hb, ht⟩ := List.pairwise_cons.mp h
    unfold Memory.insert
    split
    · rename_i hab
      refine List.pairwise_cons.mpr ⟨fun d hd => ?_, h⟩
      rcases List.mem_cons.mp hd with rfl | hd
      · exact hab
      · exact Nat.lt_trans hab (hb d hd)
    · split
      · rename_i hab
        subst hab
        exact List.pairwise_cons.mpr ⟨hb, ht⟩
      · refine List.pairwise_cons.mpr ⟨fun d hd => ?_, ih ht⟩
        rcases Memory.mem_insert hd with rfl | hd
        · show b < a
          omega
        · exact hb d hd

theorem Memory.wf_insert {m : Memory} (h : m.wf) {a : Nat} {v : Byte} (ha : a < Config.memBytes)
    (hv : v ≠ Config.powerOnByte) : (m.insert a v).wf := by
  refine ⟨Memory.pairwise_insert h.1 a v, fun c hc => ?_⟩
  rcases Memory.mem_insert hc with rfl | hc
  · exact ⟨ha, hv⟩
  · exact h.2 c hc

/-- A store keeps the canonical form. -/
theorem Memory.wf_store {m : Memory} (h : m.wf) {a : Nat} (v : Byte) (ha : a < Config.memBytes) :
    (m.store a v).wf := by
  unfold Memory.store
  split
  · exact Memory.wf_erase h a
  · exact Memory.wf_insert h ha ‹_›

theorem address_lt (a : Int) : address a < Config.memBytes := by
  unfold address Config.memBytes
  omega

theorem Memory.wf_write {m : Memory} (h : m.wf) (a : Int) (n v : Nat) : (m.write a n v).wf := by
  induction n generalizing m a v with
  | zero => exact h
  | succ n ih => exact ih (Memory.wf_store h _ (address_lt a)) (a + 1) (v / 256)

theorem Memory.wf_writeBytes {m : Memory} (h : m.wf) (a : Int) (bs : List Byte) :
    (m.writeBytes a bs).wf := by
  induction bs generalizing m a with
  | nil => exact h
  | cons v bs ih => exact ih (Memory.wf_store h _ (address_lt a)) (a + 1)

/-! ### Storing a command's bytes -/

@[simp] theorem storeAll_nil (ps : List Plane) (m : Memory) : storeAll ps [] m = m := rfl

@[simp] theorem storeAll_cons (ps : List Plane) (st : Store) (sts : List Store) (m : Memory) :
    storeAll ps (st :: sts) m =
      storeAll ps sts (m.store ((planeAt ps st.plane).addr st.row st.off) st.value) := rfl

theorem storeAll_append (ps : List Plane) (xs ys : List Store) (m : Memory) :
    storeAll ps (xs ++ ys) m = storeAll ps ys (storeAll ps xs m) := by
  simp [storeAll, List.foldl_append]

theorem wf_storeAll {m : Memory} (h : m.wf) (ps : List Plane) (sts : List Store) :
    (storeAll ps sts m).wf := by
  induction sts generalizing m with
  | nil => exact h
  | cons st sts ih => exact ih (Memory.wf_store h _ (address_lt _))

/-- A byte that no store names reads as before. -/
theorem load_storeAll_ne (ps : List Plane) (sts : List Store) (m : Memory) {a : Nat}
    (h : ∀ st ∈ sts, (planeAt ps st.plane).addr st.row st.off ≠ a) :
    (storeAll ps sts m).load a = m.load a := by
  induction sts generalizing m with
  | nil => rfl
  | cons st sts ih =>
    rw [storeAll_cons, ih _ fun x hx => h x (List.mem_cons_of_mem _ hx)]
    exact m.load_store_ne _ (h st List.mem_cons_self).symm

/-- A byte that some store names, every store to its address storing the same value `v`, reads as
`v`. -/
theorem load_storeAll_eq (ps : List Plane) (sts : List Store) (m : Memory) {a : Nat} {v : Byte}
    (hex : ∃ st ∈ sts, (planeAt ps st.plane).addr st.row st.off = a)
    (hall : ∀ st ∈ sts, (planeAt ps st.plane).addr st.row st.off = a → st.value = v) :
    (storeAll ps sts m).load a = v := by
  induction sts generalizing m with
  | nil => simp at hex
  | cons st sts ih =>
    have hall' := fun x hx => hall x (List.mem_cons_of_mem _ hx)
    rw [storeAll_cons]
    by_cases hlater : ∃ x ∈ sts, (planeAt ps x.plane).addr x.row x.off = a
    · exact ih _ hlater hall'
    · have hne : ∀ x ∈ sts, (planeAt ps x.plane).addr x.row x.off ≠ a :=
        fun x hx he => hlater ⟨x, hx, he⟩
      obtain ⟨x, hx, he⟩ := hex
      rcases List.mem_cons.mp hx with rfl | hx
      · rw [load_storeAll_ne ps sts _ hne, he, Memory.load_store_same]
        exact hall x List.mem_cons_self he
      · exact absurd he (hne x hx)

end Sys2Proof.Machine
end

