-- ==== Sys2Proof/Laws/Footprint.lean ====
section
/-! SUPPORT. The row-by-row check of the footprint precondition decides it (20_memory.md rule R68). -/

namespace Sys2Proof.Machine

theorem address_eq_iff (a b : Int) :
    address a = address b ↔ (a - b) % (Config.memBytes : Int) = 0 := by
  unfold address Config.memBytes
  omega

theorem Span.covers_iff (s : Span) (a : Int) :
    s.covers a = true ↔ ∃ j < s.len, address (s.start + j) = address a := by
  rw [Span.covers, decide_eq_true_iff]
  simp only [address_eq_iff]
  unfold Config.memBytes
  constructor
  · intro h
    exact ⟨((a - s.start) % 4294967296).toNat, by omega, by omega⟩
  · rintro ⟨j, hj, h⟩
    omega

/-- Two runs are found disjoint exactly when they share no address. -/
theorem Span.disjoint_iff (s t : Span) :
    s.disjoint t = true ↔
      ∀ j < s.len, ∀ k < t.len, address (s.start + j) ≠ address (t.start + k) := by
  constructor
  · intro h j hj k hk heq
    have hs : (s.len == 0) = false := by simp; omega
    have ht : (t.len == 0) = false := by simp; omega
    simp only [Span.disjoint, hs, ht, Bool.false_or, Bool.and_eq_true, Bool.not_eq_true',
      Bool.eq_false_iff, ne_eq, Span.covers_iff, not_exists, not_and] at h
    rw [address_eq_iff] at heq
    by_cases hjk : k ≤ j
    · refine h.1 (j - k) (by omega) ?_
      rw [address_eq_iff]
      unfold Config.memBytes at *
      omega
    · refine h.2 (k - j) (by omega) ?_
      rw [address_eq_iff]
      unfold Config.memBytes at *
      omega
  · intro h
    by_cases hs : s.len = 0
    · simp [Span.disjoint, hs]
    by_cases ht : t.len = 0
    · simp [Span.disjoint, ht]
    simp only [Span.disjoint, Bool.or_eq_true, Bool.and_eq_true, Bool.not_eq_true',
      Bool.eq_false_iff, ne_eq, Span.covers_iff, not_exists, not_and]
    refine .inr ⟨fun j hj => ?_, fun k hk he => ?_⟩
    · simpa using h j hj 0 (by omega)
    · exact h 0 (by omega) k hk (by simpa using he.symm)

theorem spansDisjoint_iff (l : List Span) :
    spansDisjoint l = true ↔ l.Pairwise fun s t => s.disjoint t = true := by
  induction l with
  | nil => simp [spansDisjoint]
  | cons s l ih => simp [spansDisjoint, ih, List.pairwise_cons]

theorem mem_spans {p : Plane} {s : Span} :
    s ∈ p.spans ↔ ∃ y < p.rows, s = ⟨p.base + y * p.stride, p.rb⟩ := by
  simp [Plane.spans, eq_comm]

theorem planeAt_mem {ps : List Plane} {k : Nat} (h : k < ps.length) : planeAt ps k ∈ ps := by
  simp [planeAt, List.getD_eq_getElem?_getD, h]

theorem planeAt_eq_getElem {ps : List Plane} {k : Nat} (h : k < ps.length) :
    planeAt ps k = ps[k] := by
  simp [planeAt, List.getD_eq_getElem?_getD, h]

/-- The runs of a list of planes are the rows of its slots. -/
theorem mem_flatMap_spans {ps : List Plane} {s : Span} :
    s ∈ ps.flatMap Plane.spans ↔ ∃ k < ps.length, ∃ y < (planeAt ps k).rows,
      s = ⟨(planeAt ps k).base + y * (planeAt ps k).stride, (planeAt ps k).rb⟩ := by
  constructor
  · intro h
    obtain ⟨p, hp, hs⟩ := List.mem_flatMap.mp h
    obtain ⟨k, hk, rfl⟩ := List.getElem_of_mem hp
    obtain ⟨y, hy, rfl⟩ := mem_spans.mp hs
    exact ⟨k, hk, y, by rwa [planeAt_eq_getElem hk], by rw [planeAt_eq_getElem hk]⟩
  · rintro ⟨k, hk, y, hy, rfl⟩
    exact List.mem_flatMap.mpr ⟨_, planeAt_mem hk, mem_spans.mpr ⟨y, hy, rfl⟩⟩

theorem inFootprint_iff_span {ps : List Plane} {a : Nat} :
    InFootprint ps a ↔ ∃ s ∈ ps.flatMap Plane.spans, ∃ j < s.len, address (s.start + j) = a := by
  constructor
  · rintro ⟨k, y, off, ⟨hk, hy, ho⟩, rfl⟩
    exact ⟨_, mem_flatMap_spans.mpr ⟨k, hk, y, hy, rfl⟩, off, ho, rfl⟩
  · rintro ⟨s, hs, j, hj, rfl⟩
    obtain ⟨k, hk, y, hy, rfl⟩ := mem_flatMap_spans.mp hs
    exact ⟨k, y, j, ⟨hk, hy, hj⟩, rfl⟩

/-- The runs are pairwise disjoint exactly when distinct rows share no address. -/
theorem pairwise_spans_iff (ps : List Plane) :
    ((ps.flatMap Plane.spans).Pairwise fun s t => s.disjoint t = true) ↔
      ∀ k y off k' y' off', IsPosition ps k y off → IsPosition ps k' y' off' →
        (planeAt ps k).addr y off = (planeAt ps k').addr y' off' → k = k' ∧ y = y' := by
  rw [List.pairwise_flatMap]
  constructor
  · rintro ⟨hin, hout⟩ k y off k' y' off' ⟨hk, hy, ho⟩ ⟨hk', hy', ho'⟩ he
    rw [List.pairwise_iff_getElem] at hout
    have cross : ∀ i j (hi : i < ps.length) (hj : j < ps.length), i < j → ∀ u v a b,
        u < ps[i].rows → a < ps[i].rb → v < ps[j].rows → b < ps[j].rb →
        ps[i].addr u a ≠ ps[j].addr v b := by
      intro i j hi hj hij u v a b hu ha hv hb
      have := hout i j hi hj hij _ (mem_spans.mpr ⟨u, hu, rfl⟩) _ (mem_spans.mpr ⟨v, hv, rfl⟩)
      exact (Span.disjoint_iff _ _).mp this a ha b hb
    simp only [planeAt_eq_getElem hk, planeAt_eq_getElem hk'] at *
    rcases Nat.lt_trichotomy k k' with h | h | h
    · exact absurd he (cross k k' hk hk' h y y' off off' hy ho hy' ho')
    · subst h
      refine ⟨rfl, ?_⟩
      have hrow := hin ps[k] (List.getElem_mem hk)
      simp only [Plane.spans, List.pairwise_map] at hrow
      rw [List.pairwise_iff_getElem] at hrow
      have rows : ∀ u v a b, u < v → v < ps[k].rows → a < ps[k].rb → b < ps[k].rb →
          ps[k].addr u a ≠ ps[k].addr v b := by
        intro u v a b huv hv ha hb
        have := hrow u v (by simpa using Nat.lt_trans huv hv) (by simpa using hv) huv
        simp only [List.getElem_range] at this
        exact (Span.disjoint_iff _ _).mp this a ha b hb
      rcases Nat.lt_trichotomy y y' with h | h | h
      · exact absurd he (rows y y' off off' h hy' ho ho')
      · exact h
      · exact absurd he.symm (rows y' y off' off h hy ho' ho)
    · exact absurd he.symm (cross k' k hk' hk h y' y off' off hy' ho' hy ho)
  · intro h
    refine ⟨fun p hp => ?_, ?_⟩
    · obtain ⟨k, hk, rfl⟩ := List.getElem_of_mem hp
      simp only [Plane.spans, List.pairwise_map]
      rw [List.pairwise_iff_getElem]
      intro u v hu hv huv
      rw [List.length_range] at hu hv
      simp only [List.getElem_range]
      refine (Span.disjoint_iff _ _).mpr fun a ha b hb he => ?_
      have := (h k u a k v b ⟨hk, by rwa [planeAt_eq_getElem hk], by rwa [planeAt_eq_getElem hk]⟩
        ⟨hk, by rwa [planeAt_eq_getElem hk], by rwa [planeAt_eq_getElem hk]⟩
        (by rw [planeAt_eq_getElem hk]; exact he)).2
      omega
    · rw [List.pairwise_iff_getElem]
      intro i j hi hj hij s hs t ht
      obtain ⟨u, hu, rfl⟩ := mem_spans.mp hs
      obtain ⟨v, hv, rfl⟩ := mem_spans.mp ht
      refine (Span.disjoint_iff _ _).mpr fun a ha b hb he => ?_
      have := (h i u a j v b ⟨hi, by rwa [planeAt_eq_getElem hi], by rwa [planeAt_eq_getElem hi]⟩
        ⟨hj, by rwa [planeAt_eq_getElem hj], by rwa [planeAt_eq_getElem hj]⟩
        (by rw [planeAt_eq_getElem hi, planeAt_eq_getElem hj]; exact he)).1
      omega

/-- The row-by-row check is the footprint precondition of rule R68. -/
theorem footprintsOk_iff (reads writes : List Plane) :
    footprintsOk reads writes = true ↔ FootprintPrecondition reads writes := by
  have hlen : (∀ s ∈ writes.flatMap Plane.spans, s.len ≤ Config.memBytes) ↔
      ∀ k y off off', IsPosition writes k y off → IsPosition writes k y off' →
        (planeAt writes k).addr y off = (planeAt writes k).addr y off' → off = off' := by
    constructor
    · rintro h k y off off' ⟨hk, hy, ho⟩ ⟨-, -, ho'⟩ he
      have := h _ (mem_flatMap_spans.mpr ⟨k, hk, y, hy, rfl⟩)
      simp only [Plane.addr, address_eq_iff] at he
      unfold Config.memBytes at *
      simp only at this
      omega
    · intro h s hs
      obtain ⟨k, hk, y, hy, rfl⟩ := mem_flatMap_spans.mp hs
      by_contra hgt
      simp only [Nat.not_le] at hgt
      have := h k y 0 Config.memBytes ⟨hk, hy, by omega⟩ ⟨hk, hy, hgt⟩
        (by simp only [Plane.addr, address_eq_iff]; unfold Config.memBytes; omega)
      unfold Config.memBytes at this
      omega
  simp only [footprintsOk, Bool.and_eq_true, List.all_eq_true, decide_eq_true_eq,
    spansDisjoint_iff, pairwise_spans_iff, hlen, FootprintPrecondition]
  constructor
  · rintro ⟨⟨hl, hp⟩, hd⟩
    refine ⟨fun k y off k' y' off' h h' he => ?_, fun a hw hr => ?_⟩
    · obtain ⟨rfl, rfl⟩ := hp k y off k' y' off' h h' he
      exact ⟨rfl, rfl, hl k y off off' h h' he⟩
    · obtain ⟨s, hs, j, hj, rfl⟩ := inFootprint_iff_span.mp hw
      obtain ⟨t, ht, i, hi, he⟩ := inFootprint_iff_span.mp hr
      exact (Span.disjoint_iff s t).mp (hd s hs t ht) j hj i hi he.symm
  · rintro ⟨hinj, hdis⟩
    refine ⟨⟨fun k y off off' h h' he => (hinj k y off k y off' h h' he).2.2,
      fun k y off k' y' off' h h' he => ?_⟩, fun s hs t ht => ?_⟩
    · obtain ⟨h1, h2, -⟩ := hinj k y off k' y' off' h h' he
      exact ⟨h1, h2⟩
    · refine (Span.disjoint_iff s t).mpr fun j hj i hi he => ?_
      exact hdis _ (inFootprint_iff_span.mpr ⟨s, hs, j, hj, rfl⟩)
        (inFootprint_iff_span.mpr ⟨t, ht, i, hi, he.symm⟩)

end Sys2Proof.Machine
end

