-- ==== Sys2Proof/Laws/Ops.lean ====
section
/-! SUPPORT. What each shared operation and each meaning can do, said once: the argument checks, the common
stages of a data command, the eighteen meanings, the step. -/

namespace Sys2Proof.Machine

/-! ### The argument checks -/

theorem find_fst_map_eq_none {α : Type} (l : List (Bool × α)) :
    (l.find? (·.1)).map (·.2) = none ↔ ∀ p ∈ l, p.1 = false := by
  rw [Option.map_eq_none_iff, List.find?_eq_none]
  exact forall₂_congr fun p _ => by simp

/-- The twelve checks pass exactly when none of the twelve conditions holds. -/
theorem argFault_eq_none_iff (cls : CommandClass) (ns nd : Nat) (d : Descriptor) :
    argFault cls ns nd d = none ↔
      (1 ≤ ns → d.src0Addr ≠ 0) ∧ (2 ≤ ns → d.src1Addr ≠ 0) ∧ (3 ≤ ns → d.src2Addr ≠ 0)
      ∧ d.dst0Addr ≠ 0 ∧ (2 ≤ nd → d.dst1Addr ≠ 0) ∧ (3 ≤ nd → d.dst2Addr ≠ 0)
      ∧ 0 < widthOf d ∧ heightOf d ≠ 0
      ∧ (cls = .scale → 0 < dwidthOf d) ∧ (cls = .scale → 0 < dheightOf d)
      ∧ (cls = .demosaic → widthOf d % 2 = 0) ∧ (cls = .demosaic → heightOf d % 2 = 0) := by
  rw [argFault, find_fst_map_eq_none]
  simp [argChecks, Config.null]

/-- An image in a format of one of the three families has one to three planes. -/
theorem pixelGeom_length {f : PixelFormat} (hf : f.isYuv = true ∨ f.isRgb = true ∨ f.isBayer = true)
    (w h : Nat) : 1 ≤ (pixelGeom f w h).length ∧ (pixelGeom f w h).length ≤ 3 := by
  cases f with
  | yuv f => cases f <;> simp [pixelGeom, yuvGeom, planarGeom]
  | rgb f => simp [pixelGeom, rgbGeom]
  | bayer f => simp [pixelGeom, bayerGeom]
  | none => simp [PixelFormat.isYuv, PixelFormat.isRgb, PixelFormat.isBayer] at hf
  | reserved c => simp [PixelFormat.isYuv, PixelFormat.isRgb, PixelFormat.isBayer] at hf

/-- A data command uses one to three source slots and one to three destination slots. -/
theorem geom_lengths {i : Instr} (hi : i ≠ .endList) (hw : i.wellFormed = true) (d : Descriptor) :
    (1 ≤ (sourceGeom i d).length ∧ (sourceGeom i d).length ≤ 3)
      ∧ 1 ≤ (destGeom i d).length ∧ (destGeom i d).length ≤ 3 := by
  cases i <;>
    simp only [Instr.wellFormed, Instr.sourceLegal, Instr.destLegal, Bool.and_eq_true] at hw <;>
    simp only [sourceGeom, destGeom, scaleSourceGeom, scaleDestGeom, List.length_cons,
      List.length_nil] <;>
    first
      | exact absurd rfl hi
      | omega
      | exact ⟨pixelGeom_length (by tauto) _ _, pixelGeom_length (by tauto) _ _⟩

theorem forall_lt_three {n : Nat} (h : n ≤ 3) (P : Nat → Prop) :
    (∀ k < n, P k) ↔ (1 ≤ n → P 0) ∧ (2 ≤ n → P 1) ∧ (3 ≤ n → P 2) := by
  constructor
  · exact fun hp => ⟨fun _ => hp 0 (by omega), fun _ => hp 1 (by omega), fun _ => hp 2 (by omega)⟩
  · rintro ⟨h0, h1, h2⟩ k hk
    obtain rfl | rfl | rfl : k = 0 ∨ k = 1 ∨ k = 2 := by omega
    · exact h0 (by omega)
    · exact h1 (by omega)
    · exact h2 (by omega)

theorem commandClass_eq_none_iff (i : Instr) : commandClass i = none ↔ i = .endList := by
  cases i <;> simp [commandClass]

/-- The checks of a data command pass exactly when its operands meet rule R134. -/
theorem instrArgFault_eq_none_iff {i : Instr} (hi : i ≠ .endList) (hw : i.wellFormed = true)
    (d : Descriptor) : instrArgFault i d = none ↔ ArgsOk i d := by
  obtain ⟨⟨-, hs⟩, hd1, hd⟩ := geom_lengths hi hw d
  unfold instrArgFault ArgsOk
  rw [forall_lt_three hs, forall_lt_three hd]
  cases hc : commandClass i with
  | none => exact absurd ((commandClass_eq_none_iff i).mp hc) hi
  | some cls =>
    simp only [argFault_eq_none_iff, srcAddr, dstAddr, Config.null, Option.some.injEq, hd1,
      true_implies, imp_and, and_assoc]

/-! ### The common stages -/

theorem raiseIllegal_eq (c : IllegalCause) (s : State) :
    raiseIllegal c s = .next (raise (.illegalCommand c) s) := rfl

/-- All that the common stages of a data command can do: raise the first failing argument check, store
the command's bytes and advance, or give a command with a failed footprint precondition no meaning. -/
theorem runData_cases (cls : CommandClass) (srcs dsts : List Geom) (stores : List Plane → List Store)
    (s : State) :
    (∃ c, argFault cls srcs.length dsts.length s.latch = some c
      ∧ runData cls srcs dsts stores s = .next (raise (.invalidArgument c) s))
    ∨ (argFault cls srcs.length dsts.length s.latch = none
      ∧ FootprintPrecondition (sourcePlanes s.latch srcs) (destPlanes s.latch dsts)
      ∧ runData cls srcs dsts stores s = .next (s.withMem (storeAll (destPlanes s.latch dsts)
          (stores (sourcePlanes s.latch srcs)) s.mem)).advance)
    ∨ (argFault cls srcs.length dsts.length s.latch = none
      ∧ ¬ FootprintPrecondition (sourcePlanes s.latch srcs) (destPlanes s.latch dsts)
      ∧ runData cls srcs dsts stores s = .refused .footprintPrecondition) := by
  unfold runData
  cases h : argFault cls srcs.length dsts.length s.latch with
  | some c => exact .inl ⟨c, rfl, rfl⟩
  | none =>
    simp only [true_and, ← footprintsOk_iff]
    by_cases hf : footprintsOk (sourcePlanes s.latch srcs) (destPlanes s.latch dsts) = true
    · simp [hf]
    · simp [hf]

/-! ### The meanings -/

/-- The destination stores of a data command, from the memory before it through the normalised source
planes `srcs` (rule R138). -/
def instrStores (i : Instr) (s : State) (srcs : List Plane) : List Store :=
  let w := imageWidth s.latch
  let h := imageHeight s.latch
  let z := scaleSize s.latch
  let plane0 := fun (x y : Nat) => (planeAt srcs 0).byte s.mem y x
  match i with
  | .convertYR (.yuv sf) (.rgb df) cs => rgbStores df w h fun x y =>
      inverse cs (unpackYuv sf s.mem srcs x y).y (unpackYuv sf s.mem srcs x y).u
        (unpackYuv sf s.mem srcs x y).v
  | .convertRY (.rgb sf) (.yuv df) cs => rgbToYuvStores cs df w h (unpackRgb sf s.mem srcs)
  | .convertYY (.yuv sf) (.yuv df) => yuvStores df w h (fun x y => (unpackYuv sf s.mem srcs x y).y)
      (bypassedChroma w h (unpackYuv sf s.mem srcs))
  | .convertRR (.rgb sf) (.rgb df) => rgbStores df w h (unpackRgb sf s.mem srcs)
  | .scaleNone f => scaleStores ((scaleBytes f).getD 0) z
      (pointSample z (scaleSource ((scaleBytes f).getD 0) s.mem srcs))
  | .scaleLinear f => scaleStores ((scaleBytes f).getD 0) z
      (linearSample z (scaleSource ((scaleBytes f).getD 0) s.mem srcs))
  | .scaleBilinear f => scaleStores ((scaleBytes f).getD 0) z
      (bilinearSample z (scaleSource ((scaleBytes f).getD 0) s.mem srcs))
  | .rotate0 => rotateStores .r0 w h plane0
  | .rotate90 => rotateStores .r90 w h plane0
  | .rotate180 => rotateStores .r180 w h plane0
  | .rotate270 => rotateStores .r270 w h plane0
  | .rotateUV0 => rotateUVStores .r0 w h fun x y e => plane0 (2 * x + e) y
  | .rotateUV90 => rotateUVStores .r90 w h fun x y e => plane0 (2 * x + e) y
  | .rotateUV180 => rotateUVStores .r180 w h fun x y e => plane0 (2 * x + e) y
  | .rotateUV270 => rotateUVStores .r270 w h fun x y e => plane0 (2 * x + e) y
  | .demosaicR (.bayer bf) (.rgb df) => rgbStores df w h (bayerPixel bf (mosaicSample s.mem srcs) w h)
  | .demosaicY (.bayer bf) (.yuv df) cs =>
      rgbToYuvStores cs df w h (bayerPixel bf (mosaicSample s.mem srcs) w h)
  | _ => []

/-- A legal data command runs the common stages over the planes of rule R137. -/
theorem exec_eq_runData {i : Instr} {cls : CommandClass} (hc : commandClass i = some cls)
    (hw : i.wellFormed = true) (s : State) :
    exec i s = runData cls (sourceGeom i s.latch) (destGeom i s.latch) (instrStores i s) s := by
  cases i with
  | endList => simp [commandClass] at hc
  | convertYR sf df cs =>
    cases sf <;> cases df <;> cases hc <;>
      first | rfl | (simp [Instr.wellFormed, Instr.sourceLegal, Instr.destLegal, PixelFormat.isYuv, PixelFormat.isRgb] at hw)
  | convertRY sf df cs =>
    cases sf <;> cases df <;> cases hc <;>
      first | rfl | (simp [Instr.wellFormed, Instr.sourceLegal, Instr.destLegal, PixelFormat.isYuv, PixelFormat.isRgb] at hw)
  | convertYY sf df =>
    cases sf <;> cases df <;> cases hc <;>
      first | rfl | (simp [Instr.wellFormed, Instr.sourceLegal, Instr.destLegal, PixelFormat.isYuv] at hw)
  | convertRR sf df =>
    cases sf <;> cases df <;> cases hc <;>
      first | rfl | (simp [Instr.wellFormed, Instr.sourceLegal, Instr.destLegal, PixelFormat.isRgb] at hw)
  | demosaicR sf df =>
    cases sf <;> cases df <;> cases hc <;>
      first | rfl | (simp [Instr.wellFormed, Instr.sourceLegal, Instr.destLegal, PixelFormat.isBayer, PixelFormat.isRgb] at hw)
  | demosaicY sf df cs =>
    cases sf <;> cases df <;> cases hc <;>
      first | rfl | (simp [Instr.wellFormed, Instr.sourceLegal, Instr.destLegal, PixelFormat.isBayer, PixelFormat.isYuv] at hw)
  | scaleNone f | scaleLinear f | scaleBilinear f =>
    cases hc
    cases h : scaleBytes f with
    | none =>
      cases f with
      | yuv f => cases f <;> simp_all [scaleBytes, Instr.wellFormed, Instr.sourceLegal, PixelFormat.isScalable]
      | rgb f => cases f <;> simp_all [scaleBytes, Instr.wellFormed, Instr.sourceLegal, PixelFormat.isScalable]
      | none | bayer _ | reserved _ => simp [Instr.wellFormed, Instr.sourceLegal, PixelFormat.isScalable] at hw
    | some n =>
      simp only [exec, execScaleNone, execScaleLinear, execScaleBilinear, runScale, h, sourceGeom,
        destGeom, Option.getD_some]
      congr 1
      funext srcs
      simp only [instrStores, h, Option.getD_some]
  | rotate0 | rotate90 | rotate180 | rotate270
  | rotateUV0 | rotateUV90 | rotateUV180 | rotateUV270 => cases hc; rfl

/-- The state a completed data command leaves. -/
def completed (i : Instr) (s : State) : State :=
  (s.withMem (storeAll (writePlanes i s.latch) (instrStores i s (readPlanes i s.latch)) s.mem)).advance

/-- All that a legal data command can do: raise the first failing argument check; complete; or, with a
failed footprint precondition, have no meaning. -/
theorem exec_data_cases {i : Instr} (hi : i ≠ .endList) (hw : i.wellFormed = true) (s : State) :
    (∃ c, instrArgFault i s.latch = some c ∧ exec i s = .next (raise (.invalidArgument c) s))
    ∨ (Ready i s ∧ exec i s = .next (completed i s))
    ∨ (ArgsOk i s.latch ∧ ¬ FootprintPrecondition (readPlanes i s.latch) (writePlanes i s.latch)
      ∧ exec i s = .refused .footprintPrecondition) := by
  cases hc : commandClass i with
  | none => exact absurd ((commandClass_eq_none_iff i).mp hc) hi
  | some cls =>
    rw [exec_eq_runData hc hw]
    have harg : instrArgFault i s.latch
        = argFault cls (sourceGeom i s.latch).length (destGeom i s.latch).length s.latch := by
      simp [instrArgFault, hc]
    have hok := instrArgFault_eq_none_iff hi hw s.latch
    rw [harg] at hok ⊢
    rcases runData_cases cls (sourceGeom i s.latch) (destGeom i s.latch) (instrStores i s) s with
      ⟨c, h, he⟩ | ⟨h, hf, he⟩ | ⟨h, hf, he⟩
    · exact .inl ⟨c, h, he⟩
    · exact .inr (.inl ⟨⟨hi, hw, hok.mp h, hf⟩, he⟩)
    · exact .inr (.inr ⟨hok.mp h, hf, he⟩)

/-- A form with a format code outside its legal set raises IllegalCommand (rules R100, R101). -/
theorem exec_ill_formed {i : Instr} (hw : i.wellFormed = false) (s : State) :
    exec i s = .next (raise (.illegalCommand
      (if i.sourceLegal then .badDestFormat else .badSourceFormat)) s) := by
  cases i with
  | convertYR sf df cs | convertRY sf df cs | convertYY sf df | convertRR sf df
  | demosaicR sf df | demosaicY sf df cs =>
    cases sf <;> cases df <;>
      first
        | rfl
        | simp [Instr.wellFormed, Instr.sourceLegal, Instr.destLegal, PixelFormat.isYuv,
            PixelFormat.isRgb, PixelFormat.isBayer] at hw
  | scaleNone f | scaleLinear f | scaleBilinear f =>
    cases f with
    | yuv f | rgb f =>
      cases f <;>
        first
          | rfl
          | simp [Instr.wellFormed, Instr.sourceLegal, Instr.destLegal, PixelFormat.isScalable] at hw
    | none | bayer _ | reserved _ => rfl
  | endList | rotate0 | rotate90 | rotate180 | rotate270
  | rotateUV0 | rotateUV90 | rotateUV180 | rotateUV270 =>
    simp [Instr.wellFormed, Instr.sourceLegal, Instr.destLegal] at hw

/-- All the next states of a command: the end of the list, an error, or a completed data command. -/
theorem exec_next_cases {i : Instr} {s t : State} (h : exec i s = .next t) :
    (i = .endList ∧ t = endRun s) ∨ (∃ e, t = raise e s) ∨ (Ready i s ∧ t = completed i s) := by
  by_cases hi : i = .endList
  · subst hi
    exact .inl ⟨rfl, (Host.Outcome.next.inj h).symm⟩
  cases hw : i.wellFormed with
  | false =>
    rw [exec_ill_formed hw] at h
    exact .inr (.inl ⟨_, (Host.Outcome.next.inj h).symm⟩)
  | true =>
    rcases exec_data_cases hi hw s with ⟨c, -, he⟩ | ⟨hr, he⟩ | ⟨-, -, he⟩ <;> rw [he] at h
    · exact .inr (.inl ⟨_, (Host.Outcome.next.inj h).symm⟩)
    · exact .inr (.inr ⟨hr, (Host.Outcome.next.inj h).symm⟩)
    · cases h

/-! ### The step -/

/-- All the next states of a step. -/
theorem step_next_cases {s t : State} (h : step s = .next t) :
    (s.busy = false ∧ t = s)
    ∨ (s.busy = true ∧ t = endRun s.fetch)
    ∨ (s.busy = true ∧ ∃ e, t = raise e s.fetch)
    ∨ (s.busy = true ∧ ∃ i, decode s.fetch.latch.cmd = .ok i ∧ Ready i s.fetch
        ∧ t = completed i s.fetch) := by
  unfold step at h
  cases hb : s.busy with
  | false =>
    simp only [hb, Bool.false_eq_true, if_false] at h
    exact .inl ⟨rfl, (Host.Outcome.next.inj h).symm⟩
  | true =>
    simp only [hb, if_true] at h
    cases hd : decode s.fetch.latch.cmd with
    | error c =>
      simp only [hd] at h
      exact .inr (.inr (.inl ⟨rfl, _, (Host.Outcome.next.inj h).symm⟩))
    | ok i =>
      simp only [hd] at h
      rcases exec_next_cases h with ⟨-, ht⟩ | ⟨e, ht⟩ | ⟨hr, ht⟩
      · exact .inr (.inl ⟨rfl, ht⟩)
      · exact .inr (.inr (.inl ⟨rfl, e, ht⟩))
      · exact .inr (.inr (.inr ⟨rfl, i, rfl, hr, ht⟩))

end Sys2Proof.Machine
end

