-- ==== Sys2Proof/Laws/Host.lean ====
section
/-! SUPPORT. What the host's operations can do: register reads during a run, memory accesses and the runs of
addresses that a pending list makes hazards. -/

namespace Sys2Proof.Machine

/-! ### Register reads -/

@[simp] theorem momentAhead_zero (s : State) : momentAhead 0 s = s := rfl

theorem momentAhead_one (s : State) : momentAhead 1 s = if s.busy then s.fetch else s := rfl

/-- A later moment of a running engine, when the next step answers. -/
theorem momentAhead_add_two {s t : State} (n : Nat) (hb : s.busy = true) (h : step s = .next t) :
    momentAhead (n + 2) s = momentAhead n t := by
  simp [momentAhead, hb, h]

/-- An idle engine holds one state at every moment. -/
theorem momentAhead_idle {s : State} (hb : s.busy = false) : (n : Nat) → momentAhead n s = s
  | 0 => rfl
  | 1 => by simp [momentAhead, hb]
  | n + 2 => by simp [momentAhead, hb]

/-- All that a register read can answer. -/
theorem readRegister_cases (size offset moment : Nat) (s : State) :
    (registerAccessOk size offset = true ∧ (readRegister size offset moment s = .ok (registerValue offset s)
      ∨ (isInspectionWindow offset = true
        ∧ readRegister size offset moment s = .ok (registerValue offset (momentAhead moment s)))))
    ∨ (registerAccessOk size offset = false ∧ readRegister size offset moment s = .error .badRegisterAccess) := by
  unfold readRegister
  cases registerAccessOk size offset <;> cases isInspectionWindow offset <;> simp

/-! ### Memory accesses -/

/-- Nothing is pending on an idle engine. -/
theorem runHazards_idle (hazards : State → List Span) (n : Nat) (seen : List Outlook) {o : Outlook}
    (hb : o.state.busy = false) : runHazards hazards n seen o = some [] := by
  cases n <;> simp [runHazards, Outlook.settled, hb]

/-- The runs found for a running engine contain those of its next command. -/
theorem mem_runHazards {hazards : State → List Span} {n : Nat} {s : State} {l : List Span} {sp : Span}
    (hb : s.busy = true) (h : runHazards hazards n [] ⟨s, []⟩ = some l) (hsp : sp ∈ hazards s) : sp ∈ l := by
  cases n with
  | zero => simp [runHazards, Outlook.settled, hb] at h
  | succ n =>
    simp only [runHazards, Outlook.settled, hb, Bool.not_true, Bool.false_or, List.contains_nil,
      Bool.false_eq_true, if_false] at h
    split at h
    · obtain ⟨l', -, rfl⟩ := Option.map_eq_some_iff.mp h
      exact List.mem_append_left _ hsp
    · cases h

/-- While the engine is idle the host's accesses to memory are free (10_state.md rule R35). -/
theorem hostAccessOk_idle (hazards : State → List Span) (bound : Nat) (a : Int) (n : Nat) {s : State}
    (hb : s.busy = false) : hostAccessOk hazards bound a n s = true := by
  simp [hostAccessOk, runHazards_idle hazards bound [] (o := ⟨s, []⟩) hb, outside]

/-- An allowed access to a running engine's memory meets no run of the next command. -/
theorem disjoint_of_hostAccessOk {hazards : State → List Span} {bound : Nat} {a : Int} {n : Nat} {s : State}
    {sp : Span} (hb : s.busy = true) (h : hostAccessOk hazards bound a n s = true) (hsp : sp ∈ hazards s) :
    sp.disjoint ⟨a, n⟩ = true := by
  unfold hostAccessOk at h
  cases hr : runHazards hazards bound [] ⟨s, []⟩ with
  | none => simp [hr] at h
  | some l =>
    simp only [hr, outside, List.all_eq_true] at h
    exact h sp (mem_runHazards hb hr hsp)

/-- All that a host store can answer. -/
theorem hostStore_cases (bound : Nat) (a : Int) (n v : Nat) (s : State) :
    (hostAccessOk writeHazards bound a n s = true
      ∧ hostStore bound a n v s = .next (s.withMem (s.mem.write a n v)))
    ∨ (hostAccessOk writeHazards bound a n s = false ∧ hostStore bound a n v s = .refused .hostHazard) := by
  unfold hostStore
  cases hostAccessOk writeHazards bound a n s <;> simp

/-- All that a host load can answer. -/
theorem hostLoad_cases (bound : Nat) (a : Int) (n : Nat) (s : State) :
    (hostAccessOk readHazards bound a n s = true ∧ hostLoad bound a n s = .ok (s.mem.read a n))
    ∨ (hostAccessOk readHazards bound a n s = false ∧ hostLoad bound a n s = .error .hostHazard) := by
  unfold hostLoad
  cases hostAccessOk readHazards bound a n s <;> simp

end Sys2Proof.Machine
end

