-- ==== Sys2Proof/Laws/PerInstr.lean ====
section
/-! SUPPORT. Families of statements made once per instruction. -/

namespace Sys2Proof.Laws

/-- The row of the opcode map (30_encoding.md rule R100) that a constructor stands for, counted from 0. -/
def formIndex : Instr → Nat
  | .endList => 0
  | .convertYR _ _ _ => 1
  | .convertRY _ _ _ => 2
  | .convertYY _ _ => 3
  | .convertRR _ _ => 4
  | .scaleNone _ => 5
  | .scaleLinear _ => 6
  | .scaleBilinear _ => 7
  | .rotate0 => 8
  | .rotate90 => 9
  | .rotate180 => 10
  | .rotate270 => 11
  | .rotateUV0 => 12
  | .rotateUV90 => 13
  | .rotateUV180 => 14
  | .rotateUV270 => 15
  | .demosaicR _ _ => 16
  | .demosaicY _ _ _ => 17

namespace RowSelectsWord

/-- The command word of a legal instruction matches the mask and pattern of its own row of rule R100. -/
def Statement (i : Instr) : Prop :=
  i.wellFormed = true → (formTable[formIndex i]?.map (·.selects (encodeWord i))) = some true

theorem endList : Statement .endList := fun _ => by decide

theorem convertYR (sfmt dfmt : PixelFormat) (cs : ColourStandard) :
    Statement (.convertYR sfmt dfmt cs) := by
  intro h
  cases sfmt with
  | yuv sf => cases dfmt with
    | rgb df => cases sf <;> cases df <;> cases cs <;> decide
    | none | yuv _ | bayer _ | reserved _ => simp [Instr.wellFormed, Instr.destLegal, PixelFormat.isRgb] at h
  | none | rgb _ | bayer _ | reserved _ => simp [Instr.wellFormed, Instr.sourceLegal, PixelFormat.isYuv] at h

theorem convertRY (sfmt dfmt : PixelFormat) (cs : ColourStandard) :
    Statement (.convertRY sfmt dfmt cs) := by
  intro h
  cases sfmt with
  | rgb sf => cases dfmt with
    | yuv df => cases sf <;> cases df <;> cases cs <;> decide
    | none | rgb _ | bayer _ | reserved _ => simp [Instr.wellFormed, Instr.destLegal, PixelFormat.isYuv] at h
  | none | yuv _ | bayer _ | reserved _ => simp [Instr.wellFormed, Instr.sourceLegal, PixelFormat.isRgb] at h

theorem convertYY (sfmt dfmt : PixelFormat) : Statement (.convertYY sfmt dfmt) := by
  intro h
  cases sfmt with
  | yuv sf => cases dfmt with
    | yuv df => cases sf <;> cases df <;> decide
    | none | rgb _ | bayer _ | reserved _ => simp [Instr.wellFormed, Instr.destLegal, PixelFormat.isYuv] at h
  | none | rgb _ | bayer _ | reserved _ => simp [Instr.wellFormed, Instr.sourceLegal, PixelFormat.isYuv] at h

theorem convertRR (sfmt dfmt : PixelFormat) : Statement (.convertRR sfmt dfmt) := by
  intro h
  cases sfmt with
  | rgb sf => cases dfmt with
    | rgb df => cases sf <;> cases df <;> decide
    | none | yuv _ | bayer _ | reserved _ => simp [Instr.wellFormed, Instr.destLegal, PixelFormat.isRgb] at h
  | none | yuv _ | bayer _ | reserved _ => simp [Instr.wellFormed, Instr.sourceLegal, PixelFormat.isRgb] at h

theorem scaleNone (sfmt : PixelFormat) : Statement (.scaleNone sfmt) := by
  intro h
  cases sfmt with
  | yuv f | rgb f => cases f <;> revert h <;> decide
  | none | bayer _ | reserved _ => simp [Instr.wellFormed, Instr.sourceLegal, PixelFormat.isScalable] at h

theorem scaleLinear (sfmt : PixelFormat) : Statement (.scaleLinear sfmt) := by
  intro h
  cases sfmt with
  | yuv f | rgb f => cases f <;> revert h <;> decide
  | none | bayer _ | reserved _ => simp [Instr.wellFormed, Instr.sourceLegal, PixelFormat.isScalable] at h

theorem scaleBilinear (sfmt : PixelFormat) : Statement (.scaleBilinear sfmt) := by
  intro h
  cases sfmt with
  | yuv f | rgb f => cases f <;> revert h <;> decide
  | none | bayer _ | reserved _ => simp [Instr.wellFormed, Instr.sourceLegal, PixelFormat.isScalable] at h

theorem rotate0 : Statement .rotate0 := fun _ => by decide
theorem rotate90 : Statement .rotate90 := fun _ => by decide
theorem rotate180 : Statement .rotate180 := fun _ => by decide
theorem rotate270 : Statement .rotate270 := fun _ => by decide
theorem rotateUV0 : Statement .rotateUV0 := fun _ => by decide
theorem rotateUV90 : Statement .rotateUV90 := fun _ => by decide
theorem rotateUV180 : Statement .rotateUV180 := fun _ => by decide
theorem rotateUV270 : Statement .rotateUV270 := fun _ => by decide

theorem demosaicR (sfmt dfmt : PixelFormat) : Statement (.demosaicR sfmt dfmt) := by
  intro h
  cases sfmt with
  | bayer sf => cases dfmt with
    | rgb df => cases sf <;> cases df <;> decide
    | none | yuv _ | bayer _ | reserved _ => simp [Instr.wellFormed, Instr.destLegal, PixelFormat.isRgb] at h
  | none | yuv _ | rgb _ | reserved _ => simp [Instr.wellFormed, Instr.sourceLegal, PixelFormat.isBayer] at h

theorem demosaicY (sfmt dfmt : PixelFormat) (cs : ColourStandard) :
    Statement (.demosaicY sfmt dfmt cs) := by
  intro h
  cases sfmt with
  | bayer sf => cases dfmt with
    | yuv df => cases sf <;> cases df <;> cases cs <;> decide
    | none | rgb _ | bayer _ | reserved _ => simp [Instr.wellFormed, Instr.destLegal, PixelFormat.isYuv] at h
  | none | yuv _ | rgb _ | reserved _ => simp [Instr.wellFormed, Instr.sourceLegal, PixelFormat.isBayer] at h

end RowSelectsWord

end Sys2Proof.Laws
end

