-- ==== Sys2Proof/Laws/Stores.lean ====
section
/-! SUPPORT. The stores of the data commands: which positions each form stores to, and what the memory of a
completed command holds there. -/

namespace Sys2Proof.Machine

/-! ### Membership in the store lists -/

theorem mem_storePixel {df : RgbFormat} {x y : Nat} {p : Rgba} {st : Store} :
    st ∈ storePixel df x y p ↔
      ∃ n b, (packRgb df p)[n]? = some b ∧ st = ⟨0, y, rgbBytes df * x + n, b⟩ := by
  simp only [storePixel, List.mem_map, Prod.exists, List.mem_zipIdx_iff_getElem?]
  exact ⟨fun ⟨b, n, h, e⟩ => ⟨n, b, h, e.symm⟩, fun ⟨n, b, h, e⟩ => ⟨b, n, h, e.symm⟩⟩

theorem mem_rgbStores {df : RgbFormat} {w h : Nat} {pixel : Nat → Nat → Rgba} {st : Store} :
    st ∈ rgbStores df w h pixel ↔
      ∃ x y n b, x < w ∧ y < h ∧ (packRgb df (pixel x y))[n]? = some b
        ∧ st = ⟨0, y, rgbBytes df * x + n, b⟩ := by
  simp only [rgbStores, List.mem_flatMap, List.mem_range, mem_storePixel]
  constructor
  · rintro ⟨y, hy, x, hx, n, b, hb, e⟩
    exact ⟨x, y, n, b, hx, hy, hb, e⟩
  · rintro ⟨x, y, n, b, hx, hy, hb, e⟩
    exact ⟨y, hy, x, hx, n, b, hb, e⟩

theorem mem_lumaStores {df : YuvFormat} {w h : Nat} {luma : Nat → Nat → Byte} {st : Store} :
    st ∈ lumaStores df w h luma ↔
      ∃ x y, x < lumaWidth df w ∧ y < h ∧ st = ⟨0, y, lumaOffset df x, luma (min x (w - 1)) y⟩ := by
  simp only [lumaStores, List.mem_flatMap, List.mem_map, List.mem_range, storeLuma]
  constructor
  · rintro ⟨y, hy, x, hx, rfl⟩
    exact ⟨x, y, hx, hy, rfl⟩
  · rintro ⟨x, y, hx, hy, rfl⟩
    exact ⟨y, hy, x, hx, rfl⟩

theorem mem_storeChroma {df : YuvFormat} (hdf : df ≠ .i400) {cx cy : Nat} {u v : Byte} {st : Store} :
    st ∈ storeChroma df cx cy u v ↔
      st = ⟨(chromaPlaceU df cx).1, cy, (chromaPlaceU df cx).2, u⟩
        ∨ st = ⟨(chromaPlaceV df cx).1, cy, (chromaPlaceV df cx).2, v⟩ := by
  cases df <;> simp [storeChroma, chromaPlaceU, chromaPlaceV, or_comm] at hdf ⊢

theorem mem_chromaStores {df : YuvFormat} {w h : Nat} {chroma : Nat → Nat → Nat → Nat → Byte × Byte}
    {st : Store} :
    st ∈ chromaStores df w h chroma ↔
      ∃ hs vs cx cy, subsampling df = some (hs, vs) ∧ cx < cdim w hs ∧ cy < cdim h vs
        ∧ (st = ⟨(chromaPlaceU df cx).1, cy, (chromaPlaceU df cx).2, (chroma hs vs cx cy).1⟩
          ∨ st = ⟨(chromaPlaceV df cx).1, cy, (chromaPlaceV df cx).2, (chroma hs vs cx cy).2⟩) := by
  unfold chromaStores
  cases hsub : subsampling df with
  | none => simp
  | some p =>
    obtain ⟨hs, vs⟩ := p
    have hdf : df ≠ .i400 := by rintro rfl; simp [subsampling] at hsub
    simp only [List.mem_flatMap, List.mem_range, mem_storeChroma hdf, Option.some.injEq, Prod.mk.injEq]
    constructor
    · rintro ⟨cy, hcy, cx, hcx, h⟩
      exact ⟨hs, vs, cx, cy, ⟨rfl, rfl⟩, hcx, hcy, h⟩
    · rintro ⟨hs', vs', cx, cy, ⟨rfl, rfl⟩, hcx, hcy, h⟩
      exact ⟨cy, hcy, cx, hcx, h⟩

theorem mem_scaleStores {n : Nat} {z : ScaleSize} {value : Nat → Nat → Nat → Byte} {st : Store} :
    st ∈ scaleStores n z value ↔
      ∃ i j c, i < z.dh ∧ j < z.dw ∧ c < n ∧ st = ⟨0, i, n * j + c, value j i c⟩ := by
  simp only [scaleStores, List.mem_flatMap, List.mem_map, List.mem_range]
  constructor
  · rintro ⟨i, hi, j, hj, c, hc, rfl⟩
    exact ⟨i, j, c, hi, hj, hc, rfl⟩
  · rintro ⟨i, j, c, hi, hj, hc, rfl⟩
    exact ⟨i, hi, j, hj, c, hc, rfl⟩

theorem mem_rotateStores {rot : Rotation} {w h : Nat} {sample : Nat → Nat → Byte} {st : Store} :
    st ∈ rotateStores rot w h sample ↔
      ∃ x y, x < w ∧ y < h ∧ st = ⟨0, (place rot w h x y).2, (place rot w h x y).1, sample x y⟩ := by
  simp only [rotateStores, List.mem_flatMap, List.mem_map, List.mem_range]
  constructor
  · rintro ⟨y, hy, x, hx, rfl⟩
    exact ⟨x, y, hx, hy, rfl⟩
  · rintro ⟨x, y, hx, hy, rfl⟩
    exact ⟨y, hy, x, hx, rfl⟩

theorem mem_rotateUVStores {rot : Rotation} {w h : Nat} {sample : Nat → Nat → Nat → Byte} {st : Store} :
    st ∈ rotateUVStores rot w h sample ↔
      ∃ x y e, x < w ∧ y < h ∧ e < 2
        ∧ st = ⟨e, (place rot w h x y).2, (place rot w h x y).1, sample x y e⟩ := by
  simp only [rotateUVStores, List.mem_flatMap, List.mem_range, List.mem_cons, List.not_mem_nil, or_false]
  constructor
  · rintro ⟨y, hy, x, hx, rfl | rfl⟩
    · exact ⟨x, y, 0, hx, hy, by omega, rfl⟩
    · exact ⟨x, y, 1, hx, hy, by omega, rfl⟩
  · rintro ⟨x, y, e, hx, hy, he, rfl⟩
    obtain rfl | rfl : e = 0 ∨ e = 1 := by omega
    · exact ⟨y, hy, x, hx, .inl rfl⟩
    · exact ⟨y, hy, x, hx, .inr rfl⟩

/-! ### The planes of a command -/

theorem destPlanes_length (d : Descriptor) (gs : List Geom) : (destPlanes d gs).length = gs.length := by
  simp [destPlanes]

theorem planeAt_destPlanes (d : Descriptor) {gs : List Geom} {k : Nat} {g : Geom} (hg : gs[k]? = some g) :
    planeAt (destPlanes d gs) k = destPlane d k g := by
  simp [planeAt, destPlanes, List.getD_eq_getElem?_getD, hg]

theorem planeAt_sourcePlanes (d : Descriptor) {gs : List Geom} {k : Nat} {g : Geom}
    (hg : gs[k]? = some g) : planeAt (sourcePlanes d gs) k = sourcePlane d k g := by
  simp [planeAt, sourcePlanes, List.getD_eq_getElem?_getD, hg]

/-- The positions of a command's destination planes, from their geometry. -/
theorem isPosition_destPlanes {d : Descriptor} {gs : List Geom} {k y off : Nat} :
    IsPosition (destPlanes d gs) k y off ↔ ∃ g, gs[k]? = some g ∧ y < g.rows ∧ off < g.rb := by
  constructor
  · rintro ⟨hk, hy, ho⟩
    rw [destPlanes_length] at hk
    have hg := List.getElem?_eq_getElem hk
    rw [planeAt_destPlanes d hg] at hy ho
    exact ⟨_, hg, hy, ho⟩
  · rintro ⟨g, hg, hy, ho⟩
    refine ⟨?_, ?_, ?_⟩
    · rw [destPlanes_length]
      exact (List.getElem?_eq_some_iff.mp hg).1
    · rw [planeAt_destPlanes d hg]; exact hy
    · rw [planeAt_destPlanes d hg]; exact ho

/-! ### The positions the stores go to -/

theorem packRgb_length (f : RgbFormat) (p : Rgba) : (packRgb f p).length = rgbBytes f := by
  cases f <;> rfl

theorem rgb_offset_lt {f : RgbFormat} {p : Rgba} {n : Nat} {b : Byte} (h : (packRgb f p)[n]? = some b)
    {x w : Nat} (hx : x < w) : rgbBytes f * x + n < rgbBytes f * w := by
  have hn : n < rgbBytes f := packRgb_length f p ▸ (List.getElem?_eq_some_iff.mp h).1
  calc rgbBytes f * x + n < rgbBytes f * x + rgbBytes f := by omega
    _ = rgbBytes f * (x + 1) := by ring
    _ ≤ rgbBytes f * w := Nat.mul_le_mul_left _ hx

theorem chromaPlace_position {df : YuvFormat} {hs vs cx cy w h : Nat} (hsub : subsampling df = some (hs, vs))
    (hx : cx < cdim w hs) (hy : cy < cdim h vs) :
    (∃ g, (yuvGeom df w h)[(chromaPlaceU df cx).1]? = some g ∧ cy < g.rows ∧ (chromaPlaceU df cx).2 < g.rb)
    ∧ ∃ g, (yuvGeom df w h)[(chromaPlaceV df cx).1]? = some g ∧ cy < g.rows
      ∧ (chromaPlaceV df cx).2 < g.rb := by
  cases df <;> simp only [subsampling, Option.some.injEq, Prod.mk.injEq, reduceCtorEq] at hsub <;>
    obtain ⟨rfl, rfl⟩ := hsub <;>
    simp only [yuvGeom, planarGeom, chromaPlaceU, chromaPlaceV, cdim] at hx hy ⊢ <;>
    refine ⟨⟨_, rfl, ?_, ?_⟩, ⟨_, rfl, ?_, ?_⟩⟩ <;> simp only [] <;> omega

theorem luma_position {df : YuvFormat} {x y w h : Nat} (hx : x < lumaWidth df w) (hy : y < h) :
    ∃ g, (yuvGeom df w h)[0]? = some g ∧ y < g.rows ∧ lumaOffset df x < g.rb := by
  cases df <;> simp only [lumaWidth, lumaOffset, yuvGeom, planarGeom, cdim] at hx ⊢ <;>
    exact ⟨_, rfl, hy, by simp only []; omega⟩

theorem place_lt (rot : Rotation) {w h x y : Nat} (hx : x < w) (hy : y < h) :
    (place rot w h x y).2 < (rotatedGeom rot w h).rows ∧ (place rot w h x y).1 < (rotatedGeom rot w h).rb := by
  cases rot <;> simp only [place, rotatedGeom] <;> omega

theorem yuvStores_position {df : YuvFormat} {w h : Nat} {luma : Nat → Nat → Byte}
    {chroma : Nat → Nat → Nat → Nat → Byte × Byte} {st : Store} (hst : st ∈ yuvStores df w h luma chroma) :
    ∃ g, (yuvGeom df w h)[st.plane]? = some g ∧ st.row < g.rows ∧ st.off < g.rb := by
  rcases List.mem_append.mp hst with hl | hc
  · obtain ⟨x, y, hx, hy, rfl⟩ := mem_lumaStores.mp hl
    exact luma_position hx hy
  · obtain ⟨hs, vs, cx, cy, hsub, hx, hy, rfl | rfl⟩ := mem_chromaStores.mp hc
    · exact (chromaPlace_position hsub hx hy).1
    · exact (chromaPlace_position hsub hx hy).2

theorem rgbStores_position {df : RgbFormat} {w h : Nat} {pixel : Nat → Nat → Rgba} {st : Store}
    (hst : st ∈ rgbStores df w h pixel) :
    ∃ g, (rgbGeom df w h)[st.plane]? = some g ∧ st.row < g.rows ∧ st.off < g.rb := by
  obtain ⟨x, y, n, b, hx, hy, hb, rfl⟩ := mem_rgbStores.mp hst
  exact ⟨_, rfl, hy, rgb_offset_lt hb hx⟩

theorem scaleStores_position {n : Nat} {z : ScaleSize} {value : Nat → Nat → Nat → Byte} {st : Store}
    (hst : st ∈ scaleStores n z value) :
    ∃ g, (scaleDestGeom n z)[st.plane]? = some g ∧ st.row < g.rows ∧ st.off < g.rb := by
  obtain ⟨i, j, c, hi, hj, hc, rfl⟩ := mem_scaleStores.mp hst
  refine ⟨_, rfl, hi, ?_⟩
  calc n * j + c < n * j + n := by omega
    _ = n * (j + 1) := by ring
    _ ≤ n * z.dw := Nat.mul_le_mul_left _ hj

theorem rotateStores_position {rot : Rotation} {w h : Nat} {sample : Nat → Nat → Byte} {st : Store}
    (hst : st ∈ rotateStores rot w h sample) :
    ∃ g, [rotatedGeom rot w h][st.plane]? = some g ∧ st.row < g.rows ∧ st.off < g.rb := by
  obtain ⟨x, y, hx, hy, rfl⟩ := mem_rotateStores.mp hst
  exact ⟨_, rfl, place_lt rot hx hy⟩

theorem rotateUVStores_position {rot : Rotation} {w h : Nat} {sample : Nat → Nat → Nat → Byte} {st : Store}
    (hst : st ∈ rotateUVStores rot w h sample) :
    ∃ g, [rotatedGeom rot w h, rotatedGeom rot w h][st.plane]? = some g ∧ st.row < g.rows
      ∧ st.off < g.rb := by
  obtain ⟨x, y, e, hx, hy, he, rfl⟩ := mem_rotateUVStores.mp hst
  obtain rfl | rfl : e = 0 ∨ e = 1 := by omega
  · exact ⟨_, rfl, place_lt rot hx hy⟩
  · exact ⟨_, rfl, place_lt rot hx hy⟩

/-- Every store of a legal data command goes to a position of its destination planes. -/
theorem instrStores_position {i : Instr} {s : State} {srcs : List Plane} {st : Store}
    (hst : st ∈ instrStores i s srcs) : IsPosition (writePlanes i s.latch) st.plane st.row st.off := by
  rw [writePlanes, isPosition_destPlanes]
  cases i with
  | endList => simp [instrStores] at hst
  | convertYR sf df cs =>
    cases sf <;> cases df <;> first | exact rgbStores_position hst | simp [instrStores] at hst
  | convertRY sf df cs =>
    cases sf <;> cases df <;> first | exact yuvStores_position hst | simp [instrStores] at hst
  | convertYY sf df =>
    cases sf <;> cases df <;> first | exact yuvStores_position hst | simp [instrStores] at hst
  | convertRR sf df =>
    cases sf <;> cases df <;> first | exact rgbStores_position hst | simp [instrStores] at hst
  | demosaicR sf df =>
    cases sf <;> cases df <;> first | exact rgbStores_position hst | simp [instrStores] at hst
  | demosaicY sf df cs =>
    cases sf <;> cases df <;> first | exact yuvStores_position hst | simp [instrStores] at hst
  | scaleNone f | scaleLinear f | scaleBilinear f => exact scaleStores_position hst
  | rotate0 | rotate90 | rotate180 | rotate270 => exact rotateStores_position hst
  | rotateUV0 | rotateUV90 | rotateUV180 | rotateUV270 =>
    exact rotateUVStores_position
      (sample := fun x y e => (planeAt srcs 0).byte s.mem y (2 * x + e)) hst

/-! ### Stores to one position agree -/

/-- Stores of the list to the same position store the same value. -/
def Agree (sts : List Store) : Prop :=
  ∀ st ∈ sts, ∀ st' ∈ sts, st.plane = st'.plane → st.row = st'.row → st.off = st'.off →
    st.value = st'.value

theorem mul_add_inj {n x x' c c' : Nat} (hc : c < n) (hc' : c' < n) (h : n * x + c = n * x' + c') :
    x = x' ∧ c = c' := by
  have hx : x = x' := by
    have h1 := Nat.mul_add_div (by omega : 0 < n) x c
    have h2 := Nat.mul_add_div (by omega : 0 < n) x' c'
    rw [Nat.div_eq_of_lt hc] at h1
    rw [Nat.div_eq_of_lt hc'] at h2
    rw [h] at h1
    omega
  subst hx
  exact ⟨rfl, by omega⟩

theorem rgbStores_agree (df : RgbFormat) (w h : Nat) (pixel : Nat → Nat → Rgba) :
    Agree (rgbStores df w h pixel) := by
  rintro st hst st' hst' - hrow hoff
  obtain ⟨x, y, n, b, -, -, hb, rfl⟩ := mem_rgbStores.mp hst
  obtain ⟨x', y', n', b', -, -, hb', rfl⟩ := mem_rgbStores.mp hst'
  have hn : n < rgbBytes df := packRgb_length df _ ▸ (List.getElem?_eq_some_iff.mp hb).1
  have hn' : n' < rgbBytes df := packRgb_length df _ ▸ (List.getElem?_eq_some_iff.mp hb').1
  obtain ⟨rfl, rfl⟩ := mul_add_inj hn hn' hoff
  obtain rfl : y = y' := hrow
  exact Option.some.inj (hb.symm.trans hb')

theorem scaleStores_agree (n : Nat) (z : ScaleSize) (value : Nat → Nat → Nat → Byte) :
    Agree (scaleStores n z value) := by
  rintro st hst st' hst' - hrow hoff
  obtain ⟨i, j, c, -, -, hc, rfl⟩ := mem_scaleStores.mp hst
  obtain ⟨i', j', c', -, -, hc', rfl⟩ := mem_scaleStores.mp hst'
  obtain ⟨rfl, rfl⟩ := mul_add_inj hc hc' hoff
  obtain rfl : i = i' := hrow
  rfl

theorem place_inj (rot : Rotation) {w h x y x' y' : Nat} (hx : x < w) (hy : y < h) (hx' : x' < w)
    (hy' : y' < h) (he : place rot w h x y = place rot w h x' y') : x = x' ∧ y = y' := by
  cases rot <;> simp only [place, Prod.mk.injEq] at he <;> omega

theorem rotateStores_agree (rot : Rotation) (w h : Nat) (sample : Nat → Nat → Byte) :
    Agree (rotateStores rot w h sample) := by
  rintro st hst st' hst' - hrow hoff
  obtain ⟨x, y, hx, hy, rfl⟩ := mem_rotateStores.mp hst
  obtain ⟨x', y', hx', hy', rfl⟩ := mem_rotateStores.mp hst'
  obtain ⟨rfl, rfl⟩ := place_inj rot hx hy hx' hy' (Prod.ext hoff hrow)
  rfl

theorem rotateUVStores_agree (rot : Rotation) (w h : Nat) (sample : Nat → Nat → Nat → Byte) :
    Agree (rotateUVStores rot w h sample) := by
  rintro st hst st' hst' hplane hrow hoff
  obtain ⟨x, y, e, hx, hy, -, rfl⟩ := mem_rotateUVStores.mp hst
  obtain ⟨x', y', e', hx', hy', -, rfl⟩ := mem_rotateUVStores.mp hst'
  obtain ⟨rfl, rfl⟩ := place_inj rot hx hy hx' hy' (Prod.ext hoff hrow)
  obtain rfl : e = e' := hplane
  rfl

theorem yuvStores_agree (df : YuvFormat) (w h : Nat) (luma : Nat → Nat → Byte)
    (chroma : Nat → Nat → Nat → Nat → Byte × Byte) : Agree (yuvStores df w h luma chroma) := by
  rintro st hst st' hst' hplane hrow hoff
  rcases List.mem_append.mp hst with hl | hc <;> rcases List.mem_append.mp hst' with hl' | hc'
  · obtain ⟨x, y, -, -, rfl⟩ := mem_lumaStores.mp hl
    obtain ⟨x', y', -, -, rfl⟩ := mem_lumaStores.mp hl'
    obtain rfl : y = y' := hrow
    obtain rfl : x = x' := by cases df <;> simp only [lumaOffset] at hoff <;> omega
    rfl
  · obtain ⟨x, y, -, -, rfl⟩ := mem_lumaStores.mp hl
    obtain ⟨hs, vs, cx, cy, hsub, -, -, rfl | rfl⟩ := mem_chromaStores.mp hc' <;> cases df <;>
      simp only [lumaOffset, chromaPlaceU, chromaPlaceV, subsampling, reduceCtorEq] at hplane hoff hsub <;>
      omega
  · obtain ⟨x, y, -, -, rfl⟩ := mem_lumaStores.mp hl'
    obtain ⟨hs, vs, cx, cy, hsub, -, -, rfl | rfl⟩ := mem_chromaStores.mp hc <;> cases df <;>
      simp only [lumaOffset, chromaPlaceU, chromaPlaceV, subsampling, reduceCtorEq] at hplane hoff hsub <;>
      omega
  · obtain ⟨hs, vs, cx, cy, hsub, -, -, hc⟩ := mem_chromaStores.mp hc
    obtain ⟨hs', vs', cx', cy', hsub', -, -, hc'⟩ := mem_chromaStores.mp hc'
    obtain ⟨rfl, rfl⟩ : hs = hs' ∧ vs = vs' := by
      simpa using Option.some.inj (hsub.symm.trans hsub')
    obtain rfl : cy = cy' := by
      rcases hc with rfl | rfl <;> rcases hc' with rfl | rfl <;> exact hrow
    rcases hc with rfl | rfl <;> rcases hc' with rfl | rfl <;> cases df <;>
      simp only [chromaPlaceU, chromaPlaceV, subsampling, reduceCtorEq] at hplane hoff hsub <;>
      first
        | omega
        | (obtain rfl : cx = cx' := by omega
           rfl)

/-- The stores of a data command to one position agree. -/
theorem instrStores_agree (i : Instr) (s : State) (srcs : List Plane) : Agree (instrStores i s srcs) := by
  have hnil : Agree [] := fun _ h => absurd h List.not_mem_nil
  cases i with
  | endList => exact hnil
  | convertYR sf df cs =>
    cases sf <;> cases df <;> first | exact hnil | exact rgbStores_agree _ _ _ _
  | convertRY sf df cs =>
    cases sf <;> cases df <;> first | exact hnil | exact yuvStores_agree _ _ _ _ _
  | convertYY sf df =>
    cases sf <;> cases df <;> first | exact hnil | exact yuvStores_agree _ _ _ _ _
  | convertRR sf df =>
    cases sf <;> cases df <;> first | exact hnil | exact rgbStores_agree _ _ _ _
  | demosaicR sf df =>
    cases sf <;> cases df <;> first | exact hnil | exact rgbStores_agree _ _ _ _
  | demosaicY sf df cs =>
    cases sf <;> cases df <;> first | exact hnil | exact yuvStores_agree _ _ _ _ _
  | scaleNone f | scaleLinear f | scaleBilinear f => exact scaleStores_agree _ _ _
  | rotate0 | rotate90 | rotate180 | rotate270 => exact rotateStores_agree _ _ _ _
  | rotateUV0 | rotateUV90 | rotateUV180 | rotateUV270 =>
    exact rotateUVStores_agree _ _ _ fun x y e => (planeAt srcs 0).byte s.mem y (2 * x + e)

/-! ### Every position is stored to -/

theorem rgbStores_cover {df : RgbFormat} {w h k y off : Nat} (pixel : Nat → Nat → Rgba) {g : Geom}
    (hg : (rgbGeom df w h)[k]? = some g) (hy : y < g.rows) (ho : off < g.rb) :
    ∃ st ∈ rgbStores df w h pixel, st.plane = k ∧ st.row = y ∧ st.off = off := by
  obtain rfl : k = 0 := by
    have := (List.getElem?_eq_some_iff.mp hg).1
    simp only [rgbGeom, List.length_cons, List.length_nil] at this
    omega
  obtain rfl : g = ⟨rgbBytes df * w, h⟩ := (Option.some.inj hg).symm
  have hpos : 0 < rgbBytes df := by cases df <;> decide
  have hn : off % rgbBytes df < (packRgb df (pixel (off / rgbBytes df) y)).length := by
    rw [packRgb_length]; exact Nat.mod_lt _ hpos
  exact ⟨_, mem_rgbStores.mpr ⟨_, y, _, _, Nat.div_lt_of_lt_mul ho, hy, List.getElem?_eq_getElem hn, rfl⟩,
    rfl, rfl, Nat.div_add_mod off _⟩

theorem scaleStores_cover {n : Nat} {z : ScaleSize} {k y off : Nat} (value : Nat → Nat → Nat → Byte)
    {g : Geom} (hg : (scaleDestGeom n z)[k]? = some g) (hy : y < g.rows) (ho : off < g.rb) :
    ∃ st ∈ scaleStores n z value, st.plane = k ∧ st.row = y ∧ st.off = off := by
  obtain rfl : k = 0 := by
    have := (List.getElem?_eq_some_iff.mp hg).1
    simp only [scaleDestGeom, List.length_cons, List.length_nil] at this
    omega
  obtain rfl : g = ⟨n * z.dw, z.dh⟩ := (Option.some.inj hg).symm
  have hpos : 0 < n := Nat.pos_of_ne_zero fun h => by simp [h] at ho
  exact ⟨_, mem_scaleStores.mpr ⟨y, off / n, off % n, hy, Nat.div_lt_of_lt_mul ho, Nat.mod_lt _ hpos, rfl⟩,
    rfl, rfl, Nat.div_add_mod off _⟩

theorem place_surj (rot : Rotation) {w h c r : Nat} (hr : r < (rotatedGeom rot w h).rows)
    (hc : c < (rotatedGeom rot w h).rb) : ∃ x y, x < w ∧ y < h ∧ place rot w h x y = (c, r) := by
  cases rot <;> simp only [rotatedGeom] at hr hc
  · exact ⟨c, r, hc, hr, rfl⟩
  · exact ⟨r, h - 1 - c, hr, by omega, Prod.ext (by simp only [place]; omega) rfl⟩
  · exact ⟨w - 1 - c, h - 1 - r, by omega, by omega,
      Prod.ext (by simp only [place]; omega) (by simp only [place]; omega)⟩
  · exact ⟨w - 1 - r, c, by omega, hc, Prod.ext rfl (by simp only [place]; omega)⟩

theorem rotateStores_cover {rot : Rotation} {w h k y off : Nat} (sample : Nat → Nat → Byte) {g : Geom}
    (hg : [rotatedGeom rot w h][k]? = some g) (hy : y < g.rows) (ho : off < g.rb) :
    ∃ st ∈ rotateStores rot w h sample, st.plane = k ∧ st.row = y ∧ st.off = off := by
  obtain rfl : k = 0 := by
    have := (List.getElem?_eq_some_iff.mp hg).1
    simp only [List.length_cons, List.length_nil] at this
    omega
  obtain rfl : g = rotatedGeom rot w h := (Option.some.inj hg).symm
  obtain ⟨x, y', hx, hy', he⟩ := place_surj rot hy ho
  exact ⟨_, mem_rotateStores.mpr ⟨x, y', hx, hy', rfl⟩, rfl, congrArg Prod.snd he, congrArg Prod.fst he⟩

theorem rotateUVStores_cover {rot : Rotation} {w h k y off : Nat} (sample : Nat → Nat → Nat → Byte)
    {g : Geom} (hg : [rotatedGeom rot w h, rotatedGeom rot w h][k]? = some g) (hy : y < g.rows)
    (ho : off < g.rb) :
    ∃ st ∈ rotateUVStores rot w h sample, st.plane = k ∧ st.row = y ∧ st.off = off := by
  have hk : k < 2 := (List.getElem?_eq_some_iff.mp hg).1
  obtain rfl : g = rotatedGeom rot w h := by
    obtain rfl | rfl : k = 0 ∨ k = 1 := by omega
    · exact (Option.some.inj hg).symm
    · exact (Option.some.inj hg).symm
  obtain ⟨x, y', hx, hy', he⟩ := place_surj rot hy ho
  exact ⟨_, mem_rotateUVStores.mpr ⟨x, y', k, hx, hy', hk, rfl⟩, rfl, congrArg Prod.snd he,
    congrArg Prod.fst he⟩

theorem yuvStores_cover {df : YuvFormat} {w h k y off : Nat} (luma : Nat → Nat → Byte)
    (chroma : Nat → Nat → Nat → Nat → Byte × Byte) {g : Geom} (hg : (yuvGeom df w h)[k]? = some g)
    (hy : y < g.rows) (ho : off < g.rb) :
    ∃ st ∈ yuvStores df w h luma chroma, st.plane = k ∧ st.row = y ∧ st.off = off := by
  have hL : ∀ x, x < lumaWidth df w → y < h → lumaOffset df x = off → k = 0 →
      ∃ st ∈ yuvStores df w h luma chroma, st.plane = k ∧ st.row = y ∧ st.off = off := by
    rintro x hx hyh rfl rfl
    exact ⟨_, List.mem_append.mpr (.inl (mem_lumaStores.mpr ⟨x, y, hx, hyh, rfl⟩)), rfl, rfl, rfl⟩
  have hU : ∀ hs vs cx, subsampling df = some (hs, vs) → cx < cdim w hs → y < cdim h vs →
      chromaPlaceU df cx = (k, off) →
      ∃ st ∈ yuvStores df w h luma chroma, st.plane = k ∧ st.row = y ∧ st.off = off := by
    intro hs vs cx hsub hx hyh he
    exact ⟨_, List.mem_append.mpr (.inr (mem_chromaStores.mpr ⟨hs, vs, cx, y, hsub, hx, hyh, .inl rfl⟩)),
      congrArg Prod.fst he, rfl, congrArg Prod.snd he⟩
  have hV : ∀ hs vs cx, subsampling df = some (hs, vs) → cx < cdim w hs → y < cdim h vs →
      chromaPlaceV df cx = (k, off) →
      ∃ st ∈ yuvStores df w h luma chroma, st.plane = k ∧ st.row = y ∧ st.off = off := by
    intro hs vs cx hsub hx hyh he
    exact ⟨_, List.mem_append.mpr (.inr (mem_chromaStores.mpr ⟨hs, vs, cx, y, hsub, hx, hyh, .inr rfl⟩)),
      congrArg Prod.fst he, rfl, congrArg Prod.snd he⟩
  have hk := (List.getElem?_eq_some_iff.mp hg).1
  cases df <;> simp only [yuvGeom, planarGeom, List.length_cons, List.length_nil] at hg hk <;>
    simp only [lumaWidth, lumaOffset, chromaPlaceU, chromaPlaceV, subsampling, Prod.mk.injEq,
      Option.some.injEq] at hL hU hV
  case i400 =>
    obtain rfl : k = 0 := by omega
    obtain rfl := Option.some.inj hg
    exact hL off ho hy rfl rfl
  case nv12 | nv21 =>
    obtain rfl | rfl : k = 0 ∨ k = 1 := by omega
    · obtain rfl := Option.some.inj hg
      exact hL off ho hy rfl rfl
    · obtain rfl := Option.some.inj hg
      simp only at hy ho
      rcases Nat.mod_two_eq_zero_or_one off with h0 | h0 <;>
        first
          | exact hU 1 1 (off / 2) ⟨rfl, rfl⟩ (by omega) hy ⟨rfl, by omega⟩
          | exact hV 1 1 (off / 2) ⟨rfl, rfl⟩ (by omega) hy ⟨rfl, by omega⟩
  case yuy2 | uyvy =>
    obtain rfl : k = 0 := by omega
    obtain rfl := Option.some.inj hg
    simp only at hy ho
    have hc0 : cdim h 0 = h := by simp [cdim]
    have h4 : off % 4 = 0 ∨ off % 4 = 1 ∨ off % 4 = 2 ∨ off % 4 = 3 := by omega
    rcases h4 with h0 | h0 | h0 | h0 <;>
      first
        | exact hL (off / 2) (by omega) hy (by omega) rfl
        | exact hU 1 0 (off / 4) ⟨rfl, rfl⟩ (by omega) (by rw [hc0]; exact hy) ⟨rfl, by omega⟩
        | exact hV 1 0 (off / 4) ⟨rfl, rfl⟩ (by omega) (by rw [hc0]; exact hy) ⟨rfl, by omega⟩
  all_goals
    obtain rfl | rfl | rfl : k = 0 ∨ k = 1 ∨ k = 2 := by omega
    · obtain rfl := Option.some.inj hg
      exact hL off ho hy rfl rfl
    · obtain rfl := Option.some.inj hg
      exact hU _ _ off ⟨rfl, rfl⟩ ho hy ⟨rfl, rfl⟩
    · obtain rfl := Option.some.inj hg
      exact hV _ _ off ⟨rfl, rfl⟩ ho hy ⟨rfl, rfl⟩

/-- Every position of the destination planes of a legal data command is stored to. -/
theorem instrStores_cover {i : Instr} (hi : i ≠ .endList) (hw : i.wellFormed = true) {s : State}
    (srcs : List Plane) {k y off : Nat} (hp : IsPosition (writePlanes i s.latch) k y off) :
    ∃ st ∈ instrStores i s srcs, st.plane = k ∧ st.row = y ∧ st.off = off := by
  rw [writePlanes, isPosition_destPlanes] at hp
  obtain ⟨g, hg, hy, ho⟩ := hp
  cases i with
  | endList => exact absurd rfl hi
  | convertYR sf df cs =>
    cases sf <;> cases df <;> first
      | exact rgbStores_cover _ hg hy ho
      | simp [Instr.wellFormed, Instr.sourceLegal, Instr.destLegal, PixelFormat.isYuv, PixelFormat.isRgb] at hw
  | convertRY sf df cs =>
    cases sf <;> cases df <;> first
      | exact yuvStores_cover _ _ hg hy ho
      | simp [Instr.wellFormed, Instr.sourceLegal, Instr.destLegal, PixelFormat.isYuv, PixelFormat.isRgb] at hw
  | convertYY sf df =>
    cases sf <;> cases df <;> first
      | exact yuvStores_cover _ _ hg hy ho
      | simp [Instr.wellFormed, Instr.sourceLegal, Instr.destLegal, PixelFormat.isYuv] at hw
  | convertRR sf df =>
    cases sf <;> cases df <;> first
      | exact rgbStores_cover _ hg hy ho
      | simp [Instr.wellFormed, Instr.sourceLegal, Instr.destLegal, PixelFormat.isRgb] at hw
  | demosaicR sf df =>
    cases sf <;> cases df <;> first
      | exact rgbStores_cover _ hg hy ho
      | simp [Instr.wellFormed, Instr.sourceLegal, Instr.destLegal, PixelFormat.isBayer, PixelFormat.isRgb] at hw
  | demosaicY sf df cs =>
    cases sf <;> cases df <;> first
      | exact yuvStores_cover _ _ hg hy ho
      | simp [Instr.wellFormed, Instr.sourceLegal, Instr.destLegal, PixelFormat.isBayer, PixelFormat.isYuv] at hw
  | scaleNone f | scaleLinear f | scaleBilinear f => exact scaleStores_cover _ hg hy ho
  | rotate0 | rotate90 | rotate180 | rotate270 => exact rotateStores_cover _ hg hy ho
  | rotateUV0 | rotateUV90 | rotateUV180 | rotateUV270 =>
    exact rotateUVStores_cover (fun x y e => (planeAt srcs 0).byte s.mem y (2 * x + e)) hg hy ho

/-! ### The memory of a completed command -/

/-- After a completed command a destination position holds the value stored to it. -/
theorem destByte_completed {i : Instr} {s : State} (hr : Ready i s) {st : Store}
    (hst : st ∈ instrStores i s (readPlanes i s.latch)) :
    destByte i s.latch (completed i s).mem st.plane st.row st.off = st.value := by
  obtain ⟨-, -, -, hinj, -⟩ := hr
  refine load_storeAll_eq _ _ _ ⟨st, hst, rfl⟩ fun st' hst' ha => ?_
  obtain ⟨h1, h2, h3⟩ := hinj _ _ _ _ _ _ (instrStores_position hst') (instrStores_position hst) ha
  exact instrStores_agree _ _ _ _ hst' _ hst h1 h2 h3

/-- After a completed command every byte outside the write footprint is as it was. -/
theorem load_completed_ne {i : Instr} {s : State} {a : Nat}
    (ha : ¬ InFootprint (writePlanes i s.latch) a) : (completed i s).mem.load a = s.mem.load a :=
  load_storeAll_ne _ _ _ fun _ hst he => ha ⟨_, _, _, instrStores_position hst, he⟩

/-- A data command whose preconditions hold completes. -/
theorem exec_ready {i : Instr} {s : State} (hr : Ready i s) : exec i s = .next (completed i s) := by
  rcases exec_data_cases hr.1 hr.2.1 s with ⟨c, hc, -⟩ | ⟨-, he⟩ | ⟨-, hf, -⟩
  · rw [(instrArgFault_eq_none_iff hr.1 hr.2.1 _).mpr hr.2.2.1] at hc
    cases hc
  · exact he
  · exact absurd hr.2.2.2 hf

end Sys2Proof.Machine
end

