-- ==== Sys2Proof/Tests/Slice0.lean ====
section
/-! SUPPORT. The session's own tests, with expected results from the examples of spec/, and a witness for the
hypotheses of every statement. -/

namespace Sys2Proof.Tests

open Sys2Proof Sys2Proof.Machine

/-! ### WellFormed: one ill-formed term for each check -/

theorem test_wf_yr_source : (Instr.convertYR .none (.rgb .argb) .bt601).wellFormed = false := by decide
theorem test_wf_yr_reserved : (Instr.convertYR (.reserved 0x0A) (.rgb .argb) .bt601).wellFormed = false := by
  decide
theorem test_wf_yr_dest : (Instr.convertYR (.yuv .i420) (.reserved 0x19) .bt601).wellFormed = false := by
  decide
theorem test_wf_ry_source : (Instr.convertRY (.bayer .rggb) (.yuv .i420) .fullJ).wellFormed = false := by
  decide
theorem test_wf_ry_dest : (Instr.convertRY (.rgb .argb) .none .fullJ).wellFormed = false := by decide
theorem test_wf_yy_source : (Instr.convertYY .none (.yuv .i420)).wellFormed = false := by decide
theorem test_wf_yy_dest : (Instr.convertYY (.yuv .i420) (.rgb .raw)).wellFormed = false := by decide
theorem test_wf_rr_source : (Instr.convertRR (.yuv .i420) (.rgb .raw)).wellFormed = false := by decide
theorem test_wf_rr_dest : (Instr.convertRR (.rgb .raw) (.bayer .gbrg)).wellFormed = false := by decide
theorem test_wf_scale_none : (Instr.scaleNone (.yuv .i420)).wellFormed = false := by decide
theorem test_wf_scale_linear : (Instr.scaleLinear (.rgb .rgb565)).wellFormed = false := by decide
theorem test_wf_scale_bilinear : (Instr.scaleBilinear .none).wellFormed = false := by decide
theorem test_wf_demosaic_source : (Instr.demosaicR (.rgb .argb) (.rgb .argb)).wellFormed = false := by decide
theorem test_wf_demosaic_dest : (Instr.demosaicY (.bayer .rggb) (.bayer .rggb) .bt601).wellFormed = false := by
  decide

/-! ### Decoding: words written out from 30_encoding.md rules R91 to R96 -/

theorem test_decode_end : decode 0x00000000 = .ok .endList := by decide
theorem test_decode_yr : decode 0x00040101 = .ok (.convertYR (.yuv .i420) (.rgb .argb) .bt601) := by decide
theorem test_decode_yr_j : decode 0x01058901 = .ok (.convertYR (.yuv .i400) (.rgb .rgb565) .fullJ) := by decide
theorem test_decode_ry : decode 0x00005001 = .ok (.convertRY (.rgb .argb) (.yuv .i420) .bt601) := by decide
theorem test_decode_yy : decode 0x00004701 = .ok (.convertYY (.yuv .yuy2) (.yuv .i420)) := by decide
theorem test_decode_rr : decode 0x00059001 = .ok (.convertRR (.rgb .argb) (.rgb .rgb565)) := by decide
theorem test_decode_scale_none : decode 0x00000902 = .ok (.scaleNone (.yuv .i400)) := by decide
theorem test_decode_scale_linear : decode 0x00101402 = .ok (.scaleLinear (.rgb .rgb24)) := by decide
theorem test_decode_scale_bilinear : decode 0x00201002 = .ok (.scaleBilinear (.rgb .argb)) := by decide
theorem test_decode_rotate0 : decode 0x00000003 = .ok .rotate0 := by decide
theorem test_decode_rotate90 : decode 0x00400003 = .ok .rotate90 := by decide
theorem test_decode_rotate180 : decode 0x00800003 = .ok .rotate180 := by decide
theorem test_decode_rotate270 : decode 0x00C00003 = .ok .rotate270 := by decide
theorem test_decode_uv0 : decode 0x00000004 = .ok .rotateUV0 := by decide
theorem test_decode_uv90 : decode 0x00400004 = .ok .rotateUV90 := by decide
theorem test_decode_uv180 : decode 0x00800004 = .ok .rotateUV180 := by decide
theorem test_decode_uv270 : decode 0x00C00004 = .ok .rotateUV270 := by decide
theorem test_decode_demosaic_r : decode 0x00042005 = .ok (.demosaicR (.bayer .rggb) (.rgb .argb)) := by decide
theorem test_decode_demosaic_y : decode 0x00006005 = .ok (.demosaicY (.bayer .rggb) (.yuv .i420) .bt601) := by
  decide
theorem test_decode_table_word : decodeTableWord 32 0x00400003 = some .rotate90 := by decide
theorem test_decode_reserved_opcode : decode 0x00000006 = .error .reservedOpcode := by decide
theorem test_decode_reserved_bits : decode 0x02000003 = .error .reservedBits := by decide
theorem test_decode_end_with_format : decode 0x00000100 = .error .badSourceFormat := by decide
theorem test_decode_bad_filter : decode 0x00300902 = .error .badFilter := by decide
theorem test_decode_bad_rotation : decode 0x00400902 = .error .badRotation := by decide
theorem test_decode_bad_standard : decode 0x01004701 = .error .badColourStandard := by decide

/-! ### One step of each instruction -/

/-- Operands for tests: an image of `w` × `h` with tight rows of `ss` and `ds` bytes, planes apart. -/
def operands (w h : Word) (ss ds : Word) : Descriptor where
  width := w
  height := h
  dwidth := w
  dheight := h
  src0Addr := 0x1000
  src0Stride := ss
  src1Addr := 0x1100
  src1Stride := ss
  src2Addr := 0x1200
  src2Stride := ss
  dst0Addr := 0x2000
  dst0Stride := ds
  dst1Addr := 0x2100
  dst1Stride := ds
  dst2Addr := 0x2200
  dst2Stride := ds

/-- A running state with the given latch and with bytes stored at the three source planes. -/
def started (d : Descriptor) (p0 p1 p2 : List Byte) : State :=
  { State.reset with
    busy := true
    dpc := 0x100
    latch := d
    mem := ((Memory.writeBytes [] 0x1000 p0).writeBytes 0x1100 p1).writeBytes 0x1200 p2 }

/-- `n` bytes from `a` in the memory of a next state. -/
def bytesAt (o : Host.Outcome State Fault Refusal) (a : Int) (n : Nat) : List Nat :=
  match o with
  | .next t => (List.range n).map fun k => (t.mem.load (address (a + k))).toNat
  | .fault _ => []
  | .refused _ => []

/-- Rule R240's example. -/
theorem test_convertYR : bytesAt (exec (.convertYR (.yuv .i444) (.rgb .argb) .bt601)
    (started (operands 1 1 1 4) [82] [90] [240])) 0x2000 5 = [0x00, 0x01, 0xFF, 0xFF, 0x00] := by
  decide +kernel

/-- Rule R241's example: luma, then the two chroma planes. -/
theorem test_convertRY :
    let o := exec (.convertRY (.rgb .argb) (.yuv .i420) .bt601)
      (started (operands 2 2 8 2) [0, 0, 255, 255, 0, 0, 255, 255, 0, 0, 255, 255, 0, 0, 255, 255] [] [])
    (bytesAt o 0x2000 4, bytesAt o 0x2100 1, bytesAt o 0x2200 1) = ([82, 82, 82, 82], [90], [240]) := by
  decide +kernel

/-- Rule R242's example. -/
theorem test_convertYY :
    let o := exec (.convertYY (.yuv .nv12) (.yuv .i420))
      (started (operands 2 2 2 2) [0x10, 0x20, 0x30, 0x40] [0x80, 0x90] [])
    (bytesAt o 0x2000 4, bytesAt o 0x2100 1, bytesAt o 0x2200 1)
      = ([0x10, 0x20, 0x30, 0x40], [0x80], [0x90]) := by
  decide +kernel

/-- Rule R243's example. -/
theorem test_convertRR : bytesAt (exec (.convertRR (.rgb .argb) (.rgb .rgb565))
    (started (operands 1 1 4 2) [0x80, 0x80, 0x80, 0x80] [] [])) 0x2000 3 = [0x10, 0x84, 0x00] := by
  decide +kernel

/-- Rule R280's example. -/
theorem test_scaleNone : bytesAt (exec (.scaleNone (.yuv .i400))
    (started { operands 4 1 4 2 with dwidth := 2 } [10, 20, 30, 40] [] [])) 0x2000 3 = [10, 30, 0] := by
  decide +kernel

/-- Rule R281's example. -/
theorem test_scaleLinear : bytesAt (exec (.scaleLinear (.yuv .i400))
    (started { operands 4 1 4 3 with dwidth := 3 } [10, 20, 30, 40] [] [])) 0x2000 4 = [10, 23, 36, 0] := by
  decide +kernel

/-- Rule R282's first example. -/
theorem test_scaleBilinear : bytesAt (exec (.scaleBilinear (.yuv .i400))
    (started { operands 2 2 2 3 with dwidth := 3, dheight := 3 } [0, 100, 200, 50] [] [])) 0x2000 9
      = [0, 66, 100, 132, 88, 66, 200, 100, 50] := by
  decide +kernel

/-- Rule R282's BOX2 example. -/
theorem test_scaleBilinear_box2 : bytesAt (exec (.scaleBilinear (.yuv .i400))
    (started { operands 4 4 4 2 with dwidth := 2, dheight := 2 }
      [0, 10, 20, 30, 40, 50, 60, 70, 80, 90, 100, 110, 120, 130, 140, 150] [] [])) 0x2000 4
      = [25, 45, 105, 125] := by
  decide +kernel

/-- Rule R310's example, with the negative height. -/
theorem test_rotate0 : bytesAt (exec .rotate0
    (started (operands 3 (-2) 3 3) [1, 2, 3, 4, 5, 6] [] [])) 0x2000 6 = [4, 5, 6, 1, 2, 3] := by
  decide +kernel

/-- Rule R311's example. -/
theorem test_rotate90 : bytesAt (exec .rotate90
    (started (operands 3 2 3 2) [1, 2, 3, 4, 5, 6] [] [])) 0x2000 6 = [4, 1, 5, 2, 6, 3] := by
  decide +kernel

/-- Rule R312's example. -/
theorem test_rotate180 : bytesAt (exec .rotate180
    (started (operands 3 2 3 3) [1, 2, 3, 4, 5, 6] [] [])) 0x2000 6 = [6, 5, 4, 3, 2, 1] := by
  decide +kernel

/-- Rule R313's example. -/
theorem test_rotate270 : bytesAt (exec .rotate270
    (started (operands 3 2 3 2) [1, 2, 3, 4, 5, 6] [] [])) 0x2000 6 = [3, 6, 2, 5, 1, 4] := by
  decide +kernel

/-- The source of rules R320 to R323. -/
def pairs : State := started (operands 2 2 4 2) [0xA1, 0xB1, 0xA2, 0xB2, 0xA3, 0xB3, 0xA4, 0xB4] [] []

/-- Rule R320's example. -/
theorem test_rotateUV0 : (bytesAt (exec .rotateUV0 pairs) 0x2000 4, bytesAt (exec .rotateUV0 pairs) 0x2100 4)
    = ([0xA1, 0xA2, 0xA3, 0xA4], [0xB1, 0xB2, 0xB3, 0xB4]) := by decide +kernel

/-- Rule R321's example. -/
theorem test_rotateUV90 : (bytesAt (exec .rotateUV90 pairs) 0x2000 4, bytesAt (exec .rotateUV90 pairs) 0x2100 4)
    = ([0xA3, 0xA1, 0xA4, 0xA2], [0xB3, 0xB1, 0xB4, 0xB2]) := by decide +kernel

/-- Rule R322's example. -/
theorem test_rotateUV180 :
    (bytesAt (exec .rotateUV180 pairs) 0x2000 4, bytesAt (exec .rotateUV180 pairs) 0x2100 4)
      = ([0xA4, 0xA3, 0xA2, 0xA1], [0xB4, 0xB3, 0xB2, 0xB1]) := by decide +kernel

/-- Rule R323's example. -/
theorem test_rotateUV270 :
    (bytesAt (exec .rotateUV270 pairs) 0x2000 4, bytesAt (exec .rotateUV270 pairs) 0x2100 4)
      = ([0xA2, 0xA4, 0xA1, 0xA3], [0xB2, 0xB4, 0xB1, 0xB3]) := by decide +kernel

/-- The mosaic of rules R340 and R341. -/
def mosaic (ds : Word) : State := started (operands 2 2 2 ds) [0xC8, 0x64, 0x32, 0x14] [] []

/-- Rule R340's example. -/
theorem test_demosaicR : bytesAt (exec (.demosaicR (.bayer .rggb) (.rgb .argb)) (mosaic 8)) 0x2000 16
    = [0x14, 0x4B, 0xC8, 0xFF, 0x14, 0x64, 0xC8, 0xFF, 0x14, 0x32, 0xC8, 0xFF, 0x14, 0x4B, 0xC8, 0xFF] := by
  decide +kernel

/-- Rule R341's example. -/
theorem test_demosaicY :
    let o := exec (.demosaicY (.bayer .rggb) (.yuv .i420) .bt601) (mosaic 2)
    (bytesAt o 0x2000 4, bytesAt o 0x2100 1, bytesAt o 0x2200 1)
      = ([0x6B, 0x78, 0x5F, 0x6B], [0x55], [0xBB]) := by
  decide +kernel

/-- Rule R140's example, from the step. -/
theorem test_end : (match step { State.reset with busy := true, dpc := 0x1000 } with
    | .next t => (t.dpc, t.done, t.busy)
    | .fault _ => (0, false, true)
    | .refused _ => (0, false, true)) = (0x1044, true, false) := by decide +kernel

/-! ### Registers (10_state.md) -/

theorem test_start_and_ie : writeRegister 4 0x04 3 State.reset
    = .next { State.reset with ie := true, busy := true } := by rfl

theorem test_dpc_low_bits : writeRegister 4 0x0C 0x107 State.reset
    = .next { State.reset with dpc := 0x104 } := by rfl

theorem test_status_word : ({ State.reset with err := true, ecode := 2, ecause := 1 } : State).statusWord
    = 0x00000124 := by decide

/-! ### Witnesses: a state in which every data command can run -/

theorem ready_of_checks {i : Instr} {s : State} (hi : i ≠ .endList) (hw : i.wellFormed = true)
    (ha : instrArgFault i s.latch = none)
    (hf : footprintsOk (readPlanes i s.latch) (writePlanes i s.latch) = true) : Ready i s :=
  ⟨hi, hw, (instrArgFault_eq_none_iff hi hw s.latch).mp ha, (footprintsOk_iff _ _).mp hf⟩

/-- A 2 × 2 image with room for four bytes a pixel, and samples in the three source planes. -/
def plain : State := started (operands 2 2 16 16) [1, 2, 3, 4] [5, 6] [7, 8]

theorem witness_convertYR : Ready (.convertYR (.yuv .i420) (.rgb .argb) .bt601) plain :=
  ready_of_checks (by decide) (by decide) (by decide +kernel) (by decide +kernel)
theorem witness_convertRY : Ready (.convertRY (.rgb .rgb565) (.yuv .nv21) .fullJ) plain :=
  ready_of_checks (by decide) (by decide) (by decide +kernel) (by decide +kernel)
theorem witness_convertYY : Ready (.convertYY (.yuv .uyvy) (.yuv .i420)) plain :=
  ready_of_checks (by decide) (by decide) (by decide +kernel) (by decide +kernel)
theorem witness_convertRR : Ready (.convertRR (.rgb .raw) (.rgb .argb1555)) plain :=
  ready_of_checks (by decide) (by decide) (by decide +kernel) (by decide +kernel)
theorem witness_scaleNone : Ready (.scaleNone (.yuv .i400)) plain :=
  ready_of_checks (by decide) (by decide) (by decide +kernel) (by decide +kernel)
theorem witness_scaleLinear : Ready (.scaleLinear (.rgb .rgb24)) plain :=
  ready_of_checks (by decide) (by decide) (by decide +kernel) (by decide +kernel)
theorem witness_scaleBilinear : Ready (.scaleBilinear (.rgb .bgra)) plain :=
  ready_of_checks (by decide) (by decide) (by decide +kernel) (by decide +kernel)
theorem witness_rotate (rot : Rotation) : Ready (rotateForm rot) plain := by
  cases rot <;>
    exact ready_of_checks (by decide) (by decide) (by decide +kernel) (by decide +kernel)
theorem witness_rotateUV (rot : Rotation) : Ready (rotateUVForm rot) plain := by
  cases rot <;>
    exact ready_of_checks (by decide) (by decide) (by decide +kernel) (by decide +kernel)
theorem witness_demosaicR : Ready (.demosaicR (.bayer .bggr) (.rgb .argb4444)) plain :=
  ready_of_checks (by decide) (by decide) (by decide +kernel) (by decide +kernel)
theorem witness_demosaicY : Ready (.demosaicY (.bayer .grbg) (.yuv .i411) .fullJ) plain :=
  ready_of_checks (by decide) (by decide) (by decide +kernel) (by decide +kernel)

/-- The statements about one data command conclude that it answers a next state in `plain`. -/
theorem witness_completes (rot : Rotation) :
    exec (rotateForm rot) plain = .next (completed (rotateForm rot) plain) :=
  exec_ready (witness_rotate rot)

/-- The positions of `plain`, the corners among them, meet the bounds of the statements about pixels. -/
theorem witness_image_bounds : imageWidth plain.latch = 2 ∧ imageHeight plain.latch = 2
    ∧ 1 < lumaWidth .i420 (imageWidth plain.latch) ∧ subsampling .i420 = some (1, 1)
    ∧ 0 < cdim (imageWidth plain.latch) 1 := by decide

/-- `SameFormatConvertCopies`, both clauses, with the padding byte of an odd row in range and excluded. -/
theorem witness_sameFormat_rr : Ready (.convertRR (.rgb .argb) (.rgb .argb)) plain
    ∧ IsPosition (writePlanes (.convertRR (.rgb .argb) (.rgb .argb)) plain.latch) 0 1 7 :=
  ⟨ready_of_checks (by decide) (by decide) (by decide +kernel) (by decide +kernel),
    by refine ⟨?_, ?_, ?_⟩ <;> decide⟩

/-- A 3 × 1 image. -/
def odd : State := started (operands 3 1 16 16) [1, 2, 3, 4, 5, 6, 7, 8] [] []

theorem witness_sameFormat_yy : Ready (.convertYY (.yuv .yuy2) (.yuv .yuy2)) odd
    ∧ IsPosition (writePlanes (.convertYY (.yuv .yuy2) (.yuv .yuy2)) odd.latch) 0 0 7
    ∧ IsPosition (writePlanes (.convertYY (.yuv .yuy2) (.yuv .yuy2)) odd.latch) 0 0 6
    ∧ imageWidth odd.latch % 2 = 1 ∧ 6 = 2 * imageWidth odd.latch :=
  ⟨ready_of_checks (by decide) (by decide) (by decide +kernel) (by decide +kernel),
    by refine ⟨?_, ?_, ?_⟩ <;> decide, by refine ⟨?_, ?_, ?_⟩ <;> decide, by decide, by decide⟩

/-- The paths of the filtering SCALE statements: 1/2 on both axes, 1/4 on both, and neither. -/
def halved : State := started { operands 4 4 16 16 with dwidth := 2, dheight := 2 } [] [] []
def quartered : State := started { operands 4 4 16 16 with dwidth := 1, dheight := 1 } [] [] []
def stretched : State := started { operands 2 4 16 16 with dwidth := 3, dheight := 2 } [] [] []

theorem witness_scale_paths :
    (Ready (.scaleLinear (.yuv .i400)) halved ∧ scalePath (scaleSize halved.latch) = .box2)
    ∧ (Ready (.scaleBilinear (.yuv .i400)) quartered ∧ scalePath (scaleSize quartered.latch) = .box4)
    ∧ Ready (.scaleBilinear (.yuv .i400)) stretched ∧ scalePath (scaleSize stretched.latch) = .generic
    ∧ scaleBytes (.yuv .i400) = some 1 := by
  refine ⟨⟨?_, by decide⟩, ⟨?_, by decide⟩, ?_, by decide, by decide⟩ <;>
    exact ready_of_checks (by decide) (by decide) (by decide +kernel) (by decide +kernel)

theorem witness_scale_identity : Ready (.scaleLinear (.rgb .rgb24)) plain
    ∧ (scaleSize plain.latch).dw = (scaleSize plain.latch).sw
    ∧ (scaleSize plain.latch).dh = (scaleSize plain.latch).sh
    ∧ exec (.scaleLinear (.rgb .rgb24)) plain = .next (completed (.scaleLinear (.rgb .rgb24)) plain)
    ∧ 1 < (scaleSize plain.latch).sh ∧ 5 < 3 * (scaleSize plain.latch).sw :=
  ⟨witness_scaleLinear, by decide, by decide, exec_ready witness_scaleLinear, by decide, by decide⟩

/-! ### Witnesses: fetch, decode, checks -/

/-- A running state whose memory holds a ROTATE.90 descriptor at `DPC`. -/
def listed : State := (started {} [1, 2, 3, 4] [] []).withMem
  ((started {} [1, 2, 3, 4] [] []).mem.writeBytes 0x100 (encode .rotate90 (operands 2 2 2 2)).bytes)

theorem witness_step : listed.busy = true ∧ decode (listed.fetch.latch.word 0) = .ok .rotate90
    ∧ Instr.rotate90.wellFormed = true := by decide +kernel

theorem witness_step_idle : State.reset.busy = false := rfl

theorem witness_roundTrip : Instr.rotate90.wellFormed = true ∧ listed.busy = true ∧
    ∀ k, k < 68 → listed.mem.load ((listed.dpc.toNat + k) % 2 ^ 32)
      = BitVec.ofNat 8 (((encode .rotate90 (operands 2 2 2 2)).word (k / 4)).toNat / 256 ^ (k % 4)) := by
  decide +kernel

theorem witness_oneForm : ∃ rm, formTable[1]? = some rm ∧ (0x00040101 : Word) &&& rm.mask = rm.pat :=
  ⟨_, rfl, by decide⟩

/-- Each check of rule R101 is the first that some word fails, at the edge of the check's range. -/
theorem witness_firstFailing :
    FirstFailingCheck 0x06 .reservedOpcode ∧ FirstFailingCheck 0x02000005 .reservedBits
    ∧ FirstFailingCheck 0x00041901 .badSourceFormat ∧ FirstFailingCheck 0x00002801 .badSourceFormat
    ∧ FirstFailingCheck 0x00028101 .badDestFormat ∧ FirstFailingCheck 0x00300902 .badFilter
    ∧ FirstFailingCheck 0x00100003 .badFilter ∧ FirstFailingCheck 0x00400902 .badRotation
    ∧ FirstFailingCheck 0x01004701 .badColourStandard := by
  refine ⟨?_, ?_, ?_, ?_, ?_, ?_, ?_, ?_, ?_⟩ <;>
    refine ⟨by simp only [FailsCheck, sourceCodeLegal, destCodeLegal]; decide, fun c' h => ?_⟩ <;>
    cases c' <;> revert h <;> simp only [FailsCheck, sourceCodeLegal, destCodeLegal, IllegalCause.code] <;>
    decide

/-- A running state whose memory holds one word at `DPC`, the other words of the descriptor being 0. -/
def wordAt (w : Word) : State :=
  (started {} [] [] []).withMem ((started {} [] [] []).mem.writeBytes 0x100 (wordBytes w))

theorem witness_illegal_step : (wordAt 0x00041901).busy = true
    ∧ ((wordAt 0x00041901).fetchedWord 0).toNat = 0x00041901
    ∧ ((wordAt 6).fetchedWord 0).toNat = 6 := by decide +kernel

theorem witness_end : (started {} [] [] []).busy = true ∧ (started {} [] [] []).fetchedWord 0 = 0 := by
  decide +kernel

theorem witness_legal_fetch : listed.busy = true ∧ (listed.fetchedWord 0).toNat = 0x00400003 := by
  decide +kernel

theorem witness_legal_word : ∀ c, ¬ FailsCheck 0x00400003 c := by
  intro c
  cases c <;> simp only [FailsCheck, sourceCodeLegal, destCodeLegal] <;> decide

/-- The operands of ROTATE_UV.0 with a null second destination. -/
def nullDst1 : State := started { operands 2 2 4 2 with dst1Addr := 0, width := 0 } [] [] []

theorem witness_firstFailingArgument : FirstFailingArgument .rotateUV0 nullDst1.latch .nullDst1 := by
  refine ⟨by simp only [FailsArgument]; decide, fun c' h => ?_⟩
  cases c' <;> revert h <;> simp only [FailsArgument, ArgCause.code] <;> decide

/-- A mosaic with an odd height: the last check of rule R134. -/
def oddMosaic : State := started (operands 2 3 2 8) [] [] []

theorem witness_firstFailingArgument_last :
    FirstFailingArgument (.demosaicR (.bayer .rggb) (.rgb .argb)) oddMosaic.latch .bayerOddHeight := by
  refine ⟨by simp only [FailsArgument]; decide, fun c' h => ?_⟩
  cases c' <;> revert h <;> simp only [FailsArgument, ArgCause.code] <;> decide

/-- A run that an illegal word stops: the hypotheses of `RestartWithoutRepairRaisesSameError`. -/
theorem witness_restart : (wordAt 6).busy = true ∧ (wordAt 6).err = false
    ∧ (∃ t, step (wordAt 6) = .next t ∧ t.err = true)
    ∧ (4 : Word).getLsbD 2 = true ∧ (1 : Word).getLsbD 0 = true := by
  refine ⟨rfl, rfl, ⟨raise (.illegalCommand .reservedOpcode) (wordAt 6).fetch, ?_, rfl⟩, by decide, by decide⟩
  have hb : (wordAt 6).busy = true := rfl
  have hd : decode (wordAt 6).fetch.latch.cmd = .error .reservedOpcode := by decide +kernel
  simp only [step, hb, if_true, hd]
  rfl

/-- A ROTATE.0 whose destination is its source, fetched from memory: a step with no meaning. -/
def inPlace : State := (started {} [] [] []).withMem ((started {} [] [] []).mem.writeBytes 0x100
  (encode .rotate0 { operands 2 2 2 2 with dst0Addr := 0x1000 }).bytes)

theorem witness_refused : inPlace.busy = true ∧ decode (inPlace.fetchedWord 0) = .ok .rotate0
    ∧ instrArgFault .rotate0 inPlace.fetch.latch = none
    ∧ footprintsOk (readPlanes .rotate0 inPlace.fetch.latch) (writePlanes .rotate0 inPlace.fetch.latch)
      = false := by decide +kernel

/-- A run from a started machine over zeroed memory stops at END: the hypotheses of `RunEndsDoneOrError`. -/
theorem witness_runEnds : (started {} [] [] []).Inv ∧ (started {} [] [] []).busy = true
    ∧ StopsIn 1 (started {} [] [] []) (endRun (started {} [] [] []).fetch) := by
  refine ⟨⟨by decide +kernel, by decide, by unfold State.flagsExclusive; decide,
    by unfold State.errorRecorded; decide⟩, rfl, ?_, rfl⟩
  have hd : decode (started {} [] [] []).fetch.latch.cmd = .ok .endList := by decide +kernel
  show (match step (started {} [] [] []) with
    | .next t => core.run 0 t
    | .fault f => .fault f
    | .refused r => .refused r) = _
  have hb : (started {} [] [] []).busy = true := rfl
  simp only [step, hb, if_true, hd]
  rfl

/-! ### Witnesses: what every data command does -/

/-- `plain` with another byte far from the command's planes, and with other control bits. -/
def elsewhere : State := { plain with mem := plain.mem.store 0x5000 9, ie := true }

theorem witness_readFootprint : Ready .rotate0 plain ∧ elsewhere.latch = plain.latch
    ∧ elsewhere.mem ≠ plain.mem
    ∧ (∀ a, InFootprint (readPlanes .rotate0 plain.latch) a → elsewhere.mem.load a = plain.mem.load a)
    ∧ exec .rotate0 plain = .next (completed .rotate0 plain) := by
  refine ⟨witness_rotate .r0, rfl, by decide +kernel, ?_, exec_ready (witness_rotate .r0)⟩
  rintro a ⟨k, y, off, ⟨hk, hy, ho⟩, rfl⟩
  have hk' : k < 1 := hk
  obtain rfl : k = 0 := by omega
  have hy' : y < 2 := hy
  have ho' : off < 2 := ho
  show (plain.mem.store 0x5000 9).load _ = _
  refine plain.mem.load_store_ne 9 ?_
  clear hk hy ho
  interval_cases y <;> interval_cases off <;> decide

/-- The flipped image of `plain`, with the height negated. -/
def upright : State := started (operands 2 2 2 2) [1, 2, 3, 4] [] []
def flipped : State := started { operands 2 2 2 2 with height := -2 } [3, 4, 1, 2] [] []

theorem witness_flip : Ready .rotate90 upright ∧ 0 < heightOf upright.latch
    ∧ flipped.latch = { upright.latch with height := -upright.latch.height }
    ∧ ∀ (k : Nat) (g : Geom) (y off : Nat), (sourceGeom .rotate90 upright.latch)[k]? = some g → y < g.rows → off < g.rb →
      flipped.mem.load (address ((srcAddr upright.latch k).toNat
          + ((g.rows : Int) - 1 - y) * srcStride upright.latch k + off))
        = upright.mem.load (address ((srcAddr upright.latch k).toNat
          + (y : Int) * srcStride upright.latch k + off)) := by
  refine ⟨ready_of_checks (by decide) (by decide) (by decide +kernel) (by decide +kernel), by decide,
    by decide, fun k g y off hg hy ho => ?_⟩
  have hk : k < 1 := (List.getElem?_eq_some_iff.mp hg).1
  obtain rfl : k = 0 := by omega
  obtain rfl := Option.some.inj hg
  have hy' : y < 2 := hy
  have ho' : off < 2 := ho
  clear hg hy ho hk
  interval_cases y <;> interval_cases off <;> decide +kernel

/-- A 3 × 2 image to turn by 90°, and the state that turns the result by 270°. -/
def turned : State := started (operands 3 2 3 2) [1, 2, 3, 4, 5, 6] [] []
def back : State := { (completed .rotate90 turned) with
  latch := { operands 2 3 2 3 with src0Addr := 0x2000, dst0Addr := 0x3000 } }

theorem witness_rotation_chain :
    Ready (rotateForm .r90) turned ∧ exec (rotateForm .r90) turned = .next (completed .rotate90 turned)
    ∧ Ready (rotateForm (inverseAngle .r90)) back
    ∧ back.latch.width.toInt = (rotatedGeom .r90 (imageWidth turned.latch) (imageHeight turned.latch)).rb
    ∧ back.latch.height.toInt = (rotatedGeom .r90 (imageWidth turned.latch) (imageHeight turned.latch)).rows
    ∧ back.latch.src0Addr = turned.latch.dst0Addr ∧ back.latch.src0Stride = turned.latch.dst0Stride
    ∧ exec (rotateForm (inverseAngle .r90)) back = .next (completed .rotate270 back) := by
  have h1 : Ready .rotate90 turned :=
    ready_of_checks (by decide) (by decide) (by decide +kernel) (by decide +kernel)
  have h2 : Ready .rotate270 back :=
    ready_of_checks (by decide) (by decide) (by decide +kernel) (by decide +kernel)
  exact ⟨h1, exec_ready h1, h2, by decide, by decide, by decide, by decide, exec_ready h2⟩

/-- The result of the chain on the memory: the image is back. -/
theorem test_rotation_chain : bytesAt (exec .rotate270 back) 0x3000 6 = [1, 2, 3, 4, 5, 6] := by
  decide +kernel

theorem witness_placement : (2, 3) = (rotatedGeom .r90 3 2 |> fun g => (g.rb, g.rows))
    ∧ place .r90 3 2 2 1 = (0, 2) ∧ place .r270 2 3 0 2 = (2, 1) := by decide

/-! ### Witnesses: formats, scaling, mosaics -/

theorem witness_packAfterUnpack : rgbBytes .rgb24 ≠ 2 ∧ rgbBytes .rgb565 = 2
    ∧ ∀ n b, (packRgb .rgb24 ⟨3, 2, 1, 255⟩)[n]? = some b →
      (planeAt [⟨0x1000, 16, 2, 16⟩] 0).byte plain.mem 0 (rgbBytes .rgb24 * 0 + n) = b := by
  refine ⟨by decide, by decide, fun n b h => ?_⟩
  have hn : n < 3 := (List.getElem?_eq_some_iff.mp h).1
  interval_cases n <;> obtain rfl := Option.some.inj h <;> decide +kernel

theorem witness_positions : 0 < 4 ∧ 2 < 3 ∧ scaleIndex (scaleStep 4 3) 2 = 2
    ∧ scaleWeight (scaleStep 4 3) 2 = 170 ∧ scaleNext 3 4 = 3 := by decide

theorem witness_blend : (blend 20 30 85, blend 30 40 170, blend 7 7 255, blend 7 9 0) = (23, 36, 7, 7) := by
  decide

/-- The address clauses of `NegativeHeightIsFlippedSource` at the last slot, for both signs of `HEIGHT`: row 0 of
an I420 V plane two rows high, and the last byte of its destination, at the top of memory. -/
theorem witness_plane_addresses :
    let d : Descriptor :=
      { width := 4, height := 4, src2Addr := 0x3000, src2Stride := 16, dst2Addr := 0xFFFFFFFF, dst2Stride := -2 }
    let i := Instr.convertYY (.yuv .i420) (.yuv .i420)
    (sourceGeom i d)[2]? = some ⟨2, 2⟩ ∧ (destGeom i d)[2]? = some ⟨2, 2⟩
    ∧ (planeAt (readPlanes i d) 2).addr 0 0 = 0x3000
    ∧ (planeAt (readPlanes i { d with height := -4 }) 2).addr 0 0 = 0x3010
    ∧ (planeAt (writePlanes i { d with height := -4 }) 2).addr 0 1 = 0
    ∧ (planeAt (writePlanes i d) 2).addr 1 1 = 0xFFFFFFFE := by decide +kernel

/-- A position of each colour role strictly inside a 4 × 4 RGGB mosaic, green of both kinds. -/
theorem witness_bayer_interior : sampleRole .rggb 2 2 = .red ∧ sampleRole .rggb 1 1 = .blue
    ∧ (sampleRole .rggb 1 2 = .green ∧ rowColour .rggb 1 2 = .red)
    ∧ sampleRole .rggb 2 1 = .green ∧ rowColour .rggb 2 1 ≠ .red := by decide

/-- The clauses of `BayerColoursAtEveryPosition` in a 2 × 2 RGGB mosaic, where every position is a corner: each
missing colour is a single neighbour's sample (45_demosaic.md rule R333). -/
theorem witness_bayer_corners : sampleRole .rggb 0 0 = .red ∧ sampleRole .rggb 1 1 = .blue
    ∧ (sampleRole .rggb 1 0 = .green ∧ sampleRole .rggb (1 ^^^ 1) 0 = .red)
    ∧ (sampleRole .rggb 0 1 = .green ∧ sampleRole .rggb (0 ^^^ 1) 1 ≠ .red)
    ∧ (let M : Nat → Nat → Byte := fun x y => BitVec.ofNat 8 (10 + 20 * x + 51 * y)
      bayerPixel .rggb M 2 2 0 0 = ⟨10, 45, 81, 255⟩ ∧ bayerPixel .rggb M 2 2 1 0 = ⟨10, 30, 81, 255⟩) := by
  decide

/-- A position of each class of rule R333's table. -/
theorem witness_bayer_classes : (insideImage 4 4 (orthNeighbours 1 2)).length = 4
    ∧ (insideImage 4 4 (diagNeighbours 0 2)).length = 2 ∧ (insideImage 4 4 (verNeighbours 1 3)).length = 1
    ∧ (insideImage 2 2 (orthNeighbours 1 1)).length = 2 := by decide

theorem witness_flat : ∀ x y, x < 2 → y < 2 → (fun _ _ : Nat => (9 : Byte)) x y = 9 := fun _ _ _ _ => rfl

/-! ### Witnesses: memory, registers, reset, invariants -/

theorem witness_memory : (plain.mem.write (-1) 2 0x0201).load (2 ^ 32 - 1) = 1
    ∧ (plain.mem.write (-1) 2 0x0201).load 0 = 2 ∧ (plain.mem.write (-1) 2 0x0201).read (-1) 2 = 0x0201 := by
  decide +kernel

theorem witness_reserved : (0x3C % 4 = 0 ∧ 0x10 ≤ 0x3C ∧ 0x3C ≤ 0x3C) ∧ (0x84 % 4 = 0 ∧ 0x84 ≤ 0x84)
    ∧ 0x80 % 4 = 0 ∧ 0x40 ≤ 0x80 ∧ 0x80 ≤ 0x80 := by decide

/-- The clauses of `StartAction`: idle with `ERR`, idle without, and a write without START. -/
theorem witness_start : ({ State.reset with err := true } : State).busy = false ∧ State.reset.err = false
    ∧ (1 : Word).getLsbD 0 = true ∧ (2 : Word).getLsbD 0 = false := by decide

/-- Reads during a run: `DPC` after the command in flight, and `D0` before and after its fetch. -/
theorem test_read_moments : (readRegister 4 0x0C 0 listed).toOption = some 0x100
    ∧ (readRegister 4 0x0C 2 listed).toOption = some 0x144
    ∧ (readRegister 4 0x40 0 listed).toOption = some 0
    ∧ (readRegister 4 0x40 1 listed).toOption = some 0x00400003
    ∧ (readRegister 4 0x40 3 listed).toOption = some 0 := by decide +kernel

/-- A host access to a running engine's memory, over a list whose only data command fails its footprint
precondition (rule R68): outside all footprints it is allowed, inside one it is not. -/
theorem test_host_access_past_refused : hostAccessOk writeHazards 2 0x5000 4 inPlace = true
    ∧ hostAccessOk writeHazards 2 0x0FFD 4 inPlace = false ∧ hostAccessOk writeHazards 2 0x187 1 inPlace = false
    ∧ hostAccessOk readHazards 2 0x1004 1 inPlace = true ∧ hostAccessOk readHazards 2 0x1003 1 inPlace = false := by
  decide +kernel

/-- A list whose first command overwrites the second descriptor's `W0` while failing its precondition: the
rest of the list is unspecified, so no access is shown safe. -/
def spoiltList : State := (started {} [] [] []).withMem ((started {} [] [] []).mem.writeBytes 0x100
  (encode .rotate0 { operands 2 2 2 2 with src0Addr := 0x144, dst0Addr := 0x144 }).bytes)

theorem test_host_access_spoilt : hostAccessOk writeHazards 9 0x5000 4 spoiltList = false := by
  decide +kernel

/-- The clauses of `MemoryReadWriteAndHostAccess` about a running engine. -/
theorem witness_host_access : listed.busy = true ∧ ((0x100 : Int) + (0 : Nat)) % 2 ^ 32 = 0x100
    ∧ decode (listed.fetchedWord 0) = .ok .rotate90
    ∧ (planeAt (readPlanes .rotate90 listed.fetch.latch) 0).addr 1 1 = 0x1003
    ∧ (planeAt (writePlanes .rotate90 listed.fetch.latch) 0).addr 0 0 = 0x2000
    ∧ hostAccessOk writeHazards 1 0x144 4 (started {} [] [] []) = true := by decide +kernel

theorem witness_busy : plain.busy = true ∧ 0x0C % 4 = 0 := by decide

/-- A reset of a busy engine, with a byte of the write footprint torn and one outside left alone. -/
theorem witness_reset_input :
    (resetInput {} [(0x2000, 9), (0x5000, 9)] listed).mem.load 0x2000 = 9
    ∧ (resetInput {} [(0x2000, 9), (0x5000, 9)] listed).mem.load 0x5000 = 0 := by decide +kernel

theorem witness_memory_wf : State.reset.mem.wf := Memory.wf_nil

theorem listed_inv : listed.Inv :=
  ⟨by decide +kernel, by decide, by unfold State.flagsExclusive; decide, by unfold State.errorRecorded; decide⟩

/-- A state with the invariant from which a step, and an interleaving of both agents, answers a next
state. -/
theorem witness_invariant : listed.Inv ∧ (∃ t, step listed = .next t)
    ∧ ∃ t, actAll [.host (.writeReg 4 0x0C 8), .host (.readReg 4 0x08 0), .engine] listed = .next t := by
  have hr : Ready .rotate90 listed.fetch :=
    ready_of_checks (by decide) (by decide) (by decide +kernel) (by decide +kernel)
  have hb : listed.busy = true := rfl
  have hd : decode listed.fetch.latch.cmd = .ok .rotate90 := by decide +kernel
  have hs : step listed = .next (completed .rotate90 listed.fetch) := by
    simp only [step, hb, if_true, hd]
    exact exec_ready hr
  refine ⟨listed_inv, ⟨_, hs⟩, ⟨completed .rotate90 listed.fetch, ?_⟩⟩
  have h1 : act (.host (.writeReg 4 0x0C 8)) listed = .next listed := rfl
  have h2 : act (.host (.readReg 4 0x08 0)) listed = .next listed := rfl
  have h3 : act .engine listed = .next (completed .rotate90 listed.fetch) := hs
  simp only [actAll, h1, h2, h3]

end Sys2Proof.Tests
end

section
/-! SUPPORT. The invariant, operation by operation: each change of the state keeps it, so every step of the
engine and every host action does. -/

namespace Sys2Proof.Machine

/-! ### Bits 1:0 of `DPC` (10_state.md rule R27) -/

theorem and_three_eq_zero_iff (v : Word) : v &&& 3 = 0 ↔ v.toNat % 4 = 0 := by
  rw [← BitVec.toNat_inj, BitVec.toNat_and]
  exact Nat.and_two_pow_sub_one_eq_mod v.toNat 2 ▸ Iff.rfl

theorem and_allOnes_shiftLeft {w : Nat} (v : BitVec w) (n : Nat) :
    v &&& (BitVec.allOnes w <<< n) = (v >>> n) <<< n := by
  ext i hi
  by_cases h : i < n
  · simp [h]
  · simp [h, hi, show n + (i - n) = i by omega]

/-- Clearing bits 1:0 rounds down to a multiple of 4. -/
theorem toNat_and_not_three (v : Word) : (v &&& 0xFFFFFFFC).toNat = 4 * (v.toNat / 4) := by
  have hmask : (0xFFFFFFFC : Word) = BitVec.allOnes 32 <<< 2 := by decide
  rw [hmask, and_allOnes_shiftLeft, BitVec.toNat_shiftLeft, BitVec.toNat_ushiftRight,
    Nat.shiftLeft_eq, Nat.shiftRight_eq_div_pow]
  have := v.isLt
  omega

/-- 68 is a multiple of 4, so the advance keeps `DPC` aligned (40_sequencing.md rule R139). -/
theorem advance_aligned {v : Word} (h : v &&& 3 = 0) : (v + 68) &&& 3 = 0 := by
  rw [and_three_eq_zero_iff] at h ⊢
  rw [BitVec.toNat_add, show (68 : Word).toNat = 68 from rfl]
  omega

theorem withDpc_aligned (v : Word) : (v &&& 0xFFFFFFFC) &&& 3 = 0 := by
  rw [and_three_eq_zero_iff, toNat_and_not_three]
  omega

/-! ### The error codes (60_exceptions.md rules R361 to R363) -/

theorem ArgCause.code_range (c : ArgCause) : 1 ≤ c.code.toNat ∧ c.code.toNat ≤ 12 := by
  cases c <;> decide

theorem illegalCauseCode_range (c : IllegalCause) : 1 ≤ c.code.toNat ∧ c.code.toNat ≤ 7 := by
  cases c <;> decide

/-- Error entry leaves a class and a cause that the tables list. -/
theorem raise_errorRecorded (e : CommandError) (s : State) : (raise e s).errorRecorded := by
  refine ⟨fun h => absurd h (by simp), fun _ => ?_⟩
  cases e with
  | invalidArgument c => exact .inl ⟨rfl, c.code_range⟩
  | illegalCommand c => exact .inr ⟨rfl, illegalCauseCode_range c⟩

/-! ### The flags (10_state.md rule R26) -/

theorem State.flagsExclusive.done_of_busy {s : State} (h : s.flagsExclusive) (hb : s.busy = true) :
    s.done = false :=
  Bool.eq_false_iff.mpr fun hd => h.1 ⟨hb, hd⟩

theorem State.flagsExclusive.err_of_busy {s : State} (h : s.flagsExclusive) (hb : s.busy = true) :
    s.err = false :=
  Bool.eq_false_iff.mpr fun he => h.2.1 ⟨hb, he⟩

/-! ### Each operation keeps the invariant -/

theorem inv_reset : State.reset.Inv :=
  ⟨Memory.wf_nil, rfl, by simp [State.flagsExclusive, State.reset],
    by simp [State.errorRecorded, State.reset]⟩

/-- The latch and `IE` are free: the invariant does not speak of them. -/
theorem State.Inv.congr {s t : State} (h : s.Inv) (hm : t.mem.wf) (hp : t.dpc &&& 3 = 0)
    (hb : t.busy = s.busy) (hd : t.done = s.done) (he : t.err = s.err) (hc : t.ecode = s.ecode)
    (ha : t.ecause = s.ecause) : t.Inv := by
  obtain ⟨-, -, hflags, herr⟩ := h
  refine ⟨hm, hp, ?_, ?_⟩
  · simpa only [State.flagsExclusive, hb, hd, he] using hflags
  · simpa only [State.errorRecorded, he, hc, ha] using herr

theorem State.Inv.fetch {s : State} (h : s.Inv) : s.fetch.Inv :=
  h.congr h.1 h.2.1 rfl rfl rfl rfl rfl

theorem State.Inv.advance {s : State} (h : s.Inv) : s.advance.Inv :=
  h.congr h.1 (advance_aligned h.2.1) rfl rfl rfl rfl rfl

theorem State.Inv.withMem {s : State} (h : s.Inv) {m : Memory} (hm : m.wf) : (s.withMem m).Inv :=
  h.congr hm h.2.1 rfl rfl rfl rfl rfl

theorem State.Inv.withIe {s : State} (h : s.Inv) (b : Bool) : (s.withIe b).Inv :=
  h.congr h.1 h.2.1 rfl rfl rfl rfl rfl

theorem State.Inv.withDpc {s : State} (h : s.Inv) (v : Word) : (s.withDpc v).Inv :=
  h.congr h.1 (withDpc_aligned v) rfl rfl rfl rfl rfl

/-- A running engine shows no other flag, so the error it enters is the only one. -/
theorem State.Inv.raise {s : State} (h : s.Inv) (hb : s.busy = true) (e : CommandError) :
    (raise e s).Inv := by
  obtain ⟨hm, hp, hflags, -⟩ := h
  exact ⟨hm, hp, by simp [State.flagsExclusive, hflags.done_of_busy hb], raise_errorRecorded e s⟩

theorem State.Inv.endRun {s : State} (h : s.Inv) (hb : s.busy = true) : (endRun s).Inv := by
  obtain ⟨hm, hp, hflags, herr⟩ := h
  exact ⟨hm, advance_aligned hp, by simp [State.flagsExclusive, hflags.err_of_busy hb], herr⟩

/-- A START is accepted only with `ERR = 0`, and it clears `DONE` (10_state.md rule R31). -/
theorem State.Inv.startRequest {s : State} (h : s.Inv) : (startRequest s).Inv := by
  obtain ⟨hm, hp, hflags, herr⟩ := h
  unfold Machine.startRequest
  cases he : s.err with
  | true => exact ⟨hm, hp, hflags, herr⟩
  | false => exact ⟨hm, hp, by simp [State.flagsExclusive, he], herr⟩

theorem State.Inv.clearDone {s : State} (h : s.Inv) : (clearDone s).Inv := by
  obtain ⟨hm, hp, ⟨-, hbusy_err, -⟩, herr⟩ := h
  exact ⟨hm, hp, ⟨by simp, hbusy_err, by simp⟩, herr⟩

theorem State.Inv.clearError {s : State} (h : s.Inv) : (clearError s).Inv := by
  obtain ⟨hm, hp, ⟨hbusy_done, -, -⟩, -⟩ := h
  exact ⟨hm, hp, ⟨hbusy_done, by simp, by simp⟩, by simp [State.errorRecorded]⟩

theorem resetRegisters_inv (d : Descriptor) {m : Memory} (hm : m.wf) : (resetRegisters d m).Inv :=
  inv_reset.congr hm (by simp) rfl rfl rfl rfl rfl

theorem State.Inv.completed {s : State} (h : s.Inv) (i : Instr) : (completed i s).Inv :=
  (h.withMem (wf_storeAll h.1 _ _)).advance

/-! ### The step -/

theorem State.Inv.step {s t : State} (h : s.Inv) (hs : step s = .next t) : t.Inv := by
  rcases step_next_cases hs with ⟨-, rfl⟩ | ⟨hb, rfl⟩ | ⟨hb, e, rfl⟩ | ⟨-, i, -, -, rfl⟩
  · exact h
  · exact h.fetch.endRun hb
  · exact h.fetch.raise hb e
  · exact h.fetch.completed i

/-! ### The host's actions -/

theorem State.Inv.writeCtrl {s : State} (h : s.Inv) (v : Word) : (writeCtrl v s).Inv := by
  unfold Machine.writeCtrl
  split
  · exact (h.withIe _).startRequest
  · exact h.withIe _

theorem State.Inv.writeStatus {s : State} (h : s.Inv) (v : Word) : (writeStatus v s).Inv := by
  have hdone : (if v.getLsbD 1 then Machine.clearDone s else s).Inv := by
    split
    · exact h.clearDone
    · exact h
  unfold Machine.writeStatus
  cases v.getLsbD 2
  · exact hdone
  · exact hdone.clearError

theorem State.Inv.writeIdle {s : State} (h : s.Inv) (offset : Nat) (v : Word) :
    (writeIdle offset v s).Inv := by
  unfold Machine.writeIdle
  split
  · exact h.writeCtrl v
  split
  · exact h.writeStatus v
  split
  · exact h.withDpc v
  · exact h

theorem Memory.wf_foldl_store {m : Memory} (h : m.wf) (cells : List Host.Cell) :
    (cells.foldl (fun m c => m.store (c.1 % Config.memBytes) c.2) m).wf := by
  induction cells generalizing m with
  | nil => exact h
  | cons c cells ih => exact ih (Memory.wf_store h _ (Nat.mod_lt _ (by decide)))

/-- Whatever bytes an abandoned command tore, memory stays canonical (70_reset_and_hazards.md rule R400). -/
theorem State.Inv.resetInput {s : State} (h : s.Inv) (latch : Descriptor) (torn : List Host.Cell) :
    (resetInput latch torn s).Inv := by
  unfold Machine.resetInput
  split
  · exact resetRegisters_inv _ (Memory.wf_foldl_store h.1 _)
  · exact resetRegisters_inv _ h.1

/-- All the next states of a register write: a running engine ignores it (10_state.md rule R30). -/
theorem writeRegister_next_cases {size offset : Nat} {v : Word} {s t : State}
    (h : writeRegister size offset v s = .next t) :
    t = s ∨ (s.busy = false ∧ t = writeIdle offset v s) := by
  unfold writeRegister at h
  split at h
  · have ht := (Host.Outcome.next.inj h).symm
    cases hb : s.busy with
    | true => exact .inl (by simpa [hb] using ht)
    | false => exact .inr ⟨rfl, by simpa [hb] using ht⟩
  · cases h

/-- All the next states of a host action: a read changes nothing; a register write acts on an idle engine; a
memory write stores its bytes; the reset input resets. -/
theorem hostAct_next_cases {a : HostAction} {s t : State} (h : hostAct a s = .next t) :
    t = s
    ∨ (∃ offset v, s.busy = false ∧ t = writeIdle offset v s)
    ∨ (∃ a n v, t = s.withMem (s.mem.write a n v))
    ∨ ∃ latch torn, t = resetInput latch torn s := by
  cases a with
  | readReg | readMem =>
    simp only [hostAct] at h
    split at h
    · exact .inl (Host.Outcome.next.inj h).symm
    · cases h
  | writeReg size offset v =>
    exact (writeRegister_next_cases h).imp_right fun hw => .inl ⟨offset, v, hw⟩
  | writeMem bound a n v =>
    change hostStore bound a n v s = .next t at h
    rcases hostStore_cases bound a n v s with ⟨-, hw⟩ | ⟨-, hw⟩ <;> rw [hw] at h
    · exact .inr (.inr (.inl ⟨a, n, v, (Host.Outcome.next.inj h).symm⟩))
    · cases h
  | reset latch torn => exact .inr (.inr (.inr ⟨latch, torn, (Host.Outcome.next.inj h).symm⟩))

theorem State.Inv.hostAct {s t : State} (h : s.Inv) {a : HostAction} (ha : hostAct a s = .next t) :
    t.Inv := by
  rcases hostAct_next_cases ha with rfl | ⟨offset, v, -, rfl⟩ | ⟨a, n, v, rfl⟩ | ⟨latch, torn, rfl⟩
  · exact h
  · exact h.writeIdle offset v
  · exact h.withMem (Memory.wf_write h.1 a n v)
  · exact h.resetInput latch torn

/-! ### Interleavings of both agents -/

theorem State.Inv.act {s t : State} (h : s.Inv) {a : Action} (ha : act a s = .next t) : t.Inv := by
  cases a with
  | engine => exact h.step ha
  | host a => exact h.hostAct ha

/-- A list of actions runs its first action, then the others. -/
theorem actAll_cons_next {a : Action} {as : List Action} {s u : State}
    (h : actAll (a :: as) s = .next u) : ∃ t, act a s = .next t ∧ actAll as t = .next u := by
  rw [actAll] at h
  split at h
  · exact ⟨_, ‹_›, h⟩
  · cases h
  · cases h

/-- What every action keeps, every interleaving keeps. -/
theorem actAll_keeps {P : State → Prop} (hP : ∀ a s t, P s → act a s = .next t → P t) (as : List Action)
    {s u : State} (hs : P s) (h : actAll as s = .next u) : P u := by
  induction as generalizing s with
  | nil => exact Host.Outcome.next.inj h ▸ hs
  | cons a as ih =>
    obtain ⟨t, ha, hrest⟩ := actAll_cons_next h
    exact ih (hP a s t hs ha) hrest

/-- Settles O59: each outcome of a step is a fetch followed by an operation that keeps the invariant. -/
theorem stepKeepsInvariant : Obligations.StepKeepsInvariant :=
  fun _ _ h hs => h.step hs

/-- Settles O60, by induction on the actions. -/
theorem actionsKeepInvariant : Obligations.ActionsKeepInvariant :=
  fun as _ _ h hs => actAll_keeps (fun _ _ _ h ha => h.act ha) as h hs

/-- Settles O58. -/
theorem invariantAtReset : Obligations.InvariantAtReset :=
  inv_reset

end Sys2Proof.Machine
end

section
/-! SUPPORT. The register space: what a read of each offset returns and what a write of each offset does, an
equation per register (10_state.md rules R22 to R33). -/

namespace Sys2Proof.Machine

/-! ### An aligned 32-bit access (rule R22) -/

theorem registerAccessOk_aligned {offset : Nat} (h : offset % 4 = 0) : registerAccessOk 4 offset = true := by
  simp [registerAccessOk, h]

theorem readRegister_aligned {offset : Nat} (h : offset % 4 = 0) (m : Nat) (s : State) :
    readRegister 4 offset m s
      = .ok (registerValue offset (if isInspectionWindow offset then momentAhead m s else s)) := by
  simp [readRegister, registerAccessOk_aligned h]

theorem writeRegister_aligned {offset : Nat} (h : offset % 4 = 0) (v : Word) (s : State) :
    writeRegister 4 offset v s = .next (if s.busy then s else writeIdle offset v s) := by
  simp [writeRegister, registerAccessOk_aligned h]

/-- A register whose write does nothing to an idle engine ignores every write. -/
theorem writeRegister_ignored {offset : Nat} (h : offset % 4 = 0) {v : Word} {s : State}
    (hw : writeIdle offset v s = s) : writeRegister 4 offset v s = .next s := by
  rw [writeRegister_aligned h, hw, ite_self]

theorem writeRegister_idle {offset : Nat} (h : offset % 4 = 0) (v : Word) {s : State} (hb : s.busy = false) :
    writeRegister 4 offset v s = .next (writeIdle offset v s) := by
  simp [writeRegister_aligned h, hb]

/-- Values that a write to an idle engine does not tell apart are not told apart at all. -/
theorem writeRegister_congr {offset : Nat} (h : offset % 4 = 0) {v w : Word} {s : State}
    (hw : writeIdle offset v s = writeIdle offset w s) :
    writeRegister 4 offset v s = writeRegister 4 offset w s := by
  rw [writeRegister_aligned h, writeRegister_aligned h, hw]

/-! ### The register map (rule R23) -/

theorem registerValue_latch {i : Nat} (hi : i < 17) (s : State) :
    registerValue (0x40 + 4 * i) s = s.latch.word i := by
  have hindex : (0x40 + 4 * i - 0x40) / 4 = i := by omega
  simp only [registerValue, hindex]
  simp (disch := omega) only [if_neg]
  exact if_pos (by omega)

/-- A reserved offset (rule R29). -/
theorem registerValue_reserved {offset : Nat} (h : (0x10 ≤ offset ∧ offset ≤ 0x3C) ∨ 0x84 ≤ offset)
    (s : State) : registerValue offset s = 0 := by
  unfold registerValue
  simp (disch := omega) only [if_neg]

theorem isInspectionWindow_latch {i : Nat} (hi : i < 17) : isInspectionWindow (0x40 + 4 * i) = true := by
  have hlast : 0x40 + 4 * i ≤ 0x80 := by omega
  simp [isInspectionWindow, hlast]

theorem readRegister_id (m : Nat) (s : State) : readRegister 4 0x00 m s = .ok Config.idValue := rfl

theorem readRegister_ctrl (m : Nat) (s : State) : readRegister 4 0x04 m s = .ok s.ctrlWord := rfl

theorem readRegister_status (m : Nat) (s : State) : readRegister 4 0x08 m s = .ok s.statusWord := rfl

theorem readRegister_dpc (m : Nat) (s : State) :
    readRegister 4 0x0C m s = .ok (momentAhead m s).dpc := rfl

theorem readRegister_latch {i : Nat} (hi : i < 17) (m : Nat) (s : State) :
    readRegister 4 (0x40 + 4 * i) m s = .ok ((momentAhead m s).latch.word i) := by
  rw [readRegister_aligned (by omega), isInspectionWindow_latch hi, if_pos rfl, registerValue_latch hi]

/-- With nothing to wait for, a moment makes no difference. -/
theorem momentAhead_self {m : Nat} {s : State} (h : s.busy = false ∨ m = 0) : momentAhead m s = s := by
  rcases h with hb | rfl
  · exact momentAhead_idle hb m
  · rfl

/-! ### The fields of `CTRL` and `STATUS` (rules R25, R26) -/

theorem ctrlWord_eq (s : State) : s.ctrlWord = if s.ie then 2 else 0 := by
  unfold State.ctrlWord
  cases s.ie <;> rfl

theorem getLsbD_ctrlWord (s : State) (n : Nat) : s.ctrlWord.getLsbD n = (n == 1 && s.ie) := by
  rw [ctrlWord_eq]
  cases s.ie with
  | false => simp
  | true =>
    rw [if_pos rfl, show (2 : Word) = BitVec.twoPow 32 1 by decide, BitVec.getLsbD_twoPow, Bool.eq_iff_iff]
    simpa using eq_comm

/-- Appending reads as one number: `x` counts multiples of `2 ^ n`. -/
theorem toNat_append_eq {m n : Nat} (x : BitVec m) (y : BitVec n) :
    (x ++ y).toNat = x.toNat * 2 ^ n + y.toNat := by
  rw [BitVec.toNat_append, ← Nat.shiftLeft_add_eq_or_of_lt y.isLt, Nat.shiftLeft_eq]

theorem toNat_statusWord (s : State) :
    s.statusWord.toNat = s.busy.toNat + 2 * s.done.toNat + 4 * s.err.toNat + 16 * s.ecode.toNat
      + 256 * s.ecause.toNat := by
  simp only [State.statusWord, toNat_append_eq, BitVec.toNat_ofBool, BitVec.toNat_ofNat]
  omega

theorem ctrlWord_reserved (s : State) : s.ctrlWord &&& 0xFFFFFFFD = 0 := by
  rw [ctrlWord_eq]
  cases s.ie <;> rfl

/-- The mask of the reserved bits, laid out as the fields of `STATUS` are, meets none of them. -/
theorem statusFields_and_reserved (cause : BitVec 8) (code : BitVec 4) (err done busy : BitVec 1) :
    (0#16 ++ cause ++ code ++ 0#1 ++ err ++ done ++ busy)
      &&& (0xFFFF#16 ++ 0#8 ++ 0#4 ++ 1#1 ++ 0#1 ++ 0#1 ++ 0#1) = 0 := by
  simp only [BitVec.and_append, BitVec.and_zero, BitVec.zero_and]
  rfl

theorem statusWord_reserved (s : State) : s.statusWord &&& 0xFFFF0008 = 0 :=
  statusFields_and_reserved s.ecause s.ecode _ _ _

/-! ### The moments of a run (70_reset_and_hazards.md rule R410) -/

theorem core_run_succ {s t : State} (h : step s = .next t) (k : Nat) : core.run (k + 1) s = core.run k t := by
  have hcore : core.step s = .next t := h
  simp only [Host.Core.run, hcore]

theorem core_run_succ_next {k : Nat} {s u : State} (h : core.run (k + 1) s = .next u) :
    ∃ t, step s = .next t ∧ core.run k t = .next u := by
  cases hs : step s with
  | next t => exact ⟨t, rfl, (core_run_succ hs k).symm.trans h⟩
  | fault f => cases f
  | refused r =>
    have hcore : core.step s = .refused r := hs
    simp [Host.Core.run, hcore] at h

/-- A step of an idle engine changes nothing (40_sequencing.md rule R130). -/
theorem step_idle {s : State} (hb : s.busy = false) : step s = .next s := by
  simp [step, hb]

/-- Every command of a run passes two moments. -/
theorem momentAhead_of_run {k : Nat} {s t : State} (h : core.run k s = .next t) (m : Nat) :
    momentAhead (2 * k + m) s = momentAhead m t := by
  induction k generalizing s with
  | zero =>
    cases Host.Outcome.next.inj h
    simp
  | succ k ih =>
    obtain ⟨u, hu, hrun⟩ := core_run_succ_next h
    cases hb : s.busy with
    | true =>
      rw [show 2 * (k + 1) + m = 2 * k + m + 2 by omega, momentAhead_add_two _ hb hu]
      exact ih hrun
    | false =>
      rw [step_idle hb] at hu
      cases hu
      rw [← ih hrun, momentAhead_idle hb, momentAhead_idle hb]

/-- A moment of a run is a state before or after a command, or such a state with the descriptor of its command
latched. -/
theorem momentAhead_cases : (m : Nat) → (s : State) →
    ∃ k t, core.run k s = .next t
      ∧ (momentAhead m s = t ∨ (t.busy = true ∧ momentAhead m s = t.fetch))
  | 0, s => ⟨0, s, rfl, .inl rfl⟩
  | 1, s => by
    refine ⟨0, s, rfl, ?_⟩
    cases hb : s.busy with
    | true => exact .inr ⟨rfl, by simp [momentAhead_one, hb]⟩
    | false => exact .inl (momentAhead_idle hb 1)
  | m + 2, s => by
    cases hb : s.busy with
    | false => exact ⟨0, s, rfl, .inl (momentAhead_idle hb _)⟩
    | true =>
      cases hs : step s with
      | next t =>
        obtain ⟨k, u, hrun, hu⟩ := momentAhead_cases m t
        rw [momentAhead_add_two m hb hs]
        exact ⟨k + 1, u, (core_run_succ hs k).trans hrun, hu⟩
      | fault | refused => exact ⟨0, s, rfl, .inr ⟨hb, by simp [momentAhead, hb, hs]⟩⟩

/-- The values that `f` takes at the moments of a run are those it takes before a command, after it, or with its
descriptor latched. -/
theorem exists_moment_iff {α : Type} (f : State → α) (s : State) (v : α) :
    (∃ m, f (momentAhead m s) = v)
      ↔ ∃ k t, core.run k s = .next t ∧ (v = f t ∨ (t.busy = true ∧ v = f t.fetch)) := by
  constructor
  · rintro ⟨m, rfl⟩
    obtain ⟨k, t, hrun, hm | ⟨hb, hm⟩⟩ := momentAhead_cases m s
    · exact ⟨k, t, hrun, .inl (congrArg f hm)⟩
    · exact ⟨k, t, hrun, .inr ⟨hb, congrArg f hm⟩⟩
  · rintro ⟨k, t, hrun, rfl | ⟨hb, rfl⟩⟩
    · exact ⟨2 * k, congrArg f (momentAhead_of_run hrun 0)⟩
    · refine ⟨2 * k + 1, congrArg f ?_⟩
      exact (momentAhead_of_run hrun 1).trans (if_pos hb)

/-! ### What a write does (rules R25 to R32) -/

@[simp] theorem writeIdle_ctrl (v : Word) (s : State) : writeIdle 0x04 v s = writeCtrl v s := rfl
@[simp] theorem writeIdle_status (v : Word) (s : State) : writeIdle 0x08 v s = writeStatus v s := rfl
@[simp] theorem writeIdle_dpc (v : Word) (s : State) : writeIdle 0x0C v s = s.withDpc v := rfl

/-- Only `CTRL`, `STATUS` and `DPC` can be written (rules R23, R29). -/
theorem writeIdle_readOnly {offset : Nat} (hc : offset ≠ 0x04) (hs : offset ≠ 0x08) (hd : offset ≠ 0x0C)
    (v : Word) (s : State) : writeIdle offset v s = s := by
  simp [writeIdle, hc, hs, hd]

theorem writeCtrl_noStart {v : Word} (hv : v.getLsbD 0 = false) (s : State) :
    writeCtrl v s = s.withIe (v.getLsbD 1) := by
  simp only [writeCtrl, hv, Bool.false_eq_true, if_false]

theorem writeCtrl_start {v : Word} (hv : v.getLsbD 0 = true) (s : State) :
    writeCtrl v s = startRequest (s.withIe (v.getLsbD 1)) := by
  simp only [writeCtrl, hv, if_true]

theorem startRequest_err {s : State} (he : s.err = true) : startRequest s = s := by
  simp [startRequest, he]

theorem startRequest_ok {s : State} (he : s.err = false) : startRequest s = startRun s := by
  simp [startRequest, he]

theorem writeStatus_eq (v : Word) (s : State) :
    writeStatus v s = { s with
      done := s.done && !v.getLsbD 1
      err := s.err && !v.getLsbD 2
      ecode := if v.getLsbD 2 then 0 else s.ecode
      ecause := if v.getLsbD 2 then 0 else s.ecause } := by
  unfold writeStatus
  cases v.getLsbD 1 <;> cases v.getLsbD 2 <;> simp [clearDone, clearError]

/-- `CTRL` looks at bits 0 and 1 alone. -/
theorem writeCtrl_congr {v w : Word} (h0 : v.getLsbD 0 = w.getLsbD 0) (h1 : v.getLsbD 1 = w.getLsbD 1)
    (s : State) : writeCtrl v s = writeCtrl w s := by
  simp only [writeCtrl, h0, h1]

/-- `STATUS` looks at bits 1 and 2 alone. -/
theorem writeStatus_congr {v w : Word} (h1 : v.getLsbD 1 = w.getLsbD 1) (h2 : v.getLsbD 2 = w.getLsbD 2)
    (s : State) : writeStatus v s = writeStatus w s := by
  simp only [writeStatus, h1, h2]

/-! ### The obligations -/

/-- Settles O48: the fields of the two words, and the moments of a run by `exists_moment_iff`. -/
theorem registerMapReads : Obligations.RegisterMapReads := by
  intro s
  refine ⟨fun m => ⟨⟨_, readRegister_ctrl m s, fun n _ => getLsbD_ctrlWord s n⟩,
    ⟨_, readRegister_status m s, toNat_statusWord s⟩⟩, fun m hm => ⟨?_, fun i hi => ?_⟩, fun v => ?_,
    fun i v hi => ?_⟩
  · rw [readRegister_dpc, momentAhead_self hm]
  · rw [readRegister_latch hi, momentAhead_self hm]
  · simp only [readRegister_dpc, Except.ok.injEq]
    refine (exists_moment_iff State.dpc s v).trans ?_
    refine exists₂_congr fun k t => and_congr_right fun _ => ⟨?_, .inl⟩
    rintro (h | ⟨-, h⟩) <;> exact h
  · simp only [readRegister_latch hi, Except.ok.injEq]
    exact exists_moment_iff (fun t => t.latch.word i) s v

/-- Settles O49. -/
theorem idReadsConstant : Obligations.IdReadsConstant :=
  fun s v m => ⟨readRegister_id m s,
    writeRegister_ignored rfl (writeIdle_readOnly (by decide) (by decide) (by decide) v s),
    readRegister_id m State.reset⟩

/-- Settles O50: reserved offsets by the register map, reserved bits by what a write looks at. -/
theorem reservedReadsZeroWritesIgnored : Obligations.ReservedReadsZeroWritesIgnored := by
  intro s v
  refine ⟨fun off ha hoff => ⟨fun m => ?_, ?_⟩, fun off ha hoff => ?_, ctrlWord_reserved s,
    statusWord_reserved s, ?_, ?_⟩
  · rw [readRegister_aligned ha, registerValue_reserved hoff]
  · exact writeRegister_ignored ha (writeIdle_readOnly (by omega) (by omega) (by omega) v s)
  · exact writeRegister_ignored ha (writeIdle_readOnly (by omega) (by omega) (by omega) v s)
  · exact writeRegister_congr rfl (writeCtrl_congr (by simp) (by simp) s)
  · exact writeRegister_congr rfl (writeStatus_congr (by simp) (by simp) s)

/-- Settles O51. -/
theorem busyIgnoresRegisterWrites : Obligations.BusyIgnoresRegisterWrites := by
  intro s off v ha
  refine ⟨fun hb => ?_, ?_, fun m => ⟨_, readRegister_aligned ha m s⟩⟩
  · rw [writeRegister_aligned ha, if_pos hb]
  · rw [readRegister_aligned ha, momentAhead_zero, ite_self]

/-- Settles O52. -/
theorem startAction : Obligations.StartAction := by
  intro s v hb
  rw [writeRegister_idle rfl v hb, writeIdle_ctrl]
  refine ⟨fun hv he => ?_, fun hv he => ?_, fun hv => ?_⟩
  · rw [writeCtrl_start hv, startRequest_err (s := s.withIe (v.getLsbD 1)) he]; rfl
  · rw [writeCtrl_start hv, startRequest_ok (s := s.withIe (v.getLsbD 1)) he]; rfl
  · rw [writeCtrl_noStart hv]; rfl

/-- Settles O53. -/
theorem clearAction : Obligations.ClearAction := by
  intro s v hb
  refine ⟨writeStatus v s, ?_, writeStatus_eq v s⟩
  rw [writeRegister_idle rfl v hb, writeIdle_status]

/-- Settles O54. -/
theorem dpcWriteClearsLowBits : Obligations.DpcWriteClearsLowBits := by
  intro s v hb
  refine ⟨s.withDpc v, ?_, rfl, toNat_and_not_three v⟩
  rw [writeRegister_idle rfl v hb, writeIdle_dpc]

/-- Settles O55. -/
theorem interruptLevel : Obligations.InterruptLevel := by
  intro s
  simp only [State.irq, Bool.and_eq_true, Bool.or_eq_true]

/-- Settles O56. -/
theorem resetClearsControlState : Obligations.ResetClearsControlState :=
  ⟨rfl, rfl, rfl, rfl, rfl, rfl, rfl, rfl, step_idle rfl⟩

end Sys2Proof.Machine
end

section
/-! SUPPORT. When a command, and a step of the engine, has no meaning (20_memory.md rule R68). -/

namespace Sys2Proof.Machine

/-- A command has no meaning exactly when it is a legal data command whose argument checks pass and whose
footprint precondition fails. -/
theorem exec_refused_iff {i : Instr} {s : State} {r : Refusal} :
    exec i s = .refused r ↔
      r = .footprintPrecondition ∧ i ≠ .endList ∧ i.wellFormed = true ∧ ArgsOk i s.latch
        ∧ ¬ FootprintPrecondition (readPlanes i s.latch) (writePlanes i s.latch) := by
  by_cases hi : i = .endList
  · subst hi
    simp [exec, execEnd]
  cases hw : i.wellFormed with
  | false => simp [exec_ill_formed hw]
  | true =>
    rcases exec_data_cases hi hw s with ⟨c, hc, he⟩ | ⟨⟨-, -, -, hf⟩, he⟩ | ⟨ha, hf, he⟩
    · have hbad : ¬ ArgsOk i s.latch := by simp [← instrArgFault_eq_none_iff hi hw, hc]
      simp [he, hbad]
    · simp [he, hf]
    · simp [he, hi, ha, hf, eq_comm]

/-- A running engine executes the form its command word decodes to (40_sequencing.md rule R132). -/
theorem step_decoded {s : State} {i : Instr} (hb : s.busy = true) (hd : decode (s.fetchedWord 0) = .ok i) :
    step s = exec i s.fetch := by
  have hcmd : decode s.fetch.latch.cmd = .ok i := hd
  simp only [step, hb, if_true, hcmd]

/-- A running engine whose command word encodes nothing raises IllegalCommand (40_sequencing.md rule R132). -/
theorem step_undecoded {s : State} {c : IllegalCause} (hb : s.busy = true)
    (hd : decode (s.fetchedWord 0) = .error c) : step s = .next (raise (.illegalCommand c) s.fetch) := by
  have hcmd : decode s.fetch.latch.cmd = .error c := hd
  simp only [step, hb, if_true, hcmd, raiseIllegal_eq]

/-- A step has no meaning exactly when it executes a command that has none. -/
theorem step_refused_iff {s : State} {r : Refusal} :
    step s = .refused r ↔
      s.busy = true ∧ ∃ i, decode (s.fetchedWord 0) = .ok i ∧ exec i s.fetch = .refused r := by
  cases hb : s.busy with
  | false => simp [step_idle hb]
  | true =>
    cases hd : decode (s.fetchedWord 0) with
    | error c => simp [step_undecoded hb hd]
    | ok i => simp [step_decoded hb hd]

/-- Settles O10: the step refuses when the decoded command does (`step_refused_iff`), which is said for every
form by `exec_refused_iff`; no fault exists. -/
theorem stepRefusesOnlyFootprint : Obligations.StepRefusesOnlyFootprint := by
  intro s
  refine ⟨(fun f => nomatch f), fun r => ?_⟩
  simp only [step_refused_iff, exec_refused_iff]
  constructor
  · rintro ⟨hb, i, hd, hr, hcommand⟩
    exact ⟨hr, hb, i, hd, hcommand⟩
  · rintro ⟨hr, hb, i, hd, hcommand⟩
    exact ⟨hb, i, hd, hr, hcommand⟩

end Sys2Proof.Machine
end

section
/-! SUPPORT. `MemRead` and `MemWrite` (20_memory.md rules R61, R62) byte by byte, and the host's accesses to the
memory of a running engine (70_reset_and_hazards.md rule R410). -/

namespace Sys2Proof.Machine

/-! ### Reads and writes of several bytes (rules R61, R62) -/

theorem add_cast_succ (a : Int) (k : Nat) : a + (k + 1 : Nat) = a + 1 + k := by
  push_cast
  ring

/-- `MemRead` is the little-endian sum of the bytes. -/
theorem Memory.read_eq_sum (m : Memory) (a : Int) (n : Nat) :
    m.read a n = ∑ k ∈ Finset.range n, (m.load (address (a + k))).toNat * 256 ^ k := by
  induction n generalizing a with
  | zero => rfl
  | succ n ih =>
    have htail : 256 * m.read (a + 1) n
        = ∑ k ∈ Finset.range n, (m.load (address (a + (k + 1 : Nat)))).toNat * 256 ^ (k + 1) := by
      rw [ih, Finset.mul_sum]
      exact Finset.sum_congr rfl fun k _ => by rw [add_cast_succ]; ring
    rw [Memory.read, htail, Finset.sum_range_succ', add_comm]
    simp

/-- `MemWrite` changes no byte but the `n` it names. -/
theorem Memory.load_write_ne {m : Memory} {a : Int} {n v b : Nat} (h : ∀ k < n, b ≠ address (a + k)) :
    (m.write a n v).load b = m.load b := by
  induction n generalizing m a v with
  | zero => rfl
  | succ n ih =>
    have hlater : ∀ k < n, b ≠ address (a + 1 + k) := fun k hk =>
      add_cast_succ a k ▸ h (k + 1) (by omega)
    rw [Memory.write, ih hlater]
    exact m.load_store_ne _ (by simpa using h 0 (by omega))

/-- After `MemWrite` each byte it names holds its byte of the value, provided that the bytes do not wrap onto
one another. -/
theorem Memory.load_write {m : Memory} {a : Int} {n v k : Nat} (hn : n ≤ Config.memBytes) (hk : k < n) :
    (m.write a n v).load (address (a + k)) = BitVec.ofNat 8 (v / 256 ^ k) := by
  induction n generalizing m a v k with
  | zero => omega
  | succ n ih =>
    rw [Memory.write]
    cases k with
    | zero =>
      have hlater : ∀ j < n, address a ≠ address (a + 1 + j) := fun j hj he => by
        rw [address_eq_iff] at he
        unfold Config.memBytes at *
        omega
      simp [Memory.load_write_ne hlater]
    | succ k =>
      rw [add_cast_succ, ih (by omega) (by omega), Nat.div_div_eq_div_mul, ← pow_succ']

/-- A written value reads back, modulo its size. -/
theorem Memory.read_write (m : Memory) (a : Int) {n : Nat} (v : Nat) (hn : n ≤ Config.memBytes) :
    (m.write a n v).read a n = v % 256 ^ n := by
  have hbytes : (m.write a n v).read a n = ∑ k ∈ Finset.range n, v / 256 ^ k % 256 * 256 ^ k := by
    rw [Memory.read_eq_sum]
    refine Finset.sum_congr rfl fun k hk => ?_
    rw [Memory.load_write hn (Finset.mem_range.mp hk)]
    simp
  rw [hbytes]
  clear hbytes hn
  induction n with
  | zero => simp [Nat.mod_one]
  | succ n ih => rw [Finset.sum_range_succ, ih, pow_succ, Nat.mod_mul, mul_comm (256 ^ n)]

/-! ### Accesses that the host makes while the engine runs (rule R410) -/

/-- The bytes `a`, …, `a + n - 1` and the run share an address. -/
theorem Span.not_disjoint_of_address {sp : Span} {a : Int} {n j k : Nat} (hj : j < sp.len) (hk : k < n)
    (he : address (a + k) = address (sp.start + j)) : sp.disjoint ⟨a, n⟩ = false := by
  rw [Bool.eq_false_iff]
  exact fun hd => (Span.disjoint_iff sp ⟨a, n⟩).mp hd j hj k hk he.symm

/-- An access to a byte of a hazard of the next command is not allowed. -/
theorem hostAccessOk_hazard {hazards : State → List Span} {bound : Nat} {a : Int} {n k j : Nat} {s : State}
    {sp : Span} (hb : s.busy = true) (hsp : sp ∈ hazards s) (hj : j < sp.len) (hk : k < n)
    (he : address (a + k) = address (sp.start + j)) : hostAccessOk hazards bound a n s = false := by
  rw [Bool.eq_false_iff]
  intro hok
  have hdis := disjoint_of_hostAccessOk hb hok hsp
  rw [Span.not_disjoint_of_address hj hk he] at hdis
  cases hdis

theorem hostStore_hazard {bound : Nat} {a : Int} {n v : Nat} {s : State}
    (h : hostAccessOk writeHazards bound a n s = false) : hostStore bound a n v s = .refused .hostHazard := by
  simp [hostStore, h]

theorem hostLoad_hazard {bound : Nat} {a : Int} {n : Nat} {s : State}
    (h : hostAccessOk readHazards bound a n s = false) : hostLoad bound a n s = .error .hostHazard := by
  simp [hostLoad, h]

theorem hostStore_ok {bound : Nat} {a : Int} {n v : Nat} {s : State}
    (h : hostAccessOk writeHazards bound a n s = true) :
    hostStore bound a n v s = .next { s with mem := s.mem.write a n v } := by
  simp [hostStore, h, State.withMem]

theorem hostLoad_ok {bound : Nat} {a : Int} {n : Nat} {s : State}
    (h : hostAccessOk readHazards bound a n s = true) : hostLoad bound a n s = .ok (s.mem.read a n) := by
  simp [hostLoad, h]

/-- The planes of the command that the next step runs are those of its form, when nothing stops it. -/
theorem pendingPlanes_decoded {s : State} {i : Instr} (hd : decode (s.fetchedWord 0) = .ok i)
    (hw : i.wellFormed = true) (ha : instrArgFault i s.fetch.latch = none) :
    pendingPlanes s = (readPlanes i s.fetch.latch, writePlanes i s.fetch.latch) := by
  have hcmd : decode s.fetch.latch.cmd = .ok i := hd
  simp only [pendingPlanes, hcmd, hw, ha, Option.isNone_none, Bool.and_self, if_true, readPlanes, writePlanes]

theorem pendingPlanes_ready {s : State} {i : Instr} (hd : decode (s.fetchedWord 0) = .ok i)
    (hr : Ready i s.fetch) :
    pendingPlanes s = (readPlanes i s.fetch.latch, writePlanes i s.fetch.latch) := by
  obtain ⟨hi, hw, hargs, -⟩ := hr
  exact pendingPlanes_decoded hd hw ((instrArgFault_eq_none_iff hi hw _).mpr hargs)

/-- A byte of the descriptor at `DPC` lies in a run that the host must not write. -/
theorem hostStore_descriptor {bound : Nat} {a : Int} {n v k j : Nat} {s : State} (hb : s.busy = true)
    (hk : k < n) (hj : j < 68) (he : address (a + k) = (s.dpc.toNat + j) % 2 ^ 32) :
    hostStore bound a n v s = .refused .hostHazard := by
  have hspan : address (a + k) = address ((descriptorSpan s).start + j) := by
    rw [he]
    simp only [address, descriptorSpan, Config.memBytes]
    omega
  exact hostStore_hazard (hostAccessOk_hazard hb List.mem_cons_self hj hk hspan)

/-- A byte of the planes of the next command lies in a run that the host must not write. -/
theorem hostStore_planes {bound : Nat} {a : Int} {n v k : Nat} {s : State} (hb : s.busy = true) (hk : k < n)
    (hf : InFootprint ((pendingPlanes s).1 ++ (pendingPlanes s).2) (address (a + k))) :
    hostStore bound a n v s = .refused .hostHazard := by
  obtain ⟨sp, hsp, j, hj, he⟩ := inFootprint_iff_span.mp hf
  exact hostStore_hazard (hostAccessOk_hazard hb (List.mem_cons_of_mem _ hsp) hj hk he.symm)

/-- A byte of the destination planes of the next command lies in a run that the host must not read. -/
theorem hostLoad_planes {bound : Nat} {a : Int} {n k : Nat} {s : State} (hb : s.busy = true) (hk : k < n)
    (hf : InFootprint (pendingPlanes s).2 (address (a + k))) : hostLoad bound a n s = .error .hostHazard := by
  obtain ⟨sp, hsp, j, hj, he⟩ := inFootprint_iff_span.mp hf
  exact hostLoad_hazard (hostAccessOk_hazard hb hsp hj hk he.symm)

/-- The footprint of two lists of planes together. -/
theorem inFootprint_append {ps qs : List Plane} {a : Nat} :
    InFootprint (ps ++ qs) a ↔ InFootprint ps a ∨ InFootprint qs a := by
  simp only [inFootprint_iff_span, List.flatMap_append, List.mem_append, or_and_right, exists_or]

/-! ### A list that ends at once -/

theorem decode_zero {s : State} (hz : s.fetchedWord 0 = 0) : decode (s.fetchedWord 0) = .ok .endList := by
  rw [hz]
  decide

/-- END uses no planes. -/
theorem pendingPlanes_endList {s : State} (hz : s.fetchedWord 0 = 0) : pendingPlanes s = ([], []) :=
  pendingPlanes_decoded (decode_zero hz) rfl rfl

theorem spansMeet_nil (xs : List Span) : spansMeet xs [] = false := by simp [spansMeet]

/-- Where no byte is unknown, every command is determined. -/
theorem determined_known (s : State) : Outlook.determined ⟨s, []⟩ = true := by
  simp [Outlook.determined, spansMeet_nil]

/-- The hazards of a list that ends at once are those of its END. -/
theorem runHazards_endList (hazards : State → List Span) {n : Nat} {s : State} (hb : s.busy = true)
    (hz : s.fetchedWord 0 = 0) (hn : 0 < n) : runHazards hazards n [] ⟨s, []⟩ = some (hazards s) := by
  obtain ⟨n, rfl⟩ := Nat.exists_eq_succ_of_ne_zero hn.ne'
  have hstep : step s = .next (endRun s.fetch) := step_decoded (i := .endList) hb (decode_zero hz)
  have hstopped : (Outlook.next ⟨s, []⟩).state.busy = false := by simp [Outlook.next, hstep]
  simp [runHazards, Outlook.settled, hb, determined_known, runHazards_idle hazards n _ hstopped]

theorem hostAccessOk_endList (hazards : State → List Span) {bound : Nat} {a : Int} {n : Nat} {s : State}
    (hb : s.busy = true) (hz : s.fetchedWord 0 = 0) (hbound : 0 < bound) :
    hostAccessOk hazards bound a n s = outside (hazards s) a n := by
  simp [hostAccessOk, runHazards_endList hazards hb hz hbound]

/-- A list that ends at once writes nothing, so the host may read everything. -/
theorem hostLoad_endList {bound : Nat} {a : Int} {n : Nat} {s : State} (hb : s.busy = true)
    (hz : s.fetchedWord 0 = 0) (hbound : 0 < bound) : hostLoad bound a n s = .ok (s.mem.read a n) := by
  apply hostLoad_ok
  simp [hostAccessOk_endList readHazards hb hz hbound, readHazards, pendingPlanes_endList hz, outside]

/-- The only run that the host must not write while a list that ends at once is pending is its descriptor. -/
theorem hostStore_endList {bound : Nat} {a : Int} {n v : Nat} {s : State} (hb : s.busy = true)
    (hz : s.fetchedWord 0 = 0) (hbound : 0 < bound)
    (hout : ∀ k < n, ∀ j < 68, address (a + k) ≠ (s.dpc.toNat + j) % 2 ^ 32) :
    hostStore bound a n v s = .next { s with mem := s.mem.write a n v } := by
  have hdisjoint : (descriptorSpan s).disjoint ⟨a, n⟩ = true := by
    refine (Span.disjoint_iff _ _).mpr fun j hj k hk he => hout k hk j hj ?_
    rw [← he]
    simp only [address, descriptorSpan, Config.memBytes]
    omega
  apply hostStore_ok
  simp [hostAccessOk_endList writeHazards hb hz hbound, writeHazards, pendingPlanes_endList hz, outside,
    hdisjoint]

/-- Settles O47: the bytes by the rules of `Memory.read` and `Memory.write`, which hold for every size; the
accesses by the hazards of the command that runs next. -/
theorem memoryReadWriteAndHostAccess : Obligations.MemoryReadWriteAndHostAccess := by
  intro m a n v hsize
  have hn : n ≤ Config.memBytes := by
    unfold Config.memBytes
    omega
  refine ⟨m.read_eq_sum a n, fun k hk => ?_, fun b hb => Memory.load_write_ne hb, m.read_write a v hn, ?_⟩
  · exact (congrArg BitVec.toNat (Memory.load_write hn hk)).trans (BitVec.toNat_ofNat _ _)
  rintro s bound rfl
  refine ⟨fun hb => ⟨hostLoad_ok (hostAccessOk_idle _ _ _ _ hb), hostStore_ok (hostAccessOk_idle _ _ _ _ hb)⟩,
    fun hb => ⟨fun k j hk hj he => hostStore_descriptor hb hk hj he, fun k i hk hd hr => ?_,
      fun hz hbound => ⟨hostLoad_endList hb hz hbound, fun hout => hostStore_endList hb hz hbound ?_⟩⟩⟩
  · have hp := pendingPlanes_ready hd hr
    refine ⟨fun hf => hostStore_planes hb hk ?_, fun hf => hostLoad_planes hb hk ?_⟩
    · rw [hp]
      exact inFootprint_append.mpr hf
    · rw [hp]
      exact hf
  · exact fun k hk j hj => hout k j hk hj

end Sys2Proof.Machine
end

section
/-! SUPPORT. Noninterference (20_memory.md rule R66): every byte that a data command stores is computed from
bytes of its read footprint alone. Each stage of a command is said to give the same result over two memories, or
two samplings, that agree inside the source image. -/

namespace Sys2Proof.Machine

/-! ### Memories that hold the same source bytes -/

/-- The two memories hold the same byte at every position of the planes. -/
def SameBytes (ps : List Plane) (m m' : Memory) : Prop :=
  ∀ k y off, IsPosition ps k y off → (planeAt ps k).byte m' y off = (planeAt ps k).byte m y off

theorem sameBytes_of_footprint {ps : List Plane} {m m' : Memory}
    (h : ∀ a, InFootprint ps a → m'.load a = m.load a) : SameBytes ps m m' :=
  fun k y off hp => h _ ⟨k, y, off, hp, rfl⟩

/-- A position of the source planes, from their geometry. -/
theorem isPosition_sourcePlanes {d : Descriptor} {gs : List Geom} {k y off : Nat} {g : Geom}
    (hg : gs[k]? = some g) (hy : y < g.rows) (ho : off < g.rb) : IsPosition (sourcePlanes d gs) k y off := by
  refine ⟨by simpa [sourcePlanes] using (List.getElem?_eq_some_iff.mp hg).1, ?_⟩
  rw [planeAt_sourcePlanes d hg]
  unfold sourcePlane
  split
  · exact ⟨hy, ho⟩
  · exact ⟨hy, ho⟩

theorem SameBytes.byte_eq {d : Descriptor} {gs : List Geom} {m m' : Memory}
    (h : SameBytes (sourcePlanes d gs) m m') {k y off : Nat} {g : Geom} (hg : gs[k]? = some g)
    (hy : y < g.rows) (ho : off < g.rb) :
    (planeAt (sourcePlanes d gs) k).byte m' y off = (planeAt (sourcePlanes d gs) k).byte m y off :=
  h k y off (isPosition_sourcePlanes hg hy ho)

/-! ### Source pixels -/

theorem unpackYuv_congr {f : YuvFormat} {d : Descriptor} {m m' : Memory} {w h x y : Nat}
    (hm : SameBytes (sourcePlanes d (yuvGeom f w h)) m m') (hx : x < w) (hy : y < h) :
    unpackYuv f m' (sourcePlanes d (yuvGeom f w h)) x y = unpackYuv f m (sourcePlanes d (yuvGeom f w h)) x y := by
  cases f <;> simp only [unpackYuv, Yuv.mk.injEq]
  case i400 => exact ⟨hm.byte_eq rfl hy hx, trivial, trivial⟩
  all_goals
    refine ⟨hm.byte_eq rfl ?_ ?_, hm.byte_eq rfl ?_ ?_, hm.byte_eq rfl ?_ ?_⟩ <;> simp only [cdim] <;> omega

theorem unpackRgb_congr {f : RgbFormat} {d : Descriptor} {m m' : Memory} {w h x y : Nat}
    (hm : SameBytes (sourcePlanes d (rgbGeom f w h)) m m') (hx : x < w) (hy : y < h) :
    unpackRgb f m' (sourcePlanes d (rgbGeom f w h)) x y = unpackRgb f m (sourcePlanes d (rgbGeom f w h)) x y := by
  have hbyte : ∀ off < rgbBytes f * w, (planeAt (sourcePlanes d (rgbGeom f w h)) 0).byte m' y off
      = (planeAt (sourcePlanes d (rgbGeom f w h)) 0).byte m y off := fun off ho => hm.byte_eq rfl hy ho
  cases f <;> simp only [rgbBytes] at hbyte <;> simp (disch := omega) only [unpackRgb, hbyte]

theorem mosaicSample_congr {d : Descriptor} {m m' : Memory} {w h x y : Nat}
    (hm : SameBytes (sourcePlanes d (bayerGeom w h)) m m') (hx : x < w) (hy : y < h) :
    mosaicSample m' (sourcePlanes d (bayerGeom w h)) x y = mosaicSample m (sourcePlanes d (bayerGeom w h)) x y :=
  hm.byte_eq rfl hy hx

theorem scaleSource_congr {d : Descriptor} {m m' : Memory} {n : Nat} {z : ScaleSize} {x y c : Nat}
    (hm : SameBytes (sourcePlanes d (scaleSourceGeom n z)) m m') (hx : x < z.sw) (hy : y < z.sh) (hc : c < n) :
    scaleSource n m' (sourcePlanes d (scaleSourceGeom n z)) x y c
      = scaleSource n m (sourcePlanes d (scaleSourceGeom n z)) x y c := by
  refine hm.byte_eq rfl hy ?_
  calc n * x + c < n * x + n := by omega
    _ = n * (x + 1) := by ring
    _ ≤ n * z.sw := Nat.mul_le_mul_left _ hx

theorem avgAvail_congr {p q : Nat → Nat → Byte} {w h : Nat} (hpq : ∀ x < w, ∀ y < h, p x y = q x y)
    (l : List (Int × Int)) : avgAvail p w h l = avgAvail q w h l := by
  have hmap : (insideImage w h l).map (fun c => (p c.1.toNat c.2.toNat).toNat)
      = (insideImage w h l).map fun c => (q c.1.toNat c.2.toNat).toNat := by
    refine List.map_congr_left fun c hc => ?_
    have hin := of_decide_eq_true (List.mem_filter.mp hc).2
    rw [hpq _ (by omega) _ (by omega)]
  simp only [avgAvail, hmap]

theorem bayerPixel_congr {p q : Nat → Nat → Byte} {w h x y : Nat} (f : BayerFormat)
    (hpq : ∀ x < w, ∀ y < h, p x y = q x y) (hx : x < w) (hy : y < h) :
    bayerPixel f p w h x y = bayerPixel f q w h x y := by
  simp only [bayerPixel, avgAvail_congr hpq, hpq x hx y hy]

/-! ### Stores of a destination image -/

theorem flatMap_range_congr {α : Type} {n : Nat} {f g : Nat → List α} (h : ∀ x < n, f x = g x) :
    (List.range n).flatMap f = (List.range n).flatMap g :=
  List.flatMap_congr fun x hx => h x (List.mem_range.mp hx)

theorem map_range_congr {α : Type} {n : Nat} {f g : Nat → α} (h : ∀ x < n, f x = g x) :
    (List.range n).map f = (List.range n).map g :=
  List.map_congr_left fun x hx => h x (List.mem_range.mp hx)

theorem rgbStores_congr {w h : Nat} {p q : Nat → Nat → Rgba} (df : RgbFormat)
    (hpq : ∀ x < w, ∀ y < h, p x y = q x y) : rgbStores df w h p = rgbStores df w h q :=
  flatMap_range_congr fun y hy => flatMap_range_congr fun x hx => by rw [hpq x hx y hy]

theorem lumaStores_congr {w h : Nat} {p q : Nat → Nat → Byte} (df : YuvFormat) (hw : 0 < w)
    (hpq : ∀ x < w, ∀ y < h, p x y = q x y) : lumaStores df w h p = lumaStores df w h q :=
  flatMap_range_congr fun y hy => map_range_congr fun x _ => by rw [hpq (min x (w - 1)) (by omega) y hy]

/-- The block average clamps its coordinates into the image. -/
theorem blockAvg_congr {p q : Nat → Nat → Byte} {w h : Nat} (hw : 0 < w) (hh : 0 < h)
    (hpq : ∀ x < w, ∀ y < h, p x y = q x y) (hs vs cx cy : Nat) :
    blockAvg p w h hs vs cx cy = blockAvg q w h hs vs cx cy := by
  have hclamp : ∀ x y, p (min x (w - 1)) (min y (h - 1)) = q (min x (w - 1)) (min y (h - 1)) :=
    fun x y => hpq _ (by omega) _ (by omega)
  simp only [blockAvg, hclamp]

theorem averagedChroma_congr {p q : Nat → Nat → Rgba} {w h : Nat} (cs : ColourStandard) (hw : 0 < w)
    (hh : 0 < h) (hpq : ∀ x < w, ∀ y < h, p x y = q x y) :
    averagedChroma cs w h p = averagedChroma cs w h q := by
  have hchannel : ∀ (c : Rgba → Byte) (hs vs cx cy : Nat),
      blockAvg (fun x y => c (p x y)) w h hs vs cx cy = blockAvg (fun x y => c (q x y)) w h hs vs cx cy :=
    fun c => blockAvg_congr hw hh fun x hx y hy => by rw [hpq x hx y hy]
  funext hs vs cx cy
  simp only [averagedChroma, hchannel]

theorem bypassedChroma_congr {p q : Nat → Nat → Yuv} {w h : Nat} (hw : 0 < w) (hh : 0 < h)
    (hpq : ∀ x < w, ∀ y < h, p x y = q x y) : bypassedChroma w h p = bypassedChroma w h q := by
  have hcomponent : ∀ (c : Yuv → Byte) (hs vs cx cy : Nat),
      blockAvg (fun x y => c (p x y)) w h hs vs cx cy = blockAvg (fun x y => c (q x y)) w h hs vs cx cy :=
    fun c => blockAvg_congr hw hh fun x hx y hy => by rw [hpq x hx y hy]
  funext hs vs cx cy
  simp only [bypassedChroma, hcomponent Yuv.u, hcomponent Yuv.v]

theorem rgbToYuvStores_congr {p q : Nat → Nat → Rgba} {w h : Nat} (cs : ColourStandard) (df : YuvFormat)
    (hw : 0 < w) (hh : 0 < h) (hpq : ∀ x < w, ∀ y < h, p x y = q x y) :
    rgbToYuvStores cs df w h p = rgbToYuvStores cs df w h q := by
  unfold rgbToYuvStores yuvStores
  rw [averagedChroma_congr cs hw hh hpq, lumaStores_congr df hw fun x hx y hy => by rw [hpq x hx y hy]]

theorem yuvToYuvStores_congr {p q : Nat → Nat → Yuv} {w h : Nat} (df : YuvFormat) (hw : 0 < w) (hh : 0 < h)
    (hpq : ∀ x < w, ∀ y < h, p x y = q x y) :
    yuvStores df w h (fun x y => (p x y).y) (bypassedChroma w h p)
      = yuvStores df w h (fun x y => (q x y).y) (bypassedChroma w h q) := by
  unfold yuvStores
  rw [bypassedChroma_congr hw hh hpq, lumaStores_congr df hw fun x hx y hy => by rw [hpq x hx y hy]]

theorem rotateStores_congr {p q : Nat → Nat → Byte} {w h : Nat} (rot : Rotation)
    (hpq : ∀ x < w, ∀ y < h, p x y = q x y) : rotateStores rot w h p = rotateStores rot w h q :=
  flatMap_range_congr fun y hy => map_range_congr fun x hx => by rw [hpq x hx y hy]

theorem rotateUVStores_congr {p q : Nat → Nat → Nat → Byte} {w h : Nat} (rot : Rotation)
    (hpq : ∀ x < w, ∀ y < h, ∀ e < 2, p x y e = q x y e) :
    rotateUVStores rot w h p = rotateUVStores rot w h q :=
  flatMap_range_congr fun y hy => flatMap_range_congr fun x hx => by
    rw [hpq x hx y hy 0 (by omega), hpq x hx y hy 1 (by omega)]

/-- The stores of ROTATE_UV, whose source plane holds two bytes to an element. -/
theorem splitStores_congr (rot : Rotation) {d : Descriptor} {m m' : Memory} {w h : Nat}
    (hm : SameBytes (sourcePlanes d [⟨2 * w, h⟩]) m m') :
    rotateUVStores rot w h (fun x y e => (planeAt (sourcePlanes d [⟨2 * w, h⟩]) 0).byte m' y (2 * x + e))
      = rotateUVStores rot w h fun x y e =>
          (planeAt (sourcePlanes d [⟨2 * w, h⟩]) 0).byte m y (2 * x + e) :=
  rotateUVStores_congr rot fun x hx y hy e he => by
    have hoff : 2 * x + e < 2 * w := by omega
    exact hm.byte_eq rfl hy hoff

theorem scaleStores_congr {n : Nat} {z : ScaleSize} {p q : Nat → Nat → Nat → Byte}
    (hpq : ∀ j < z.dw, ∀ i < z.dh, ∀ c < n, p j i c = q j i c) : scaleStores n z p = scaleStores n z q :=
  flatMap_range_congr fun i hi => flatMap_range_congr fun j hj => map_range_congr fun c hc => by
    rw [hpq j hj i hi c hc]

/-! ### The samples of SCALE lie inside the source (43_scale.md rules R274, R276) -/

theorem scaleIndex_lt {src dst j : Nat} (hsrc : 0 < src) (hj : j < dst) :
    scaleIndex (scaleStep src dst) j < src := by
  refine Nat.div_lt_of_lt_mul ?_
  have hstep : dst * scaleStep src dst ≤ 2 ^ Config.fracBits * src := by
    rw [mul_comm _ src]
    exact Nat.mul_div_le _ _
  rcases Nat.eq_zero_or_pos (scaleStep src dst) with h0 | hpos
  · rw [h0, mul_zero]
    exact Nat.mul_pos (by decide) hsrc
  · exact ((Nat.mul_lt_mul_right hpos).mpr hj).trans_le hstep

theorem scaleNext_lt {i size : Nat} (h : 0 < size) : scaleNext i size < size := by
  unfold scaleNext
  omega

theorem scalePath_box2 {z : ScaleSize} (h : scalePath z = .box2) : z.sw = 2 * z.dw ∧ z.sh = 2 * z.dh := by
  unfold scalePath at h
  split at h
  · assumption
  · split at h <;> cases h

theorem scalePath_box4 {z : ScaleSize} (h : scalePath z = .box4) : z.sw = 4 * z.dw ∧ z.sh = 4 * z.dh := by
  unfold scalePath at h
  split at h
  · cases h
  · split at h
    · assumption
    · cases h

/-- Two samplings that agree inside the source of a SCALE command. -/
def SameSamples (n : Nat) (z : ScaleSize) (p q : Nat → Nat → Nat → Byte) : Prop :=
  ∀ x < z.sw, ∀ y < z.sh, ∀ c < n, p x y c = q x y c

/-- A destination byte of a filter is computed from samples inside the source. -/
def ReadsInside (filter : ScaleSize → (Nat → Nat → Nat → Byte) → Nat → Nat → Nat → Byte) : Prop :=
  ∀ (n : Nat) (z : ScaleSize) (p q : Nat → Nat → Nat → Byte), 0 < z.sw → 0 < z.sh → SameSamples n z p q →
    ∀ j < z.dw, ∀ i < z.dh, ∀ c < n, filter z p j i c = filter z q j i c

theorem box2_congr {n : Nat} {z : ScaleSize} {p q : Nat → Nat → Nat → Byte} (hpq : SameSamples n z p q)
    (hbox : scalePath z = .box2) {j i c : Nat} (hj : j < z.dw) (hi : i < z.dh) (hc : c < n) :
    box2 p j i c = box2 q j i c := by
  obtain ⟨hw, hh⟩ := scalePath_box2 hbox
  have hsample : ∀ a < 2, ∀ b < 2, p (2 * j + a) (2 * i + b) c = q (2 * j + a) (2 * i + b) c :=
    fun a ha b hb => hpq _ (by omega) _ (by omega) c hc
  have h00 := hsample 0 (by omega) 0 (by omega)
  have h10 := hsample 1 (by omega) 0 (by omega)
  have h01 := hsample 0 (by omega) 1 (by omega)
  have h11 := hsample 1 (by omega) 1 (by omega)
  simp only [add_zero] at h00 h10 h01
  simp only [box2, h00, h10, h01, h11]

theorem box4_congr {n : Nat} {z : ScaleSize} {p q : Nat → Nat → Nat → Byte} (hpq : SameSamples n z p q)
    (hbox : scalePath z = .box4) {j i c : Nat} (hj : j < z.dw) (hi : i < z.dh) (hc : c < n) :
    box4 p j i c = box4 q j i c := by
  obtain ⟨hw, hh⟩ := scalePath_box4 hbox
  have hterms : ((List.range 4).flatMap fun b => (List.range 4).map fun a =>
        (p (4 * j + a) (4 * i + b) c).toNat)
      = (List.range 4).flatMap fun b => (List.range 4).map fun a => (q (4 * j + a) (4 * i + b) c).toNat :=
    flatMap_range_congr fun b hb => map_range_congr fun a ha => by
      rw [hpq _ (by omega) _ (by omega) c hc]
  simp only [box4, hterms]

theorem pointSample_readsInside : ReadsInside pointSample :=
  fun _ _ _ _ hw hh hpq _ hj _ hi c hc => hpq _ (scaleIndex_lt hw hj) _ (scaleIndex_lt hh hi) c hc

theorem linearSample_readsInside : ReadsInside linearSample := by
  intro n z p q hw hh hpq j hj i hi c hc
  unfold linearSample
  cases hpath : scalePath z with
  | box2 => exact box2_congr hpq hpath hj hi hc
  | box4 => exact box4_congr hpq hpath hj hi hc
  | generic =>
    have hrow := scaleIndex_lt hh hi
    simp only [hpq _ (scaleIndex_lt hw hj) _ hrow c hc, hpq _ (scaleNext_lt hw) _ hrow c hc]

theorem bilinearSample_readsInside : ReadsInside bilinearSample := by
  intro n z p q hw hh hpq j hj i hi c hc
  unfold bilinearSample
  cases hpath : scalePath z with
  | box2 => exact box2_congr hpq hpath hj hi hc
  | box4 => exact box4_congr hpq hpath hj hi hc
  | generic =>
    have hcolumn : ∀ x < z.sw,
        p x (scaleIndex (scaleStep z.sh z.dh) i) c = q x (scaleIndex (scaleStep z.sh z.dh) i) c
        ∧ p x (scaleNext (scaleIndex (scaleStep z.sh z.dh) i) z.sh) c
          = q x (scaleNext (scaleIndex (scaleStep z.sh z.dh) i) z.sh) c :=
      fun x hx => ⟨hpq x hx _ (scaleIndex_lt hh hi) c hc, hpq x hx _ (scaleNext_lt hh) c hc⟩
    obtain ⟨h00, h01⟩ := hcolumn _ (scaleIndex_lt hw hj)
    obtain ⟨h10, h11⟩ := hcolumn (scaleNext (scaleIndex (scaleStep z.sw z.dw) j) z.sw) (scaleNext_lt hw)
    simp only [h00, h01, h10, h11]

/-- The stores of a SCALE command whose filter reads inside the source. -/
theorem filteredStores_congr {filter : ScaleSize → (Nat → Nat → Nat → Byte) → Nat → Nat → Nat → Byte}
    (hfilter : ReadsInside filter) {n : Nat} {z : ScaleSize} {d : Descriptor} {m m' : Memory} (hw : 0 < z.sw)
    (hh : 0 < z.sh) (hm : SameBytes (sourcePlanes d (scaleSourceGeom n z)) m m') :
    scaleStores n z (filter z (scaleSource n m' (sourcePlanes d (scaleSourceGeom n z))))
      = scaleStores n z (filter z (scaleSource n m (sourcePlanes d (scaleSourceGeom n z)))) :=
  scaleStores_congr (hfilter n z _ _ hw hh fun _ hx _ hy _ hc => scaleSource_congr hm hx hy hc)

/-! ### The stores of a command -/

/-- The stores of a command look at the latch and at memory alone. -/
theorem instrStores_of_latch {s s' : State} (hl : s'.latch = s.latch) (i : Instr) (srcs : List Plane) :
    instrStores i s' srcs = instrStores i (s.withMem s'.mem) srcs := by
  simp only [instrStores, hl, State.withMem_latch, State.withMem_mem]

theorem image_pos {i : Instr} {d : Descriptor} (h : ArgsOk i d) : 0 < imageWidth d ∧ 0 < imageHeight d := by
  obtain ⟨-, -, hw, hh, -⟩ := h
  unfold imageWidth imageHeight
  omega

/-- The stores of a command are the same over two memories that hold the same source bytes. -/
theorem instrStores_congr {i : Instr} {s : State} {m' : Memory} (ha : ArgsOk i s.latch)
    (hm : SameBytes (readPlanes i s.latch) s.mem m') :
    instrStores i (s.withMem m') (readPlanes i s.latch) = instrStores i s (readPlanes i s.latch) := by
  obtain ⟨hw, hh⟩ := image_pos ha
  cases i with
  | endList => rfl
  | convertYR sf df cs =>
    cases sf <;> cases df <;> first
      | rfl
      | exact rgbStores_congr _ fun x hx y hy =>
          congrArg (fun p : Yuv => inverse cs p.y p.u p.v) (unpackYuv_congr hm hx hy)
  | convertRY sf df cs =>
    cases sf <;> cases df <;> first
      | rfl
      | exact rgbToYuvStores_congr _ _ hw hh fun x hx y hy => unpackRgb_congr hm hx hy
  | convertYY sf df =>
    cases sf <;> cases df <;> first
      | rfl
      | exact yuvToYuvStores_congr _ hw hh fun x hx y hy => unpackYuv_congr hm hx hy
  | convertRR sf df =>
    cases sf <;> cases df <;> first
      | rfl
      | exact rgbStores_congr _ fun x hx y hy => unpackRgb_congr hm hx hy
  | demosaicR sf df =>
    cases sf <;> cases df <;> first
      | rfl
      | exact rgbStores_congr _ fun x hx y hy =>
          bayerPixel_congr _ (fun x hx y hy => mosaicSample_congr hm hx hy) hx hy
  | demosaicY sf df cs =>
    cases sf <;> cases df <;> first
      | rfl
      | exact rgbToYuvStores_congr _ _ hw hh fun x hx y hy =>
          bayerPixel_congr _ (fun x hx y hy => mosaicSample_congr hm hx hy) hx hy
  | scaleNone f => exact filteredStores_congr pointSample_readsInside hw hh hm
  | scaleLinear f => exact filteredStores_congr linearSample_readsInside hw hh hm
  | scaleBilinear f => exact filteredStores_congr bilinearSample_readsInside hw hh hm
  | rotate0 | rotate90 | rotate180 | rotate270 =>
    exact rotateStores_congr _ fun x hx y hy => SameBytes.byte_eq hm rfl hy hx
  | rotateUV0 | rotateUV90 | rotateUV180 | rotateUV270 =>
    exact splitStores_congr _ hm

/-! ### The obligation -/

theorem Ready.of_latch {i : Instr} {s s' : State} (h : Ready i s) (hl : s'.latch = s.latch) : Ready i s' := by
  unfold Ready
  rw [hl]
  exact h

/-- Settles O13: both commands complete with the same stores (`instrStores_congr`), which cover the write
footprint. -/
theorem resultDependsOnlyOnReadFootprint : Obligations.ResultDependsOnlyOnReadFootprint := by
  intro i s s' t hr hl hread ht
  have hr' := hr.of_latch hl
  rw [exec_ready hr] at ht
  cases ht
  refine ⟨completed i s', exec_ready hr', ?_⟩
  rintro a ⟨k, y, off, hp, rfl⟩
  have ⟨hi, hw, hargs, _⟩ := hr
  obtain ⟨st, hst, rfl, rfl, rfl⟩ := instrStores_cover hi hw (readPlanes i s.latch) hp
  have hst' : st ∈ instrStores i s' (readPlanes i s'.latch) := by
    rw [instrStores_of_latch hl, hl, instrStores_congr hargs (sameBytes_of_footprint hread)]
    exact hst
  have hbyte' := destByte_completed hr' hst'
  rw [hl] at hbyte'
  exact hbyte'.trans (destByte_completed hr hst).symm

end Sys2Proof.Machine
end

section
/-! SUPPORT. The command word: its fields (30_encoding.md rule R91), its codes (R95, R96) and the rows of the
opcode map (R100). The decoder undoes the encoder on legal instructions. -/

namespace Sys2Proof

/-! ### The fields of a packed word (rule R91) -/

section Fields

variable (opc : BitVec 8) (sfmt dfmt : BitVec 6) (filt rot : BitVec 2) (cstd : BitVec 1)

@[simp] theorem sfmtField_packFields : sfmtField (packFields opc sfmt dfmt filt rot cstd) = sfmt := by
  simp only [sfmtField, packFields]
  rw [BitVec.extractLsb'_append_eq_of_le (by decide)]
  exact BitVec.extractLsb'_append_eq_right

@[simp] theorem dfmtField_packFields : dfmtField (packFields opc sfmt dfmt filt rot cstd) = dfmt := by
  simp only [dfmtField, packFields]
  rw [BitVec.extractLsb'_append_eq_of_le (by decide), BitVec.extractLsb'_append_eq_of_le (by decide)]
  exact BitVec.extractLsb'_append_eq_right

@[simp] theorem cstdField_packFields : cstdField (packFields opc sfmt dfmt filt rot cstd) = cstd := by
  simp only [cstdField, packFields]
  iterate 5 rw [BitVec.extractLsb'_append_eq_of_le (by decide)]
  exact BitVec.extractLsb'_append_eq_right

end Fields

/-- A word with its reserved bits 0 is packed from its other fields. -/
theorem packFields_fields {w : Word} (h : rsvField w = 0) :
    packFields (opcField w) (sfmtField w) (dfmtField w) (filtField w) (rotField w) (cstdField w) = w := by
  have hrsv : 0#7 = rsvField w := h.symm
  unfold packFields rsvField at *
  rw [hrsv]
  simp only [cstdField, rotField, filtField, dfmtField, sfmtField, opcField]
  iterate 6 rw [BitVec.extractLsb'_append_extractLsb'_eq_extractLsb' (by rfl)]
  exact BitVec.extractLsb'_eq_self

/-! ### The codes (rules R95, R96) -/

theorem code_ofCode (c : BitVec 6) : (PixelFormat.ofCode c).code = c := by
  revert c
  decide

theorem bit_ofBit (b : BitVec 1) : (ColourStandard.ofBit b).bit = b := by
  revert b
  decide

theorem ofBit_bit (cs : ColourStandard) : ColourStandard.ofBit cs.bit = cs := by
  cases cs <;> rfl

/-- The code of a format of the three families denotes that format. -/
theorem ofCode_code {f : PixelFormat} (hf : f.isYuv = true ∨ f.isRgb = true ∨ f.isBayer = true) :
    PixelFormat.ofCode f.code = f := by
  cases f with
  | yuv f | rgb f | bayer f => cases f <;> rfl
  | none | reserved c => simp [PixelFormat.isYuv, PixelFormat.isRgb, PixelFormat.isBayer] at hf

theorem isYuv_or_isRgb_of_isScalable {f : PixelFormat} (hf : f.isScalable = true) :
    f.isYuv = true ∨ f.isRgb = true := by
  cases f with
  | yuv f => exact .inl rfl
  | rgb f => exact .inr rfl
  | none | bayer f | reserved c => simp [PixelFormat.isScalable] at hf

theorem isYuv_ofCode (c : BitVec 6) : (PixelFormat.ofCode c).isYuv = true ↔ 1 ≤ c.toNat ∧ c.toNat ≤ 9 := by
  revert c
  decide

theorem isRgb_ofCode (c : BitVec 6) :
    (PixelFormat.ofCode c).isRgb = true ↔ 16 ≤ c.toNat ∧ c.toNat ≤ 24 := by
  revert c
  decide

theorem isBayer_ofCode (c : BitVec 6) :
    (PixelFormat.ofCode c).isBayer = true ↔ 32 ≤ c.toNat ∧ c.toNat ≤ 35 := by
  revert c
  decide

theorem isScalable_ofCode (c : BitVec 6) :
    (PixelFormat.ofCode c).isScalable = true ↔ c.toNat = 9 ∨ 16 ≤ c.toNat ∧ c.toNat ≤ 21 := by
  revert c
  decide

theorem ofCode_eq_none (c : BitVec 6) : PixelFormat.ofCode c = .none ↔ c.toNat = 0 := by
  revert c
  decide

/-! ### The rows of the opcode map (rule R100) -/

theorem FormRow.selects_iff (r : FormRow) (w : Word) : r.selects w = true ↔ w &&& r.mask = r.pat :=
  beq_iff_eq

/-- Two rows that one word matches fix no bit to different values. -/
theorem pats_agree_of_match {w : Word} {rm rn : FormRow} (hm : w &&& rm.mask = rm.pat)
    (hn : w &&& rn.mask = rn.pat) : rm.pat &&& rn.mask = rn.pat &&& rm.mask := by
  rw [← hm, ← hn, BitVec.and_assoc, BitVec.and_assoc, BitVec.and_comm rm.mask]

/-- Any two of the eighteen rows fix some bit to different values. -/
theorem formTable_pats_conflict : ∀ m < 18, ∀ n < 18, ∀ rm ∈ formTable[m]?, ∀ rn ∈ formTable[n]?,
    rm.pat &&& rn.mask = rn.pat &&& rm.mask → m = n := by
  decide

/-- Settles O3: rows that one word matches agree on the bits both fix, and no two rows do. -/
theorem commandWordMatchesOneForm : Obligations.CommandWordMatchesOneForm := by
  intro w m n rm rn hm hn hwm hwn
  have hlen : formTable.length = 18 := rfl
  obtain ⟨hm18, -⟩ := List.getElem?_eq_some_iff.mp hm
  obtain ⟨hn18, -⟩ := List.getElem?_eq_some_iff.mp hn
  exact formTable_pats_conflict m (hlen ▸ hm18) n (hlen ▸ hn18) rm hm rn hn (pats_agree_of_match hwm hwn)

/-- A word's form is that of any row that it matches. -/
theorem selectForm_of_selects {w : Word} {n : Nat} {r : FormRow} (hr : formTable[n]? = some r)
    (h : r.selects w = true) : selectForm w = some (r.build w) := by
  have hfind : formTable.find? (·.selects w) = some r := by
    obtain ⟨hn, hrow⟩ := List.getElem?_eq_some_iff.mp hr
    refine List.find?_eq_some_iff_getElem.mpr ⟨h, n, hn, hrow, fun j hj => ?_⟩
    by_contra hsel
    have hj' : formTable[j]? = some formTable[j] := List.getElem?_eq_getElem (by omega)
    have heq := commandWordMatchesOneForm w j n _ r hj' hr ((FormRow.selects_iff _ w).mp (by simpa using hsel))
      ((r.selects_iff w).mp h)
    omega
  simp [selectForm, hfind]

theorem selectForm_cases {w : Word} {i : Instr} (h : selectForm w = some i) :
    ∃ r ∈ formTable, w &&& r.mask = r.pat ∧ i = r.build w := by
  obtain ⟨r, hr, rfl⟩ := Option.map_eq_some_iff.mp h
  have hsel : r.selects w = true := List.find?_some (p := fun r : FormRow => r.selects w) hr
  exact ⟨r, List.mem_of_find?_eq_some hr, (r.selects_iff w).mp hsel, rfl⟩

theorem decode_of_selectForm {w : Word} {i : Instr} (h : selectForm w = some i) : decode w = .ok i := by
  simp [decode, h]

theorem decode_of_unselected {w : Word} {c : IllegalCause} (h : selectForm w = none)
    (hc : illegalCause w = some c) : decode w = .error c := by
  simp [decode, h, hc]

/-! ### The round trip -/

/-- The command word of a legal instruction matches the row that the instruction's form stands for. -/
theorem row_selects_encodeWord (i : Instr) : Laws.RowSelectsWord.Statement i := by
  cases i with
  | endList => exact Laws.RowSelectsWord.endList
  | convertYR s d c => exact Laws.RowSelectsWord.convertYR s d c
  | convertRY s d c => exact Laws.RowSelectsWord.convertRY s d c
  | convertYY s d => exact Laws.RowSelectsWord.convertYY s d
  | convertRR s d => exact Laws.RowSelectsWord.convertRR s d
  | scaleNone s => exact Laws.RowSelectsWord.scaleNone s
  | scaleLinear s => exact Laws.RowSelectsWord.scaleLinear s
  | scaleBilinear s => exact Laws.RowSelectsWord.scaleBilinear s
  | rotate0 => exact Laws.RowSelectsWord.rotate0
  | rotate90 => exact Laws.RowSelectsWord.rotate90
  | rotate180 => exact Laws.RowSelectsWord.rotate180
  | rotate270 => exact Laws.RowSelectsWord.rotate270
  | rotateUV0 => exact Laws.RowSelectsWord.rotateUV0
  | rotateUV90 => exact Laws.RowSelectsWord.rotateUV90
  | rotateUV180 => exact Laws.RowSelectsWord.rotateUV180
  | rotateUV270 => exact Laws.RowSelectsWord.rotateUV270
  | demosaicR s d => exact Laws.RowSelectsWord.demosaicR s d
  | demosaicY s d c => exact Laws.RowSelectsWord.demosaicY s d c

/-- The row of a legal instruction builds the instruction again from the fields of its command word. -/
theorem row_build_encodeWord {i : Instr} (hi : i.wellFormed = true) :
    formTable[Laws.formIndex i]?.map (·.build (encodeWord i)) = some i := by
  cases i with
  | convertYR s d c | convertRY s d c | convertYY s d | convertRR s d | demosaicR s d | demosaicY s d c =>
    simp only [Instr.wellFormed, Instr.sourceLegal, Instr.destLegal, Bool.and_eq_true] at hi
    simp [Laws.formIndex, formTable, encodeWord, sourceFormat, destFormat, colourStandard,
      ofCode_code, ofBit_bit, hi]
  | scaleNone s | scaleLinear s | scaleBilinear s =>
    simp only [Instr.wellFormed, Instr.sourceLegal, Instr.destLegal, Bool.and_true] at hi
    have hs := isYuv_or_isRgb_of_isScalable hi
    simp [Laws.formIndex, formTable, encodeWord, sourceFormat, ofCode_code (f := s) (by tauto)]
  | endList | rotate0 | rotate90 | rotate180 | rotate270
  | rotateUV0 | rotateUV90 | rotateUV180 | rotateUV270 => rfl

/-- The decoder undoes the encoder on legal instructions. -/
theorem decode_encodeWord {i : Instr} (hi : i.wellFormed = true) : decode (encodeWord i) = .ok i := by
  obtain ⟨r, hr, hsel⟩ := Option.map_eq_some_iff.mp (row_selects_encodeWord i hi)
  have hbuild := row_build_encodeWord hi
  rw [hr] at hbuild
  exact decode_of_selectForm ((selectForm_of_selects hr hsel).trans hbuild)

/-- Settles O4: the legal words are the command words of their instructions (`decode_encodeWord`); the others
match no row, and the cause is that of the first check they fail. -/
theorem decodesWrittenWords : Obligations.DecodesWrittenWords := by
  refine ⟨decode_encodeWord (i := .endList) rfl,
    decode_encodeWord (i := .convertYR (.yuv .i444) (.rgb .argb) .bt601) rfl,
    decode_of_unselected (by decide) (by decide),
    decode_encodeWord (i := .convertRY (.rgb .argb4444) (.yuv .i420) .fullJ) rfl,
    decode_encodeWord (i := .convertYY (.yuv .nv12) (.yuv .i420)) rfl,
    decode_encodeWord (i := .convertRR (.rgb .argb) (.rgb .rgb565)) rfl,
    decode_encodeWord (i := .scaleNone (.yuv .i400)) rfl,
    decode_encodeWord (i := .scaleLinear (.rgb .rgb24)) rfl,
    decode_encodeWord (i := .scaleBilinear (.rgb .argb)) rfl,
    decode_encodeWord (i := .rotate90) rfl,
    decode_encodeWord (i := .rotateUV270) rfl,
    decode_encodeWord (i := .demosaicR (.bayer .rggb) (.rgb .argb)) rfl,
    decode_encodeWord (i := .demosaicY (.bayer .gbrg) (.yuv .i420) .fullJ) rfl,
    ?_, ?_, ?_, ?_⟩ <;> exact decode_of_unselected (by decide) (by decide)

end Sys2Proof
end

section
/-! SUPPORT. The seven checks of the command word (30_encoding.md rule R101): the cause that the decoder and the
meanings record is that of the first check that fails, and a word that fails none is a legal instruction's. -/

namespace Sys2Proof.Machine

/-! ### The fields as numbers (rule R91) -/

theorem toNat_opcField (w : Word) : (opcField w).toNat = w.toNat % 256 := by
  simp [opcField, BitVec.extractLsb'_toNat]

theorem toNat_sfmtField (w : Word) : (sfmtField w).toNat = w.toNat / 2 ^ 8 % 64 := by
  simp [sfmtField, BitVec.extractLsb'_toNat, Nat.shiftRight_eq_div_pow]

theorem toNat_dfmtField (w : Word) : (dfmtField w).toNat = w.toNat / 2 ^ 14 % 64 := by
  simp [dfmtField, BitVec.extractLsb'_toNat, Nat.shiftRight_eq_div_pow]

theorem toNat_filtField (w : Word) : (filtField w).toNat = w.toNat / 2 ^ 20 % 4 := by
  simp [filtField, BitVec.extractLsb'_toNat, Nat.shiftRight_eq_div_pow]

theorem toNat_rotField (w : Word) : (rotField w).toNat = w.toNat / 2 ^ 22 % 4 := by
  simp [rotField, BitVec.extractLsb'_toNat, Nat.shiftRight_eq_div_pow]

theorem toNat_cstdField (w : Word) : (cstdField w).toNat = w.toNat / 2 ^ 24 % 2 := by
  simp [cstdField, BitVec.extractLsb'_toNat, Nat.shiftRight_eq_div_pow]

theorem toNat_rsvField (w : Word) : (rsvField w).toNat = w.toNat / 2 ^ 25 := by
  have hw := w.isLt
  simp only [rsvField, BitVec.extractLsb'_toNat, Nat.shiftRight_eq_div_pow]
  omega

/-! ### The format sets of an opcode (rule R99) -/

theorem sourceFormatAllowed_iff {opc : Nat} (hopc : opc ≤ 5) (c : BitVec 6) :
    sourceFormatAllowed opc (.ofCode c) = true ↔ sourceCodeLegal opc c.toNat := by
  interval_cases opc <;>
    simp [sourceFormatAllowed, sourceCodeLegal, isYuv_ofCode, isRgb_ofCode, isBayer_ofCode,
      isScalable_ofCode, ofCode_eq_none]

theorem destFormatAllowed_iff {opc : Nat} (hopc : opc ≤ 5) (c : BitVec 6) :
    destFormatAllowed opc (.ofCode c) = true ↔ destCodeLegal opc c.toNat := by
  interval_cases opc <;>
    simp [destFormatAllowed, destCodeLegal, isYuv_ofCode, isRgb_ofCode, ofCode_eq_none]

/-- Bits 5:4 of a legal format code name the family, so that the matrix is used as rule R99 says by those bits. -/
theorem usesColourMatrix_iff {opc : Nat} {s d : BitVec 6} (hs : sourceCodeLegal opc s.toNat)
    (hd : destCodeLegal opc d.toNat) :
    usesColourMatrix opc (.ofCode s) (.ofCode d) = true ↔
      (opc = 1 ∧ s.toNat / 16 ≠ d.toNat / 16) ∨ (opc = 5 ∧ d.toNat / 16 = 0) := by
  have hsd : (PixelFormat.ofCode s).isYuv ≠ (PixelFormat.ofCode d).isYuv ↔
      ¬ ((1 ≤ s.toNat ∧ s.toNat ≤ 9) ↔ (1 ≤ d.toNat ∧ d.toNat ≤ 9)) := by
    rw [Ne, Bool.eq_iff_iff, isYuv_ofCode, isYuv_ofCode]
  simp only [usesColourMatrix, Bool.or_eq_true, Bool.and_eq_true, beq_iff_eq, bne_iff_ne, hsd, isYuv_ofCode]
  unfold sourceCodeLegal at hs
  unfold destCodeLegal at hd
  omega

/-! ### The checks, read off the fields (rule R101) -/

theorem failsCheck_reservedOpcode (w : Word) :
    FailsCheck w.toNat .reservedOpcode ↔ 5 < (opcField w).toNat := by
  rw [toNat_opcField]
  rfl

theorem failsCheck_reservedBits (w : Word) : FailsCheck w.toNat .reservedBits ↔ rsvField w ≠ 0 := by
  rw [← BitVec.toNat_ne_iff_ne, toNat_rsvField]
  rfl

theorem failsCheck_badSourceFormat (w : Word) :
    FailsCheck w.toNat .badSourceFormat ↔ ¬ sourceCodeLegal (opcField w).toNat (sfmtField w).toNat := by
  rw [toNat_opcField, toNat_sfmtField]
  rfl

theorem failsCheck_badDestFormat (w : Word) :
    FailsCheck w.toNat .badDestFormat ↔ ¬ destCodeLegal (opcField w).toNat (dfmtField w).toNat := by
  rw [toNat_opcField, toNat_dfmtField]
  rfl

theorem failsCheck_badFilter (w : Word) :
    FailsCheck w.toNat .badFilter ↔
      ((opcField w).toNat ≠ 2 ∧ filtField w ≠ 0) ∨ ((opcField w).toNat = 2 ∧ filtField w = 3) := by
  rw [← BitVec.toNat_ne_iff_ne, ← BitVec.toNat_inj, toNat_opcField, toNat_filtField]
  rfl

theorem failsCheck_badRotation (w : Word) :
    FailsCheck w.toNat .badRotation ↔
      (opcField w).toNat ≠ 3 ∧ (opcField w).toNat ≠ 4 ∧ rotField w ≠ 0 := by
  rw [← BitVec.toNat_ne_iff_ne, toNat_opcField, toNat_rotField]
  rfl

/-- Bits 5:4 of a format field are its code divided by 16. -/
theorem failsCheck_badColourStandard (w : Word) :
    FailsCheck w.toNat .badColourStandard ↔ cstdField w = 1 ∧
      ¬ (((opcField w).toNat = 1 ∧ (sfmtField w).toNat / 16 ≠ (dfmtField w).toNat / 16)
        ∨ ((opcField w).toNat = 5 ∧ (dfmtField w).toNat / 16 = 0)) := by
  have hs : w.toNat / 2 ^ 12 % 4 = (sfmtField w).toNat / 16 := by rw [toNat_sfmtField]; omega
  have hd : w.toNat / 2 ^ 18 % 4 = (dfmtField w).toNat / 16 := by rw [toNat_dfmtField]; omega
  rw [← BitVec.toNat_inj, toNat_opcField, toNat_cstdField, ← hs, ← hd]
  rfl

/-! ### The first failing check (rule R101) -/

/-- The first listed condition that holds, by keys that rise along the list. -/
theorem find_fst_map_eq_some {α : Type} {l : List (Bool × α)} {key : α → Nat}
    (hl : l.Pairwise fun p q => key p.2 < key q.2) {a : α} (ha : (true, a) ∈ l)
    (hfirst : ∀ p ∈ l, key p.2 < key a → p.1 = false) : (l.find? (·.1)).map (·.2) = some a := by
  induction l with
  | nil => simp at ha
  | cons p l ih =>
    obtain ⟨hp, hl⟩ := List.pairwise_cons.mp hl
    rcases List.mem_cons.mp ha with rfl | ha
    · rfl
    · have hp1 : p.1 = false := hfirst p List.mem_cons_self (hp _ ha)
      simpa [hp1] using ih hl ha fun q hq => hfirst q (List.mem_cons_of_mem _ hq)

theorem illegalChecks_rising (w : Word) :
    (illegalChecks w).Pairwise fun p q => p.2.code.toNat < q.2.code.toNat := by
  simp [illegalChecks, IllegalCause.code]

theorem exists_mem_illegalChecks (w : Word) (c : IllegalCause) : ∃ b, (b, c) ∈ illegalChecks w := by
  cases c <;> simp [illegalChecks]

/-- Each condition of the decoder says that the word fails the check, provided that it fails no earlier one. -/
theorem illegalChecks_iff {w : Word} {b : Bool} {c : IllegalCause} (hb : (b, c) ∈ illegalChecks w)
    (hearlier : ∀ c', c'.code < c.code → ¬ FailsCheck w.toNat c') : b = true ↔ FailsCheck w.toNat c := by
  have hopc (h : IllegalCause.reservedOpcode.code < c.code) : (opcField w).toNat ≤ 5 := by
    simpa [failsCheck_reservedOpcode] using hearlier _ h
  simp only [illegalChecks, List.mem_cons, List.not_mem_nil, or_false, Prod.mk.injEq] at hb
  rcases hb with ⟨rfl, rfl⟩ | ⟨rfl, rfl⟩ | ⟨rfl, rfl⟩ | ⟨rfl, rfl⟩ | ⟨rfl, rfl⟩ | ⟨rfl, rfl⟩ | ⟨rfl, rfl⟩
  · simp [failsCheck_reservedOpcode]
  · simp [failsCheck_reservedBits]
  · rw [failsCheck_badSourceFormat, ← sourceFormatAllowed_iff (hopc (by decide))]
    simp [sourceFormat]
  · rw [failsCheck_badDestFormat, ← destFormatAllowed_iff (hopc (by decide))]
    simp [destFormat]
  · rw [failsCheck_badFilter]
    split <;> simp [*]
  · simp only [failsCheck_badRotation, Bool.and_eq_true, bne_iff_ne]
    tauto
  · have hs := hearlier .badSourceFormat (by decide)
    have hd := hearlier .badDestFormat (by decide)
    rw [failsCheck_badSourceFormat, not_not] at hs
    rw [failsCheck_badDestFormat, not_not] at hd
    rw [failsCheck_badColourStandard, ← usesColourMatrix_iff hs hd]
    simp [sourceFormat, destFormat]

/-- The decoder's cause is that of the first check that the word fails. -/
theorem illegalCause_of_firstFailing {w : Word} {c : IllegalCause} (h : FirstFailingCheck w.toNat c) :
    illegalCause w = some c := by
  obtain ⟨hfails, hearlier⟩ := h
  obtain ⟨b, hb⟩ := exists_mem_illegalChecks w c
  have htrue : b = true := (illegalChecks_iff hb hearlier).mpr hfails
  refine find_fst_map_eq_some (key := (·.code.toNat)) (illegalChecks_rising w) (htrue ▸ hb) fun p hp hlt => ?_
  have hiff := illegalChecks_iff hp fun c' hc' => hearlier c' (BitVec.lt_trans hc' hlt)
  exact Bool.eq_false_iff.mpr fun htrue => hearlier p.2 hlt (hiff.mp htrue)

theorem illegalCause_of_passes {w : Word} (h : ∀ c, ¬ FailsCheck w.toNat c) : illegalCause w = none := by
  refine (find_fst_map_eq_none _).mpr fun p hp => ?_
  exact Bool.eq_false_iff.mpr fun htrue => h p.2 ((illegalChecks_iff hp fun c _ => h c).mp htrue)

end Sys2Proof.Machine
end

section
/-! SUPPORT. Which words the decoder accepts (30_encoding.md rules R99 to R101): a word that matches a row fails
no check but those of the format fields that the row leaves free, and a word that fails no check is the command
word of a legal instruction. -/

namespace Sys2Proof.Machine

/-! ### Words that match a row -/

theorem extractLsb'_of_match {w m p : Word} (h : w &&& m = p) (start len : Nat)
    (hm : m.extractLsb' start len = BitVec.allOnes len) : w.extractLsb' start len = p.extractLsb' start len := by
  rw [← h, BitVec.extractLsb'_and, hm, BitVec.and_allOnes]

theorem sfmtField_of_match {w m p : Word} (h : w &&& m = p) : sfmtField w &&& sfmtField m = sfmtField p :=
  h ▸ BitVec.extractLsb'_and.symm

theorem dfmtField_of_match {w m p : Word} (h : w &&& m = p) : dfmtField w &&& dfmtField m = dfmtField p :=
  h ▸ BitVec.extractLsb'_and.symm

/-- Every row fixes `OPC`, `FILT`, `ROT` and `RSV`. -/
theorem formTable_masks : ∀ r ∈ formTable,
    opcField r.mask = BitVec.allOnes 8 ∧ filtField r.mask = BitVec.allOnes 2
    ∧ rotField r.mask = BitVec.allOnes 2 ∧ rsvField r.mask = BitVec.allOnes 7 := by
  decide

/-- Every row fixes `OPC`, `FILT`, `ROT` and `RSV` to values that pass their checks. -/
theorem formTable_pats : ∀ r ∈ formTable,
    (opcField r.pat).toNat ≤ 5 ∧ rsvField r.pat = 0
    ∧ (if (opcField r.pat).toNat = 2 then filtField r.pat ≠ 3 else filtField r.pat = 0)
    ∧ (rotField r.pat = 0 ∨ (opcField r.pat).toNat = 3 ∨ (opcField r.pat).toNat = 4) := by
  decide

/-- Bits 5:4 of a code tell the YUV family from the RGB family (rule R96). -/
theorem image_of_class_zero {c : BitVec 6} (h : c &&& 0x30 = 0x00) :
    ((PixelFormat.ofCode c).isYuv || (PixelFormat.ofCode c).isRgb) = (PixelFormat.ofCode c).isYuv := by
  revert c
  decide

theorem image_of_class_one {c : BitVec 6} (h : c &&& 0x30 = 0x10) :
    ((PixelFormat.ofCode c).isYuv || (PixelFormat.ofCode c).isRgb) = (PixelFormat.ofCode c).isRgb := by
  revert c
  decide

theorem isYuv_eq_false_of_isRgb {f : PixelFormat} (h : f.isRgb = true) : f.isYuv = false := by
  cases f with
  | rgb f => rfl
  | none | yuv f | bayer f | reserved c => cases h

/-- CONVERT between the families uses the colour matrix (rule R95). -/
theorem usesColourMatrix_convert {s d : PixelFormat}
    (h : s.isYuv = true ∧ d.isRgb = true ∨ s.isRgb = true ∧ d.isYuv = true) : usesColourMatrix 1 s d = true := by
  rcases h with ⟨hs, hd⟩ | ⟨hs, hd⟩
  · simp [usesColourMatrix, hs, isYuv_eq_false_of_isRgb hd]
  · simp [usesColourMatrix, hd, isYuv_eq_false_of_isRgb hs]

/-- The cause that the format fields of `i` give. -/
def formatCause (i : Instr) : Option IllegalCause :=
  if i.wellFormed then none else some (if i.sourceLegal then .badDestFormat else .badSourceFormat)

/-- The checks of `SFMT`, `DFMT` and `CSTD` come out on the word `w` of opcode `opc` as the legality of `i`. -/
structure ChecksFormats (opc : Nat) (w : Word) (i : Instr) : Prop where
  source : sourceFormatAllowed opc (sourceFormat w) = i.sourceLegal
  dest : destFormatAllowed opc (destFormat w) = i.destLegal
  standard : i.wellFormed = true →
    cstdField w = 0 ∨ usesColourMatrix opc (sourceFormat w) (destFormat w) = true

/-- A word whose fields pass every check but those of the formats. -/
theorem illegalCause_eq {w : Word} {i : Instr} (hopc : (opcField w).toNat ≤ 5) (hrsv : rsvField w = 0)
    (hfilt : if (opcField w).toNat = 2 then filtField w ≠ 3 else filtField w = 0)
    (hrot : rotField w = 0 ∨ (opcField w).toNat = 3 ∨ (opcField w).toNat = 4)
    (hformats : ChecksFormats (opcField w).toNat w i) : illegalCause w = formatCause i := by
  obtain ⟨hs, hd, hcstd⟩ := hformats
  have hopc' : decide ((opcField w).toNat > 5) = false := by simp [hopc]
  have hrsv' : (rsvField w != 0) = false := by simpa using hrsv
  simp only [illegalCause, illegalChecks, formatCause, List.find?_cons, hs, hd, hopc', hrsv']
  cases hsl : i.sourceLegal with
  | false => simp [Instr.wellFormed, hsl]
  | true =>
    cases hdl : i.destLegal with
    | false => simp [Instr.wellFormed, hsl, hdl]
    | true =>
      have hw : i.wellFormed = true := by simp [Instr.wellFormed, hsl, hdl]
      have hfilt' : (if (opcField w).toNat = 2 then filtField w == 3 else filtField w != 0) = false := by
        split at hfilt
        · simpa [*] using hfilt
        · simp [*]
      have hrot' : (rotField w != 0 && (opcField w).toNat != 3 && (opcField w).toNat != 4) = false := by
        rcases hrot with h | h | h <;> simp [h]
      have hcstd' : (cstdField w == 1 &&
          !usesColourMatrix (opcField w).toNat (sourceFormat w) (destFormat w)) = false := by
        rcases hcstd hw with h | h <;> simp [h]
      simp only [hfilt', hrot', hcstd', hw, if_true, Bool.not_true, List.find?_nil,
        Option.map_none]

/-- The rows of END and the rotations fix the three fields to 0. -/
theorem checksFormats_fixed {opc : Nat} {w p : Word} {i : Instr} (h : w &&& 0xFFFFFFFF = p)
    (hopc : opc = 0 ∨ opc = 3 ∨ opc = 4) (hs : sourceFormat p = .none) (hd : destFormat p = .none)
    (hc : cstdField p = 0) (hi : i.sourceLegal = true ∧ i.destLegal = true) : ChecksFormats opc w i := by
  obtain rfl : w = p := (BitVec.and_allOnes (x := w)).symm.trans h
  rcases hopc with rfl | rfl | rfl <;>
    exact ⟨by simp [sourceFormatAllowed, hs, hi], by simp [destFormatAllowed, hd, hi], fun _ => .inl hc⟩

/-- The rows of SCALE fix `DFMT` and `CSTD` to 0. -/
theorem checksFormats_scale {w p : Word} {i : Instr} (h : w &&& 0xFFFFC0FF = p)
    (hd : dfmtField p = 0) (hc : cstdField p = 0)
    (hi : i.sourceLegal = (sourceFormat w).isScalable ∧ i.destLegal = true) : ChecksFormats 2 w i := by
  have hdw : dfmtField w = 0 := (extractLsb'_of_match h 14 6 rfl).trans hd
  have hcw : cstdField w = 0 := (extractLsb'_of_match h 24 1 rfl).trans hc
  have hnone : destFormat w = .none := by simp [destFormat, hdw, ofCode_eq_none]
  exact ⟨by simp [sourceFormatAllowed, hi], by simp [destFormatAllowed, hnone, hi], fun _ => .inl hcw⟩

/-- On a word that matches a row, the format checks come out as the legality of what the row builds: bits 5:4 of
each format field that a row leaves free are fixed to the form's family. -/
theorem checksFormats_of_match {w : Word} {r : FormRow} (hr : r ∈ formTable) (h : w &&& r.mask = r.pat) :
    ChecksFormats (opcField r.pat).toNat w (r.build w) := by
  have hs := sfmtField_of_match h
  have hd := dfmtField_of_match h
  have hc := extractLsb'_of_match h 24 1
  simp only [formTable, List.mem_cons, List.not_mem_nil, or_false] at hr
  rcases hr with rfl | rfl | rfl | rfl | rfl | rfl | rfl | rfl | rfl | rfl | rfl | rfl | rfl | rfl | rfl
    | rfl | rfl | rfl
  · exact checksFormats_fixed h (.inl rfl) rfl rfl rfl ⟨rfl, rfl⟩
  · exact ⟨image_of_class_zero hs, image_of_class_one hd, fun hw =>
      .inr (usesColourMatrix_convert (.inl (Bool.and_eq_true_iff.mp hw)))⟩
  · exact ⟨image_of_class_one hs, image_of_class_zero hd, fun hw =>
      .inr (usesColourMatrix_convert (.inr (Bool.and_eq_true_iff.mp hw)))⟩
  · exact ⟨image_of_class_zero hs, image_of_class_zero hd, fun _ => .inl (hc rfl)⟩
  · exact ⟨image_of_class_one hs, image_of_class_one hd, fun _ => .inl (hc rfl)⟩
  iterate 3 exact checksFormats_scale h rfl rfl ⟨rfl, rfl⟩
  iterate 4 exact checksFormats_fixed h (.inr (.inl rfl)) rfl rfl rfl ⟨rfl, rfl⟩
  iterate 4 exact checksFormats_fixed h (.inr (.inr rfl)) rfl rfl rfl ⟨rfl, rfl⟩
  · exact ⟨rfl, image_of_class_one hd, fun _ => .inl (hc rfl)⟩
  · exact ⟨rfl, image_of_class_zero hd, fun hw => .inr (Bool.and_eq_true_iff.mp hw).2⟩

/-- A word that matches a row fails no check but those of its formats. -/
theorem illegalCause_of_selectForm {w : Word} {i : Instr} (h : selectForm w = some i) :
    illegalCause w = formatCause i := by
  obtain ⟨r, hr, hmatch, rfl⟩ := selectForm_cases h
  have ⟨hopcm, hfiltm, hrotm, hrsvm⟩ := formTable_masks r hr
  have hopc : opcField w = opcField r.pat := extractLsb'_of_match hmatch 0 8 hopcm
  have hfilt : filtField w = filtField r.pat := extractLsb'_of_match hmatch 20 2 hfiltm
  have hrot : rotField w = rotField r.pat := extractLsb'_of_match hmatch 22 2 hrotm
  have hrsv : rsvField w = rsvField r.pat := extractLsb'_of_match hmatch 25 7 hrsvm
  have hpat := formTable_pats r hr
  have hformats := checksFormats_of_match hr hmatch
  rw [← hopc, ← hfilt, ← hrot, ← hrsv] at hpat
  rw [← hopc] at hformats
  obtain ⟨hopc5, hrsv0, hfiltok, hrotok⟩ := hpat
  exact illegalCause_eq hopc5 hrsv0 hfiltok hrotok hformats

/-! ### Words that fail no check -/

/-- The command words of the legal instructions. -/
def LegalWord (w : Word) : Prop :=
  ∃ i : Instr, i.wellFormed = true ∧ encodeWord i = w

theorem code_eq_zero {c : BitVec 6} (h : PixelFormat.ofCode c = .none) : c = 0 := by
  rw [← code_ofCode c, h]
  rfl

theorem eq_zero_of_ne_one {b : BitVec 1} (h : b ≠ 1) : b = 0 := by
  revert b
  decide

theorem legalWord_end : LegalWord (packFields 0 0 0 0 0 0) :=
  ⟨.endList, rfl, rfl⟩

/-- The two families of the formats give the form of CONVERT; within one family `CSTD` is 0. -/
theorem legalWord_convert {s d : BitVec 6} {b : BitVec 1}
    (hs : sourceFormatAllowed 1 (.ofCode s) = true) (hd : destFormatAllowed 1 (.ofCode d) = true)
    (hb : b = 1 → usesColourMatrix 1 (.ofCode s) (.ofCode d) = true) : LegalWord (packFields 1 s d 0 0 b) := by
  rcases Bool.or_eq_true_iff.mp hs with hs | hs <;> rcases Bool.or_eq_true_iff.mp hd with hd | hd
  · obtain rfl : b = 0 := eq_zero_of_ne_one fun h => by
      simpa [usesColourMatrix, hs, hd] using hb h
    exact ⟨.convertYY (.ofCode s) (.ofCode d), Bool.and_eq_true_iff.mpr ⟨hs, hd⟩,
      by simp [encodeWord, code_ofCode]⟩
  · exact ⟨.convertYR (.ofCode s) (.ofCode d) (.ofBit b), Bool.and_eq_true_iff.mpr ⟨hs, hd⟩,
      by simp [encodeWord, code_ofCode, bit_ofBit]⟩
  · exact ⟨.convertRY (.ofCode s) (.ofCode d) (.ofBit b), Bool.and_eq_true_iff.mpr ⟨hs, hd⟩,
      by simp [encodeWord, code_ofCode, bit_ofBit]⟩
  · obtain rfl : b = 0 := eq_zero_of_ne_one fun h => by
      simpa [usesColourMatrix, isYuv_eq_false_of_isRgb hs, isYuv_eq_false_of_isRgb hd] using hb h
    exact ⟨.convertRR (.ofCode s) (.ofCode d), Bool.and_eq_true_iff.mpr ⟨hs, hd⟩,
      by simp [encodeWord, code_ofCode]⟩

theorem legalWord_scale {s : BitVec 6} {f : BitVec 2} (hs : (PixelFormat.ofCode s).isScalable = true)
    (hf : f ≠ 3) : LegalWord (packFields 2 s 0 f 0 0) := by
  have hcases : f = 0 ∨ f = 1 ∨ f = 2 := by
    revert f
    decide
  have hw : ((PixelFormat.ofCode s).isScalable && true) = true := by rw [hs]; rfl
  rcases hcases with rfl | rfl | rfl
  · exact ⟨.scaleNone (.ofCode s), hw, by simp [encodeWord, code_ofCode]⟩
  · exact ⟨.scaleLinear (.ofCode s), hw, by simp [encodeWord, code_ofCode]⟩
  · exact ⟨.scaleBilinear (.ofCode s), hw, by simp [encodeWord, code_ofCode]⟩

theorem legalWord_rotate (t : BitVec 2) :
    LegalWord (packFields 3 0 0 0 t 0) ∧ LegalWord (packFields 4 0 0 0 t 0) := by
  have hcases : t = 0 ∨ t = 1 ∨ t = 2 ∨ t = 3 := by
    revert t
    decide
  rcases hcases with rfl | rfl | rfl | rfl
  · exact ⟨⟨.rotate0, rfl, rfl⟩, ⟨.rotateUV0, rfl, rfl⟩⟩
  · exact ⟨⟨.rotate90, rfl, rfl⟩, ⟨.rotateUV90, rfl, rfl⟩⟩
  · exact ⟨⟨.rotate180, rfl, rfl⟩, ⟨.rotateUV180, rfl, rfl⟩⟩
  · exact ⟨⟨.rotate270, rfl, rfl⟩, ⟨.rotateUV270, rfl, rfl⟩⟩

/-- The family of the destination gives the form of DEMOSAIC; to the RGB family `CSTD` is 0. -/
theorem legalWord_demosaic {s d : BitVec 6} {b : BitVec 1}
    (hs : (PixelFormat.ofCode s).isBayer = true) (hd : destFormatAllowed 5 (.ofCode d) = true)
    (hb : b = 1 → usesColourMatrix 5 (.ofCode s) (.ofCode d) = true) : LegalWord (packFields 5 s d 0 0 b) := by
  rcases Bool.or_eq_true_iff.mp hd with hd | hd
  · exact ⟨.demosaicY (.ofCode s) (.ofCode d) (.ofBit b), Bool.and_eq_true_iff.mpr ⟨hs, hd⟩,
      by simp [encodeWord, code_ofCode, bit_ofBit]⟩
  · obtain rfl : b = 0 := eq_zero_of_ne_one fun h => by
      simpa [usesColourMatrix, isYuv_eq_false_of_isRgb hd] using hb h
    exact ⟨.demosaicR (.ofCode s) (.ofCode d), Bool.and_eq_true_iff.mpr ⟨hs, hd⟩,
      by simp [encodeWord, code_ofCode]⟩

/-- A word packed from fields that pass the checks is a legal instruction's. -/
theorem legalWord_packFields {o : BitVec 8} {s d : BitVec 6} {f t : BitVec 2} {b : BitVec 1}
    (ho : o.toNat ≤ 5) (hs : sourceFormatAllowed o.toNat (.ofCode s) = true)
    (hd : destFormatAllowed o.toNat (.ofCode d) = true)
    (hf : if o.toNat = 2 then f ≠ 3 else f = 0) (ht : t ≠ 0 → o.toNat ≠ 3 → o.toNat = 4)
    (hb : b = 1 → usesColourMatrix o.toNat (.ofCode s) (.ofCode d) = true) :
    LegalWord (packFields o s d f t b) := by
  have hcases : o = 0 ∨ o = 1 ∨ o = 2 ∨ o = 3 ∨ o = 4 ∨ o = 5 := by bv_omega
  have hzero {c : BitVec 6} (h : (PixelFormat.ofCode c == .none) = true) : c = 0 := code_eq_zero (beq_iff_eq.mp h)
  rcases hcases with rfl | rfl | rfl | rfl | rfl | rfl
  · obtain rfl : b = 0 := eq_zero_of_ne_one fun h => Bool.false_ne_true (hb h)
    obtain rfl : t = 0 := by simpa using ht
    obtain rfl : f = 0 := hf
    obtain rfl := hzero hs
    obtain rfl := hzero hd
    exact legalWord_end
  · obtain rfl : t = 0 := by simpa using ht
    obtain rfl : f = 0 := hf
    exact legalWord_convert hs hd hb
  · obtain rfl : b = 0 := eq_zero_of_ne_one fun h => Bool.false_ne_true (hb h)
    obtain rfl : t = 0 := by simpa using ht
    obtain rfl := hzero hd
    exact legalWord_scale hs hf
  · obtain rfl : b = 0 := eq_zero_of_ne_one fun h => Bool.false_ne_true (hb h)
    obtain rfl : f = 0 := hf
    obtain rfl := hzero hs
    obtain rfl := hzero hd
    exact (legalWord_rotate t).1
  · obtain rfl : b = 0 := eq_zero_of_ne_one fun h => Bool.false_ne_true (hb h)
    obtain rfl : f = 0 := hf
    obtain rfl := hzero hs
    obtain rfl := hzero hd
    exact (legalWord_rotate t).2
  · obtain rfl : t = 0 := by simpa using ht
    obtain rfl : f = 0 := hf
    exact legalWord_demosaic hs hd hb

theorem legalWord_of_illegalCause {w : Word} (h : illegalCause w = none) : LegalWord w := by
  have hchecks := (find_fst_map_eq_none _).mp h
  simp only [illegalChecks, List.forall_mem_cons] at hchecks
  obtain ⟨ho, hrsv, hs, hd, hf, ht, hb, -⟩ := hchecks
  rw [← packFields_fields (w := w) (by simpa using hrsv)]
  refine legalWord_packFields (by simpa using ho) (by simpa [sourceFormat] using hs)
    (by simpa [destFormat] using hd) ?_ (by simpa using ht)
    (by simpa [sourceFormat, destFormat] using hb)
  split at hf <;> simpa [*] using hf

end Sys2Proof.Machine
end

section
/-! SUPPORT. What a running engine makes of the bytes at `DPC` (40_sequencing.md rules R131, R132): a descriptor
laid out in memory is fetched as it is, a legal command word is executed, and every other word raises the first
failing check. -/

namespace Sys2Proof.Machine

/-! ### A descriptor laid out in memory (rules R90, R131) -/

/-- `MemRead` of bytes that lie in memory little-endian. -/
theorem Memory.read_of_bytes {m : Memory} {a : Int} {n v : Nat}
    (h : ∀ k < n, m.load (address (a + k)) = BitVec.ofNat 8 (v / 256 ^ k)) : m.read a n = v % 256 ^ n := by
  induction n generalizing a v with
  | zero => simp [Memory.read, Nat.mod_one]
  | succ n ih =>
    have hfirst : m.load (address a) = BitVec.ofNat 8 v := by simpa using h 0 (by omega)
    have hrest : m.read (a + 1) n = v / 256 % 256 ^ n := ih fun k hk => by
      rw [← add_cast_succ, h (k + 1) (by omega), Nat.div_div_eq_div_mul, ← pow_succ']
    rw [Memory.read, hfirst, hrest, BitVec.toNat_ofNat, pow_succ' 256, Nat.mod_mul]

/-- The words of a descriptor make it up. -/
theorem Descriptor.ofWords_eq {f : Nat → Word} {d : Descriptor} (h : ∀ i < 17, f i = d.word i) :
    Descriptor.ofWords f = d := by
  simp only [Descriptor.ofWords, h, Nat.reduceLT]
  rfl

/-- The 68 bytes of the descriptor lie in memory at `DPC`, each word little-endian (rule R90). -/
def State.HoldsDescriptor (s : State) (d : Descriptor) : Prop :=
  ∀ k, k < 68 → s.mem.load ((s.dpc.toNat + k) % 2 ^ 32)
    = BitVec.ofNat 8 ((d.word (k / 4)).toNat / 256 ^ (k % 4))

theorem address_natCast (n : Nat) : address n = n % 2 ^ 32 := by
  simp only [address, Config.memBytes]
  omega

theorem fetchedWord_of_holds {s : State} {d : Descriptor} (h : s.HoldsDescriptor d) {i : Nat} (hi : i < 17) :
    s.fetchedWord i = d.word i := by
  have hread : s.mem.read ((s.dpc.toNat : Int) + 4 * i) 4 = (d.word i).toNat % 256 ^ 4 := by
    refine Memory.read_of_bytes fun k hk => ?_
    have hbyte := h (4 * i + k) (by omega)
    rw [show (4 * i + k) / 4 = i by omega, show (4 * i + k) % 4 = k by omega] at hbyte
    rw [← hbyte, ← address_natCast]
    congr 2
    push_cast
    ring
  apply BitVec.eq_of_toNat_eq
  rw [State.fetchedWord, hread, BitVec.toNat_ofNat]
  omega

theorem fetch_of_holds {s : State} {d : Descriptor} (h : s.HoldsDescriptor d) :
    s.fetch = { s with latch := d } := by
  unfold State.fetch
  rw [Descriptor.ofWords_eq fun i hi => fetchedWord_of_holds h hi]

/-- Settles O2: the 68 bytes are fetched as the descriptor (`fetch_of_holds`), whose command word decodes to the
instruction (`decode_encodeWord`). -/
theorem decodeEncodeRoundTrip : Obligations.DecodeEncodeRoundTrip := by
  intro i operands s hi hbytes
  have hfetch : s.fetch = { s with latch := encode i operands } := fetch_of_holds hbytes
  have hword : s.fetchedWord 0 = encodeWord i := fetchedWord_of_holds hbytes (by omega)
  have hdecode : decode (s.fetchedWord 0) = .ok i := by rw [hword, decode_encodeWord hi]
  exact ⟨by rw [hfetch], hdecode, fun hb => hfetch ▸ step_decoded hb hdecode⟩

/-! ### Words that fail a check (rules R101, R132) -/

/-- A running engine raises the cause that the seven checks give its command word, whether the word matches no row
or a row that leaves the illegal format free. -/
theorem step_of_illegalCause {s : State} {c : IllegalCause} (hb : s.busy = true)
    (hc : illegalCause (s.fetchedWord 0) = some c) : step s = .next (raise (.illegalCommand c) s.fetch) := by
  cases hsel : selectForm (s.fetchedWord 0) with
  | none => exact step_undecoded hb (decode_of_unselected hsel hc)
  | some i =>
    rw [step_decoded hb (decode_of_selectForm hsel)]
    rw [illegalCause_of_selectForm hsel, formatCause] at hc
    cases hw : i.wellFormed with
    | true => simp [hw] at hc
    | false =>
      simp only [hw, Bool.false_eq_true, if_false, Option.some.injEq] at hc
      rw [exec_ill_formed hw, hc]

/-- Settles O5: the first failing check gives the cause (`illegalCause_of_firstFailing`), which the step raises; a
word that fails none is a legal instruction's (`legalWord_of_illegalCause`), which it decodes to. -/
theorem illegalWordsRaiseFirstFailingCheck : Obligations.IllegalWordsRaiseFirstFailingCheck := by
  intro s hb
  refine ⟨fun c hc => step_of_illegalCause hb (illegalCause_of_firstFailing hc), fun hpass => ?_⟩
  obtain ⟨i, hi, hword⟩ := legalWord_of_illegalCause (illegalCause_of_passes hpass)
  have hdecode : decode (s.fetchedWord 0) = .ok i := hword ▸ decode_encodeWord hi
  exact ⟨i, hi, hword, step_decoded hb hdecode⟩

end Sys2Proof.Machine
end

section
/-! SUPPORT. The sequence of one command (40_sequencing.md): the fetch and the run loop (rules R130 to R132), the
argument checks (R134), completion (R138, R139), END (R140) and the state a run stops in (R142). -/

namespace Sys2Proof.Machine

/-! ### Fetch and decode (rules R130 to R132) -/

theorem Memory.read_lt (m : Memory) (a : Int) (n : Nat) : m.read a n < 256 ^ n := by
  induction n generalizing a with
  | zero => exact Nat.one_pos
  | succ n ih =>
    have hrest := ih (a + 1)
    have hfirst := (m.load (address a)).isLt
    rw [Memory.read, pow_succ']
    omega

/-- A fetched word is the little-endian sum of its four bytes. -/
theorem toNat_fetchedWord (s : State) (i : Nat) : (s.fetchedWord i).toNat =
    ∑ j ∈ Finset.range 4, (s.mem.load ((s.dpc.toNat + 4 * i + j) % 2 ^ 32)).toNat * 256 ^ j := by
  have hlt := s.mem.read_lt ((s.dpc.toNat : Int) + 4 * i) 4
  rw [State.fetchedWord, BitVec.toNat_ofNat, Nat.mod_eq_of_lt (by omega), Memory.read_eq_sum]
  refine Finset.sum_congr rfl fun j _ => ?_
  rw [← address_natCast]
  push_cast
  rfl

theorem Descriptor.word_ofWords (f : Nat → Word) {i : Nat} (hi : i < 17) :
    (Descriptor.ofWords f).word i = f i := by
  interval_cases i <;> rfl

/-- Settles O1: the words by the little-endian sum (`toNat_fetchedWord`), the step by `step_decoded`. -/
theorem stepRunsDecodedCommand : Obligations.StepRunsDecodedCommand := by
  intro s
  refine ⟨fun i hi => ?_, rfl, fun i hb hd _ => step_decoded hb hd, step_idle⟩
  rw [State.fetch_latch, Descriptor.word_ofWords _ hi, toNat_fetchedWord]

/-! ### END (rule R140) -/

/-- Settles O8: a command word of 0 decodes to END (`decode_zero`). -/
theorem endStopsTheRun : Obligations.EndStopsTheRun :=
  fun _ => ⟨rfl, fun hb hz => step_decoded hb (decode_zero hz)⟩

/-! ### The argument checks (rule R134) -/

theorem argChecks_rising (cls : CommandClass) (ns nd : Nat) (d : Descriptor) :
    (argChecks cls ns nd d).Pairwise fun p q => p.2.code.toNat < q.2.code.toNat := by
  simp [argChecks, ArgCause.code]

/-- Each condition of the checks says that the operands fail the check. -/
theorem argChecks_iff {i : Instr} {cls : CommandClass} (hcls : commandClass i = some cls) {d : Descriptor}
    {b : Bool} {c : ArgCause} (hb : (b, c) ∈ argChecks cls (sourceGeom i d).length (destGeom i d).length d) :
    b = true ↔ FailsArgument i d c := by
  cases c <;>
    simp only [argChecks, List.mem_cons, List.not_mem_nil, Prod.mk.injEq, reduceCtorEq, and_false, and_true,
      false_or, or_false] at hb <;>
    simp only [hb, FailsArgument, hcls, Option.some.injEq, Bool.and_eq_true, beq_iff_eq, decide_eq_true_eq] <;>
    rfl

theorem exists_mem_argChecks (cls : CommandClass) (ns nd : Nat) (d : Descriptor) (c : ArgCause) :
    ∃ b, (b, c) ∈ argChecks cls ns nd d := by
  cases c <;> simp [argChecks]

/-- The checks of a data command find the first cause, in their order, that its operands fail. -/
theorem instrArgFault_of_firstFailing {i : Instr} {d : Descriptor} {c : ArgCause} (hi : i ≠ .endList)
    (h : FirstFailingArgument i d c) : instrArgFault i d = some c := by
  obtain ⟨hfails, hearlier⟩ := h
  cases hcls : commandClass i with
  | none => exact absurd ((commandClass_eq_none_iff i).mp hcls) hi
  | some cls =>
    simp only [instrArgFault, hcls]
    obtain ⟨b, hb⟩ := exists_mem_argChecks cls (sourceGeom i d).length (destGeom i d).length d c
    obtain rfl : b = true := (argChecks_iff hcls hb).mpr hfails
    refine find_fst_map_eq_some (key := (·.code.toNat)) (argChecks_rising ..) hb fun p hp hlt => ?_
    exact Bool.eq_false_iff.mpr fun htrue => hearlier p.2 hlt ((argChecks_iff hcls hp).mp htrue)

/-- Settles O6: the command raises the cause that its checks find (`instrArgFault_of_firstFailing`). -/
theorem invalidArgumentStopsBeforeAnyWrite : Obligations.InvalidArgumentStopsBeforeAnyWrite := by
  intro i s c hi hw hc
  have hfault := instrArgFault_of_firstFailing hi hc
  rcases exec_data_cases hi hw s with ⟨c', hc', he⟩ | ⟨⟨-, -, hargs, -⟩, -⟩ | ⟨hargs, -, -⟩
  · obtain rfl : c' = c := Option.some.inj (hc'.symm.trans hfault)
    exact he
  · rw [(instrArgFault_eq_none_iff hi hw _).mpr hargs] at hfault
    cases hfault
  · rw [(instrArgFault_eq_none_iff hi hw _).mpr hargs] at hfault
    cases hfault

/-! ### Completion (rules R138, R139) -/

@[simp] theorem completed_busy (i : Instr) (s : State) : (completed i s).busy = s.busy := rfl

theorem completed_sameControl (i : Instr) (s : State) : SameControl s (completed i s) :=
  ⟨rfl, rfl, rfl, rfl, rfl, rfl, rfl⟩

/-- A data command whose preconditions hold completes, in the state that holds its stores. -/
theorem completes_completed {i : Instr} {s : State} (hr : Ready i s) : Completes i s (completed i s) :=
  ⟨exec_ready hr, rfl, completed_sameControl i s, fun _ => load_completed_ne⟩

/-- Settles O12. -/
theorem dataCommandsCompleteWithFrame : Obligations.DataCommandsCompleteWithFrame :=
  fun i s hr => ⟨completed i s, completes_completed hr⟩

/-! ### The end of a run (rule R142) -/

/-- Once the engine is idle, exactly one of `DONE` and `ERR` is set. -/
def State.EndsSettled (s : State) : Prop := s.busy = false → s.done = !s.err

/-- END sets `DONE` and an error sets `ERR`, each on a running engine, which shows neither; a completed data
command leaves the engine running. -/
theorem State.Inv.step_endsSettled {s t : State} (h : s.Inv) (hs : s.EndsSettled)
    (ht : Machine.step s = .next t) : t.EndsSettled := by
  obtain ⟨-, -, hflags, -⟩ := h
  rcases step_next_cases ht with ⟨-, rfl⟩ | ⟨hb, rfl⟩ | ⟨hb, e, rfl⟩ | ⟨hb, i, -, -, rfl⟩
  · exact hs
  · simp [State.EndsSettled, hflags.err_of_busy hb]
  · simp [State.EndsSettled, hflags.done_of_busy hb]
  · simp [State.EndsSettled, hb]

theorem State.Inv.run_endsSettled {n : Nat} {s t : State} (h : s.Inv) (hs : s.EndsSettled)
    (ht : core.run n s = .next t) : t.EndsSettled := by
  induction n generalizing s with
  | zero => exact Host.Outcome.next.inj ht ▸ hs
  | succ n ih =>
    obtain ⟨u, hu, hrun⟩ := core_run_succ_next ht
    exact ih (h.step hu) (h.step_endsSettled hs hu) hrun

/-- Settles O11: a running engine has nothing to show, and every step keeps it so (`run_endsSettled`). -/
theorem runEndsDoneOrError : Obligations.RunEndsDoneOrError := by
  rintro n s t h hb ⟨hrun, hidle⟩
  have hs : s.EndsSettled := by simp [State.EndsSettled, hb]
  exact h.run_endsSettled hs hrun hidle

end Sys2Proof.Machine
end

section
/-! SUPPORT. Images read through different planes: the stores of a command are the same whenever its source planes
show the same bytes, wherever the planes lie (20_memory.md rule R65, 40_sequencing.md rule R136). -/

namespace Sys2Proof.Machine

/-- At every position of the geometry, `ps'` over `m'` shows the byte that `ps` over `m` shows. -/
def SameImage (gs : List Geom) (m : Memory) (ps : List Plane) (m' : Memory) (ps' : List Plane) : Prop :=
  ∀ k g y off, gs[k]? = some g → y < g.rows → off < g.rb →
    (planeAt ps' k).byte m' y off = (planeAt ps k).byte m y off

section SameImage
variable {m m' : Memory} {ps ps' : List Plane} {w h : Nat}

/-! ### Source pixels -/

theorem unpackYuv_sameImage {f : YuvFormat} (hm : SameImage (yuvGeom f w h) m ps m' ps') :
    ∀ x < w, ∀ y < h, unpackYuv f m' ps' x y = unpackYuv f m ps x y := by
  intro x hx y hy
  cases f <;> simp only [unpackYuv, Yuv.mk.injEq]
  case i400 => exact ⟨hm _ _ _ _ rfl hy hx, trivial, trivial⟩
  all_goals
    refine ⟨hm _ _ _ _ rfl ?_ ?_, hm _ _ _ _ rfl ?_ ?_, hm _ _ _ _ rfl ?_ ?_⟩ <;> simp only [cdim] <;> omega

theorem unpackRgb_sameImage {f : RgbFormat} (hm : SameImage (rgbGeom f w h) m ps m' ps') :
    ∀ x < w, ∀ y < h, unpackRgb f m' ps' x y = unpackRgb f m ps x y := by
  intro x hx y hy
  have hbyte : ∀ off < rgbBytes f * w, (planeAt ps' 0).byte m' y off = (planeAt ps 0).byte m y off :=
    fun off ho => hm _ _ _ _ rfl hy ho
  cases f <;> simp only [rgbBytes] at hbyte <;> simp (disch := omega) only [unpackRgb, hbyte]

theorem bayerPixel_sameImage (f : BayerFormat) (hm : SameImage (bayerGeom w h) m ps m' ps') :
    ∀ x < w, ∀ y < h,
      bayerPixel f (mosaicSample m' ps') w h x y = bayerPixel f (mosaicSample m ps) w h x y :=
  fun _ hx _ hy => bayerPixel_congr f (fun _ hx _ hy => hm _ _ _ _ rfl hy hx) hx hy

theorem scaleSource_sameImage {n : Nat} {z : ScaleSize} (hm : SameImage (scaleSourceGeom n z) m ps m' ps') :
    SameSamples n z (scaleSource n m' ps') (scaleSource n m ps) := by
  intro x hx y hy c hc
  refine hm 0 _ y _ rfl hy ?_
  calc n * x + c < n * x + n := by omega
    _ = n * (x + 1) := by ring
    _ ≤ n * z.sw := Nat.mul_le_mul_left _ hx

/-! ### The stores of a command -/

theorem filteredStores_sameImage {filter : ScaleSize → (Nat → Nat → Nat → Byte) → Nat → Nat → Nat → Byte}
    (hfilter : ReadsInside filter) {n : Nat} {z : ScaleSize} (hw : 0 < z.sw) (hh : 0 < z.sh)
    (hm : SameImage (scaleSourceGeom n z) m ps m' ps') :
    scaleStores n z (filter z (scaleSource n m' ps')) = scaleStores n z (filter z (scaleSource n m ps)) :=
  scaleStores_congr (hfilter n z _ _ hw hh (scaleSource_sameImage hm))

theorem splitStores_sameImage (rot : Rotation) (hm : SameImage [⟨2 * w, h⟩] m ps m' ps') :
    rotateUVStores rot w h (fun x y e => (planeAt ps' 0).byte m' y (2 * x + e))
      = rotateUVStores rot w h fun x y e => (planeAt ps 0).byte m y (2 * x + e) :=
  rotateUVStores_congr rot fun x hx y hy e he => by
    have hoff : 2 * x + e < 2 * w := by omega
    exact hm _ _ _ _ rfl hy hoff

/-- The stores of a command are the same over source planes that show the same image; `instrStores_congr` is the
case of the same planes over two memories. -/
theorem instrStores_sameImage {i : Instr} {s : State} (ha : ArgsOk i s.latch)
    (hm : SameImage (sourceGeom i s.latch) s.mem ps m' ps') :
    instrStores i (s.withMem m') ps' = instrStores i s ps := by
  obtain ⟨hw, hh⟩ := image_pos ha
  cases i with
  | endList => rfl
  | convertYR sf df cs =>
    cases sf <;> cases df <;> first
      | rfl
      | exact rgbStores_congr _ fun x hx y hy =>
          congrArg (fun p : Yuv => inverse cs p.y p.u p.v) (unpackYuv_sameImage hm x hx y hy)
  | convertRY sf df cs =>
    cases sf <;> cases df <;> first
      | rfl
      | exact rgbToYuvStores_congr _ _ hw hh (unpackRgb_sameImage hm)
  | convertYY sf df =>
    cases sf <;> cases df <;> first
      | rfl
      | exact yuvToYuvStores_congr _ hw hh (unpackYuv_sameImage hm)
  | convertRR sf df =>
    cases sf <;> cases df <;> first
      | rfl
      | exact rgbStores_congr _ (unpackRgb_sameImage hm)
  | demosaicR sf df =>
    cases sf <;> cases df <;> first
      | rfl
      | exact rgbStores_congr _ (bayerPixel_sameImage _ hm)
  | demosaicY sf df cs =>
    cases sf <;> cases df <;> first
      | rfl
      | exact rgbToYuvStores_congr _ _ hw hh (bayerPixel_sameImage _ hm)
  | scaleNone f => exact filteredStores_sameImage pointSample_readsInside hw hh hm
  | scaleLinear f => exact filteredStores_sameImage linearSample_readsInside hw hh hm
  | scaleBilinear f => exact filteredStores_sameImage bilinearSample_readsInside hw hh hm
  | rotate0 | rotate90 | rotate180 | rotate270 =>
    exact rotateStores_congr _ fun x hx y hy => hm _ _ _ _ rfl hy hx
  | rotateUV0 | rotateUV90 | rotateUV180 | rotateUV270 => exact splitStores_sameImage _ hm

end SameImage

/-- The stores of a command look at the sizes in the latch and at memory alone. -/
theorem instrStores_of_sizes {s s' : State} (hw : imageWidth s'.latch = imageWidth s.latch)
    (hh : imageHeight s'.latch = imageHeight s.latch) (hz : scaleSize s'.latch = scaleSize s.latch) (i : Instr)
    (srcs : List Plane) : instrStores i s' srcs = instrStores i (s.withMem s'.mem) srcs := by
  simp only [instrStores, hw, hh, hz, State.withMem_latch, State.withMem_mem]

/-- Two commands with the same destination planes and the same stores leave the same bytes there. -/
theorem completed_footprint_eq {i : Instr} {s s' : State} (hr : Ready i s) (hr' : Ready i s')
    (hwrite : writePlanes i s'.latch = writePlanes i s.latch)
    (hstores : instrStores i s' (readPlanes i s'.latch) = instrStores i s (readPlanes i s.latch)) {a : Nat}
    (ha : InFootprint (writePlanes i s.latch) a) : (completed i s').mem.load a = (completed i s).mem.load a := by
  obtain ⟨k, y, off, hp, rfl⟩ := ha
  have ⟨hi, hw, _⟩ := hr
  obtain ⟨st, hst, rfl, rfl, rfl⟩ := instrStores_cover hi hw (readPlanes i s.latch) hp
  have hbyte' := destByte_completed hr' (hstores ▸ hst)
  rw [destByte, hwrite] at hbyte'
  exact hbyte'.trans (destByte_completed hr hst).symm

end Sys2Proof.Machine
end

section
/-! SUPPORT. The orientation of the source planes (20_memory.md rule R65, 40_sequencing.md rules R133, R136): where
the bytes of every plane lie, and that negating `HEIGHT` walks the same rows from the last one up. -/

namespace Sys2Proof.Machine

/-! ### The addresses of the planes -/

theorem address_cast (a : Int) : (address a : Int) = a % 2 ^ 32 :=
  Int.toNat_of_nonneg (Int.emod_nonneg _ (by decide))

@[simp] theorem sourcePlane_rows (d : Descriptor) (k : Nat) (g : Geom) : (sourcePlane d k g).rows = g.rows := by
  unfold sourcePlane
  split <;> rfl

@[simp] theorem sourcePlane_rb (d : Descriptor) (k : Nat) (g : Geom) : (sourcePlane d k g).rb = g.rb := by
  unfold sourcePlane
  split <;> rfl

theorem addr_sourcePlane_of_nonneg {d : Descriptor} (h : 0 ≤ heightOf d) (k : Nat) (g : Geom) (y off : Nat) :
    (sourcePlane d k g).addr y off = address ((srcAddr d k).toNat + y * srcStride d k + off) := by
  simp only [sourcePlane, not_lt.mpr h, if_false, Plane.addr]

/-- With a negative `HEIGHT` row 0 is the last row in memory. -/
theorem addr_sourcePlane_of_neg {d : Descriptor} (h : heightOf d < 0) (k : Nat) (g : Geom) (y off : Nat) :
    (sourcePlane d k g).addr y off
      = address ((srcAddr d k).toNat + ((g.rows : Int) - 1 - y) * srcStride d k + off) := by
  simp only [sourcePlane, h, if_true, Plane.addr]
  congr 1
  ring

/-- The words that name the source slots (rule R133). -/
theorem srcSlot_eq {d : Descriptor} {k : Nat} {base stride : Word}
    (h : [(d.src0Addr, d.src0Stride), (d.src1Addr, d.src1Stride), (d.src2Addr, d.src2Stride)][k]?
      = some (base, stride)) : srcAddr d k = base ∧ srcStride d k = stride.toInt := by
  match k, h with
  | 0, rfl | 1, rfl | 2, rfl => exact ⟨rfl, rfl⟩

/-- The words that name the destination slots (rule R133). -/
theorem dstSlot_eq {d : Descriptor} {k : Nat} {base stride : Word}
    (h : [(d.dst0Addr, d.dst0Stride), (d.dst1Addr, d.dst1Stride), (d.dst2Addr, d.dst2Stride)][k]?
      = some (base, stride)) : dstAddr d k = base ∧ dstStride d k = stride.toInt := by
  match k, h with
  | 0, rfl | 1, rfl | 2, rfl => exact ⟨rfl, rfl⟩

theorem exists_srcSlot (d : Descriptor) {k : Nat} (hk : k < 3) : ∃ stride : Word,
    [(d.src0Addr, d.src0Stride), (d.src1Addr, d.src1Stride), (d.src2Addr, d.src2Stride)][k]?
      = some (srcAddr d k, stride) ∧ stride.toInt = srcStride d k := by
  match k, hk with
  | 0, _ | 1, _ | 2, _ => exact ⟨_, rfl, rfl⟩

/-- The positions of a command's source planes, from their geometry. -/
theorem isPosition_sourcePlanes_iff {d : Descriptor} {gs : List Geom} {k y off : Nat} :
    IsPosition (sourcePlanes d gs) k y off ↔ ∃ g, gs[k]? = some g ∧ y < g.rows ∧ off < g.rb := by
  refine ⟨fun ⟨hk, hy, ho⟩ => ?_, fun ⟨g, hg, hy, ho⟩ => isPosition_sourcePlanes hg hy ho⟩
  have hg := List.getElem?_eq_getElem (l := gs) (i := k) (by simpa [sourcePlanes] using hk)
  rw [planeAt_sourcePlanes d hg] at hy ho
  exact ⟨_, hg, by simpa using hy, by simpa using ho⟩

/-! ### The descriptor with the negated height -/

/-- The descriptor with the negated `HEIGHT`. -/
def negateHeight (d : Descriptor) : Descriptor := { d with height := -d.height }

section NegateHeight
variable {d : Descriptor}

/-- A positive height has a negative in range. -/
theorem heightOf_negateHeight (h : 0 < heightOf d) : heightOf (negateHeight d) = -heightOf d := by
  have hmin : d.height ≠ BitVec.intMin 32 := by
    intro he
    rw [heightOf, he] at h
    exact absurd h (by decide)
  exact BitVec.toInt_neg_of_ne_intMin hmin

theorem imageHeight_negateHeight (h : 0 < heightOf d) : imageHeight (negateHeight d) = imageHeight d := by
  rw [imageHeight, heightOf_negateHeight h, Int.natAbs_neg, imageHeight]

theorem scaleSize_negateHeight (h : 0 < heightOf d) : scaleSize (negateHeight d) = scaleSize d := by
  rw [scaleSize, imageHeight_negateHeight h]
  rfl

theorem sourceGeom_negateHeight (h : 0 < heightOf d) (i : Instr) :
    sourceGeom i (negateHeight d) = sourceGeom i d := by
  simp only [sourceGeom, imageHeight_negateHeight h, scaleSize_negateHeight h]
  rfl

theorem destGeom_negateHeight (h : 0 < heightOf d) (i : Instr) :
    destGeom i (negateHeight d) = destGeom i d := by
  simp only [destGeom, imageHeight_negateHeight h, scaleSize_negateHeight h]
  rfl

theorem writePlanes_negateHeight (h : 0 < heightOf d) (i : Instr) :
    writePlanes i (negateHeight d) = writePlanes i d := by
  rw [writePlanes, destGeom_negateHeight h]
  rfl

/-- Row `y` of a plane walked from the last row up is row `rows - 1 - y` of the plane walked down. -/
theorem addr_negateHeight (h : 0 < heightOf d) (k : Nat) {g : Geom} {y : Nat} (hy : y < g.rows) (off : Nat) :
    (sourcePlane (negateHeight d) k g).addr y off = (sourcePlane d k g).addr (g.rows - 1 - y) off := by
  have hneg : heightOf (negateHeight d) < 0 := by rw [heightOf_negateHeight h]; omega
  have hrow : ((g.rows - 1 - y : Nat) : Int) = g.rows - 1 - y := by omega
  rw [addr_sourcePlane_of_neg hneg, addr_sourcePlane_of_nonneg h.le, hrow]
  rfl

/-- Negating the height leaves the bytes that a command reads. -/
theorem inFootprint_of_negateHeight (h : 0 < heightOf d) {i : Instr} {a : Nat}
    (ha : InFootprint (readPlanes i (negateHeight d)) a) : InFootprint (readPlanes i d) a := by
  rw [readPlanes, sourceGeom_negateHeight h] at ha
  obtain ⟨k, y, off, hp, rfl⟩ := ha
  obtain ⟨g, hg, hy, ho⟩ := isPosition_sourcePlanes_iff.mp hp
  have hy' : g.rows - 1 - y < g.rows := by omega
  refine ⟨k, g.rows - 1 - y, off, isPosition_sourcePlanes hg hy' ho, ?_⟩
  rw [readPlanes, planeAt_sourcePlanes _ hg, planeAt_sourcePlanes _ hg, addr_negateHeight h k hy]

theorem ArgsOk.negateHeight (h : 0 < heightOf d) {i : Instr} (ha : ArgsOk i d) :
    ArgsOk i (negateHeight d) := by
  obtain ⟨hsrc, hdst, hwidth, -, hscale, hbayer⟩ := ha
  unfold ArgsOk
  rw [sourceGeom_negateHeight h, destGeom_negateHeight h, heightOf_negateHeight h, Int.neg_emod_two]
  exact ⟨hsrc, hdst, hwidth, by omega, hscale, hbayer⟩

theorem Ready.negateHeight {i : Instr} {s s' : State} (hr : Ready i s) (h : 0 < heightOf s.latch)
    (hl : s'.latch = Machine.negateHeight s.latch) : Ready i s' := by
  obtain ⟨hi, hw, hargs, hinj, hdisjoint⟩ := hr
  rw [Ready, FootprintPrecondition, hl, writePlanes_negateHeight h]
  exact ⟨hi, hw, hargs.negateHeight h, hinj,
    fun a ha hread => hdisjoint a ha (inFootprint_of_negateHeight h hread)⟩

end NegateHeight

/-! ### The obligation -/

/-- The source rows of a command lie in `m'` in the reverse of their order in `m`, plane by plane. -/
def RowsReversed (gs : List Geom) (d : Descriptor) (m m' : Memory) : Prop :=
  ∀ (k : Nat) (g : Geom) (y off : Nat), gs[k]? = some g → y < g.rows → off < g.rb →
    m'.load (address ((srcAddr d k).toNat + ((g.rows : Int) - 1 - y) * srcStride d k + off))
      = m.load (address ((srcAddr d k).toNat + y * srcStride d k + off))

/-- The reversed rows, walked from the last one up, are the image. -/
theorem sameImage_negateHeight {gs : List Geom} {d : Descriptor} {m m' : Memory} (h : 0 < heightOf d)
    (hrev : RowsReversed gs d m m') :
    SameImage gs m (sourcePlanes d gs) m' (sourcePlanes (negateHeight d) gs) := by
  intro k g y off hg hy ho
  have hneg : heightOf (negateHeight d) < 0 := by rw [heightOf_negateHeight h]; omega
  rw [planeAt_sourcePlanes _ hg, planeAt_sourcePlanes _ hg, Plane.byte, Plane.byte,
    addr_sourcePlane_of_neg hneg, addr_sourcePlane_of_nonneg h.le]
  exact hrev k g y off hg hy ho

/-- The command with the negated height over reversed rows stores what the command with the positive height
stores. -/
theorem instrStores_negateHeight {i : Instr} {s s' : State} (hargs : ArgsOk i s.latch)
    (h : 0 < heightOf s.latch) (hl : s'.latch = negateHeight s.latch)
    (hrev : RowsReversed (sourceGeom i s.latch) s.latch s.mem s'.mem) :
    instrStores i s' (readPlanes i s'.latch) = instrStores i s (readPlanes i s.latch) := by
  have hsizes := instrStores_of_sizes (s := s) (s' := s') (by rw [hl]; rfl)
    (by rw [hl, imageHeight_negateHeight h]) (by rw [hl, scaleSize_negateHeight h])
  rw [hsizes, hl, readPlanes, sourceGeom_negateHeight h]
  exact instrStores_sameImage hargs (sameImage_negateHeight h hrev)

/-- Settles O14: the addresses by the two orientations of a source plane; the two commands store the same bytes
(`instrStores_negateHeight`) in the same destination planes. -/
theorem negativeHeightIsFlippedSource : Obligations.NegativeHeightIsFlippedSource := by
  refine ⟨fun i d k y off g => ⟨fun base stride hslot hg => ?_, fun base stride hslot hg => ?_⟩, ?_⟩
  · obtain ⟨rfl, hstride⟩ := srcSlot_eq hslot
    simp only [readPlanes, planeAt_sourcePlanes d hg, ← hstride]
    refine ⟨sourcePlane_rows .., sourcePlane_rb .., fun h => ?_, fun h => ?_⟩
    · rw [addr_sourcePlane_of_nonneg h, address_cast]
    · rw [addr_sourcePlane_of_neg h, address_cast]
  · obtain ⟨rfl, hstride⟩ := dstSlot_eq hslot
    simp only [writePlanes, planeAt_destPlanes d hg, ← hstride]
    exact ⟨rfl, rfl, address_cast _⟩
  · intro i s s' src hr h hl hrows
    have ⟨hi, hw, hargs, _⟩ := hr
    have hrev : RowsReversed (sourceGeom i s.latch) s.latch s.mem s'.mem := by
      intro k g y off hg hy ho
      have hslots : k < 3 := (List.getElem?_eq_some_iff.mp hg).1.trans_le (geom_lengths hi hw s.latch).1.2
      obtain ⟨stride, hslot, hstride⟩ := exists_srcSlot s.latch hslots
      exact hstride ▸ hrows k g _ stride y off hg hslot hy ho
    have hr' := hr.negateHeight h hl
    refine ⟨completed i s, completed i s', exec_ready hr, exec_ready hr', fun a ha => ?_⟩
    exact completed_footprint_eq hr hr' (by rw [hl]; exact writePlanes_negateHeight h i)
      (instrStores_negateHeight hargs h hl hrev) ha

end Sys2Proof.Machine
end

section
/-! SUPPORT. Pixel formats (41_pixel_formats.md): the geometry of every format and command (R172, R271, R137), the
16-bit halves as numbers (R190 to R192, R210 to R212), and that packing undoes unpacking (R214). -/

namespace Sys2Proof.Machine

/-! ### Geometry -/

@[simp] theorem cdim_zero (n : Nat) : cdim n 0 = n := by simp [cdim]

@[simp] theorem cdim_one (n : Nat) : cdim n 1 = (n + 1) / 2 := rfl

@[simp] theorem cdim_two (n : Nat) : cdim n 2 = (n + 3) / 4 := rfl

/-- The decoder's set of scalable formats is the set of formats with a byte count (rules R99, R271). -/
theorem isScalable_eq_isSome_scaleBytes (f : PixelFormat) : f.isScalable = (scaleBytes f).isSome := by
  cases f with
  | yuv g => cases g <;> rfl
  | rgb g => cases g <;> rfl
  | none | bayer _ | reserved _ => rfl

/-- The planes of the three SCALE forms (rules R137, R272). -/
theorem scale_geoms {f : PixelFormat} {n : Nat} (hn : scaleBytes f = some n) {i : Instr}
    (hi : i = .scaleNone f ∨ i = .scaleLinear f ∨ i = .scaleBilinear f) (d : Descriptor) :
    sourceGeom i d = [⟨n * imageWidth d, imageHeight d⟩]
      ∧ destGeom i d = [⟨n * (dwidthOf d).toNat, (dheightOf d).toNat⟩] := by
  rcases hi with rfl | rfl | rfl <;>
    simp [sourceGeom, destGeom, hn, scaleSourceGeom, scaleDestGeom, scaleSize]

theorem sourceGeom_rotateForm (rot : Rotation) (d : Descriptor) :
    sourceGeom (rotateForm rot) d = [⟨imageWidth d, imageHeight d⟩] := by
  cases rot <;> rfl

theorem sourceGeom_rotateUVForm (rot : Rotation) (d : Descriptor) :
    sourceGeom (rotateUVForm rot) d = [⟨2 * imageWidth d, imageHeight d⟩] := by
  cases rot <;> rfl

theorem destGeom_rotateForm (rot : Rotation) (d : Descriptor) :
    destGeom (rotateForm rot) d = [rotatedGeom rot (imageWidth d) (imageHeight d)] := by
  cases rot <;> rfl

theorem destGeom_rotateUVForm (rot : Rotation) (d : Descriptor) :
    destGeom (rotateUVForm rot) d
      = [rotatedGeom rot (imageWidth d) (imageHeight d), rotatedGeom rot (imageWidth d) (imageHeight d)] := by
  cases rot <;> rfl

/-! ### Fields and halves as numbers -/

/-- A bit field as a number: the bits below it dropped, the bits above it cut off. -/
theorem toNat_field {n : Nat} (v : BitVec n) (start len : Nat) :
    (v.extractLsb' start len).toNat = v.toNat / 2 ^ start % 2 ^ len := by
  rw [BitVec.extractLsb'_toNat, Nat.shiftRight_eq_div_pow]

theorem toNat_half (lo hi : Byte) : (half lo hi).toNat = lo.toNat + 256 * hi.toNat := by
  rw [half, toNat_append_eq]
  omega

theorem toNat_widen5 (v : BitVec 5) : (widen5 v).toNat = 8 * v.toNat + v.toNat / 4 := by
  rw [widen5, toNat_append_eq, toNat_field]
  omega

theorem toNat_widen6 (v : BitVec 6) : (widen6 v).toNat = 4 * v.toNat + v.toNat / 16 := by
  rw [widen6, toNat_append_eq, toNat_field]
  omega

theorem toNat_widen4 (v : BitVec 4) : (widen4 v).toNat = 17 * v.toNat := by
  rw [widen4, BitVec.toNat_ofNat]
  omega

theorem toNat_widen1 (v : BitVec 1) : (widen1 v).toNat = 255 * v.toNat := by
  rw [widen1, BitVec.toNat_ofNat]
  omega

theorem toNat_unpack565 (v : BitVec 16) :
    let p := unpack565 v
    let wide5 := fun n => 8 * n + n / 4
    let wide6 := fun n => 4 * n + n / 16
    (p.r.toNat, p.g.toNat, p.b.toNat, p.a.toNat)
      = (wide5 (v.toNat / 2048), wide6 (v.toNat / 32 % 64), wide5 (v.toNat % 32), 255) := by
  have hr : v.toNat / 2048 % 32 = v.toNat / 2048 := by omega
  simp [unpack565, toNat_widen5, toNat_widen6, Nat.shiftRight_eq_div_pow, hr]

theorem toNat_unpack1555 (v : BitVec 16) :
    let p := unpack1555 v
    let wide5 := fun n => 8 * n + n / 4
    (p.r.toNat, p.g.toNat, p.b.toNat, p.a.toNat)
      = (wide5 (v.toNat / 1024 % 32), wide5 (v.toNat / 32 % 32), wide5 (v.toNat % 32),
        255 * (v.toNat / 32768)) := by
  have ha : v.toNat / 32768 % 2 = v.toNat / 32768 := by omega
  simp [unpack1555, toNat_widen5, toNat_widen1, Nat.shiftRight_eq_div_pow, ha]

theorem toNat_unpack4444 (v : BitVec 16) :
    let p := unpack4444 v
    (p.r.toNat, p.g.toNat, p.b.toNat, p.a.toNat)
      = (17 * (v.toNat / 256 % 16), 17 * (v.toNat / 16 % 16), 17 * (v.toNat % 16),
        17 * (v.toNat / 4096)) := by
  have ha : v.toNat / 4096 % 16 = v.toNat / 4096 := by omega
  simp [unpack4444, toNat_widen4, Nat.shiftRight_eq_div_pow, ha]

theorem toNat_pack565 (p : Rgba) :
    (pack565 p).toNat = p.b.toNat / 8 + 32 * (p.g.toNat / 4) + 2048 * (p.r.toNat / 8) := by
  simp only [pack565, toNat_append_eq, toNat_field]
  omega

theorem toNat_pack1555 (p : Rgba) :
    (pack1555 p).toNat
      = p.b.toNat / 8 + 32 * (p.g.toNat / 8) + 1024 * (p.r.toNat / 8) + 32768 * (p.a.toNat / 128) := by
  simp only [pack1555, toNat_append_eq, toNat_field]
  omega

theorem toNat_pack4444 (p : Rgba) :
    (pack4444 p).toNat
      = p.b.toNat / 16 + 16 * (p.g.toNat / 16) + 256 * (p.r.toNat / 16) + 4096 * (p.a.toNat / 16) := by
  simp only [pack4444, toNat_append_eq, toNat_field]
  omega

theorem map_toNat_halfBytes (v : BitVec 16) : (halfBytes v).map BitVec.toNat = [v.toNat % 256, v.toNat / 256] := by
  have hlow : (v.extractLsb' 0 8).toNat = v.toNat % 256 := by rw [toNat_field]; omega
  have hhigh : (v.extractLsb' 8 8).toNat = v.toNat / 256 := by rw [toNat_field]; omega
  simp only [halfBytes, List.map_cons, List.map_nil, hlow, hhigh]

/-! ### Packing undoes unpacking (rule R214)

Widening keeps a field in the top bits, which is where packing takes it from. -/

/-- The top field of `x` is `v` when dropping the bits below it leaves `v`. -/
theorem field_eq_of_div_eq {n start len : Nat} {x : BitVec n} {v : BitVec len}
    (h : x.toNat / 2 ^ start = v.toNat) : x.extractLsb' start len = v := by
  apply BitVec.eq_of_toNat_eq
  rw [toNat_field, h, Nat.mod_eq_of_lt v.isLt]

@[simp] theorem narrow_widen5 (v : BitVec 5) : (widen5 v).extractLsb' 3 5 = v :=
  field_eq_of_div_eq (by rw [toNat_widen5]; omega)

@[simp] theorem narrow_widen6 (v : BitVec 6) : (widen6 v).extractLsb' 2 6 = v :=
  field_eq_of_div_eq (by rw [toNat_widen6]; omega)

@[simp] theorem narrow_widen4 (v : BitVec 4) : (widen4 v).extractLsb' 4 4 = v :=
  field_eq_of_div_eq (by rw [toNat_widen4]; omega)

@[simp] theorem narrow_widen1 (v : BitVec 1) : (widen1 v).extractLsb' 7 1 = v :=
  field_eq_of_div_eq (by rw [toNat_widen1]; omega)

@[simp] theorem pack565_unpack565 (v : BitVec 16) : pack565 (unpack565 v) = v := by
  simp only [pack565, unpack565, narrow_widen5, narrow_widen6]
  iterate 2 rw [BitVec.extractLsb'_append_extractLsb'_eq_extractLsb' (by rfl)]
  exact BitVec.extractLsb'_eq_self

@[simp] theorem pack1555_unpack1555 (v : BitVec 16) : pack1555 (unpack1555 v) = v := by
  simp only [pack1555, unpack1555, narrow_widen5, narrow_widen1]
  iterate 3 rw [BitVec.extractLsb'_append_extractLsb'_eq_extractLsb' (by rfl)]
  exact BitVec.extractLsb'_eq_self

@[simp] theorem pack4444_unpack4444 (v : BitVec 16) : pack4444 (unpack4444 v) = v := by
  simp only [pack4444, unpack4444, narrow_widen4]
  iterate 3 rw [BitVec.extractLsb'_append_extractLsb'_eq_extractLsb' (by rfl)]
  exact BitVec.extractLsb'_eq_self

@[simp] theorem halfBytes_half (lo hi : Byte) : halfBytes (half lo hi) = [lo, hi] := by
  rw [halfBytes, half, BitVec.extractLsb'_append_eq_right, BitVec.extractLsb'_append_eq_left]

theorem packRgb_unpackRgb (f : RgbFormat) (m : Memory) (ps : List Plane) (x y : Nat) :
    packRgb f (unpackRgb f m ps x y)
      = (List.range (rgbBytes f)).map fun n => (planeAt ps 0).byte m y (rgbBytes f * x + n) := by
  cases f with
  | argb | bgra | abgr | rgba | rgb24 | raw => rfl
  | rgb565 | argb1555 | argb4444 => simp [packRgb, unpackRgb, rgbBytes, List.range_succ]

/-- Where memory holds a packed pixel of a byte format, each channel is read back from its place in the pixel. -/
theorem unpackRgb_of_packed {f : RgbFormat} {m : Memory} {ps : List Plane} {x y : Nat} {p : Rgba}
    (hf : rgbBytes f ≠ 2)
    (h : ∀ n b, (packRgb f p)[n]? = some b → (planeAt ps 0).byte m y (rgbBytes f * x + n) = b) :
    (unpackRgb f m ps x y).r = p.r ∧ (unpackRgb f m ps x y).g = p.g ∧ (unpackRgb f m ps x y).b = p.b
      ∧ (rgbBytes f = 4 → (unpackRgb f m ps x y).a = p.a) := by
  cases f with
  | argb => exact ⟨h 2 _ rfl, h 1 _ rfl, h 0 _ rfl, fun _ => h 3 _ rfl⟩
  | bgra => exact ⟨h 1 _ rfl, h 2 _ rfl, h 3 _ rfl, fun _ => h 0 _ rfl⟩
  | abgr => exact ⟨h 0 _ rfl, h 1 _ rfl, h 2 _ rfl, fun _ => h 3 _ rfl⟩
  | rgba => exact ⟨h 3 _ rfl, h 2 _ rfl, h 1 _ rfl, fun _ => h 0 _ rfl⟩
  | rgb24 => exact ⟨h 2 _ rfl, h 1 _ rfl, h 0 _ rfl, fun h4 => absurd h4 (by decide)⟩
  | raw => exact ⟨h 0 _ rfl, h 1 _ rfl, h 2 _ rfl, fun h4 => absurd h4 (by decide)⟩
  | rgb565 | argb1555 | argb4444 => exact absurd rfl hf

/-- A 16-bit format drops the low bits of red: red 0 and red 1 are packed alike. -/
theorem packRgb_red_zero_eq_red_one {f : RgbFormat} (hf : rgbBytes f = 2) :
    packRgb f ⟨0, 0, 0, 0⟩ = packRgb f ⟨1, 0, 0, 0⟩ := by
  cases f with
  | rgb565 | argb1555 | argb4444 => decide
  | argb | bgra | abgr | rgba | rgb24 | raw => exact absurd hf (by decide)

/-! ### The obligations -/

/-- Settles O34: the parts are `packRgb_unpackRgb`, `unpackRgb_of_packed` and `packRgb_red_zero_eq_red_one`. -/
theorem packAfterUnpack : Obligations.PackAfterUnpack :=
  ⟨packRgb_unpackRgb, fun _ _ _ _ _ _ => unpackRgb_of_packed,
    fun _ hf => ⟨⟨0, 0, 0, 0⟩, ⟨1, 0, 0, 0⟩, by decide, packRgb_red_zero_eq_red_one hf⟩⟩

/-- Settles O15, by the chroma sizes rounded up (`cdim_one`, `cdim_two`) and the planes of each form. -/
theorem planeGeometryOfEachCommand : Obligations.PlaneGeometryOfEachCommand := by
  refine ⟨fun w h => ?_, ⟨rfl, ?_, ?_, fun f => ?_⟩, fun d => ?_⟩
  · refine ⟨rfl, ?_, ?_, ?_, ?_, ?_, rfl, ?_, ?_, ?_, fun _ => rfl⟩
    · simp [pixelGeom, yuvGeom, planarGeom]
    · simp [pixelGeom, yuvGeom, planarGeom]
    · simp [pixelGeom, yuvGeom, planarGeom]
    · rintro f (rfl | rfl) <;> rfl
    · rintro f (rfl | rfl) <;> rfl
    · rintro f (rfl | rfl | rfl | rfl) <;> rfl
    · rintro f (rfl | rfl) <;> rfl
    · rintro f (rfl | rfl | rfl) <;> rfl
  · rintro f (rfl | rfl) <;> rfl
  · rintro f (rfl | rfl | rfl | rfl) <;> rfl
  · rw [← isScalable_eq_isSome_scaleBytes]
    exact Bool.and_true _
  · refine ⟨fun s f cs => ⟨rfl, rfl, rfl, rfl, rfl, rfl, rfl, rfl⟩, fun b f cs => ⟨rfl, rfl, rfl, rfl⟩,
      fun f n i hn hi => scale_geoms hn hi d,
      fun r => ⟨sourceGeom_rotateForm r d, sourceGeom_rotateUVForm r d⟩, ?_, ?_⟩
    all_goals
      intro r hr
      rw [destGeom_rotateForm, destGeom_rotateUVForm]
      rcases hr with rfl | rfl <;> exact ⟨rfl, rfl⟩

/-- Settles O31: each row of the layout is the definition's. -/
theorem unpackYuvLayouts : Obligations.UnpackYuvLayouts :=
  fun _ _ _ _ => ⟨rfl, rfl, rfl, rfl, rfl, rfl, rfl, rfl, rfl⟩

/-- Settles O32: the byte formats by definition, the 16-bit formats by the fields of the half (`toNat_unpack565` and
its companions), whose number is `lo + 256 * hi` (`toNat_half`). -/
theorem unpackRgbLayouts : Obligations.UnpackRgbLayouts := by
  intro m ps x y
  refine ⟨rfl, rfl, rfl, rfl, rfl, rfl, ?_, ?_, ?_⟩
  · exact toNat_half _ _ ▸ toNat_unpack565 _
  · exact toNat_half _ _ ▸ toNat_unpack1555 _
  · exact toNat_half _ _ ▸ toNat_unpack4444 _

/-- Settles O33: the byte formats by definition, the 16-bit formats by their halves (`toNat_pack565` and its
companions), low byte first (`map_toNat_halfBytes`). -/
theorem packRgbLayouts : Obligations.PackRgbLayouts := by
  intro p
  refine ⟨rfl, rfl, rfl, rfl, rfl, rfl, ?_, ?_, ?_⟩
  · exact toNat_pack565 p ▸ map_toNat_halfBytes (pack565 p)
  · exact toNat_pack1555 p ▸ map_toNat_halfBytes (pack1555 p)
  · exact toNat_pack4444 p ▸ map_toNat_halfBytes (pack4444 p)

end Sys2Proof.Machine
end

section
/-! SUPPORT. The colour matrices in numbers (42_convert.md rules R234 to R237), and what follows from the numbers:
gray stays gray (R239), the distance from the real matrices (R238), the error of a round trip (R247). -/

namespace Sys2Proof.Machine

/-! ### One component -/

theorem toNat_clamp8 (a : Int) : ((clamp8 a).toNat : Int) = max 0 (min 255 a) := by
  unfold clamp8
  split
  · have : ((0 : Byte).toNat : Int) = 0 := rfl
    omega
  · split
    · have : ((255 : Byte).toNat : Int) = 255 := rfl
      omega
    · rw [BitVec.toNat_ofNat]
      omega

/-- The linear form of a row, before the shift. -/
def rowForm (row : Config.MatrixRow) (p q r : Byte) : Int :=
  row.a * p.toNat + row.b * q.toNat + row.c * r.toNat + row.k

theorem toNat_applyRow (row : Config.MatrixRow) (p q r : Byte) :
    ((applyRow row p q r).toNat : Int) = max 0 (min 255 (rowForm row p q r / 256)) :=
  toNat_clamp8 _

/-- Where the linear form is not negative, only the upper clamp can act. -/
theorem toNat_applyRow_of_nonneg {row : Config.MatrixRow} {p q r : Byte} (h : 0 ≤ rowForm row p q r) :
    ((applyRow row p q r).toNat : Int) = min 255 (rowForm row p q r / 256) := by
  rw [toNat_applyRow]
  omega

/-- Where the linear form lies in range, no clamp acts. -/
theorem toNat_applyRow_of_range {row : Config.MatrixRow} {p q r : Byte} (h0 : 0 ≤ rowForm row p q r)
    (h1 : rowForm row p q r < 65536) : ((applyRow row p q r).toNat : Int) = rowForm row p q r / 256 := by
  rw [toNat_applyRow_of_nonneg h0]
  omega

/-! ### The matrices as formulas (rules R234 to R237) -/

/-- The forward matrix of "601" (rule R234): no clamp acts. -/
theorem toNat_forward_bt601 (r g b : Byte) :
    let c := forward .bt601 r g b
    (c.y.toNat : Int) = (66 * (r.toNat : Int) + 129 * (g.toNat : Int) + 25 * (b.toNat : Int) + 4224) / 256
      ∧ (c.u.toNat : Int) = (-38 * (r.toNat : Int) - 74 * (g.toNat : Int) + 112 * (b.toNat : Int) + 32896) / 256
      ∧ (c.v.toNat : Int) = (112 * (r.toNat : Int) - 94 * (g.toNat : Int) - 18 * (b.toNat : Int) + 32896) / 256 := by
  have hr := r.isLt
  have hg := g.isLt
  have hb := b.isLt
  refine ⟨(toNat_applyRow_of_range ?_ ?_).trans ?_, (toNat_applyRow_of_range ?_ ?_).trans ?_,
    (toNat_applyRow_of_range ?_ ?_).trans ?_⟩ <;> simp only [rowForm, coefficientRom] <;> omega

/-- The forward matrix of "J" (rule R235): the clamp acts on the chroma components, at 256. -/
theorem toNat_forward_fullJ (r g b : Byte) :
    let c := forward .fullJ r g b
    (c.y.toNat : Int) = (77 * (r.toNat : Int) + 150 * (g.toNat : Int) + 29 * (b.toNat : Int) + 128) / 256
      ∧ (c.u.toNat : Int)
        = min 255 ((-43 * (r.toNat : Int) - 85 * (g.toNat : Int) + 128 * (b.toNat : Int) + 32896) / 256)
      ∧ (c.v.toNat : Int)
        = min 255 ((128 * (r.toNat : Int) - 107 * (g.toNat : Int) - 21 * (b.toNat : Int) + 32896) / 256) := by
  have hr := r.isLt
  have hg := g.isLt
  have hb := b.isLt
  refine ⟨(toNat_applyRow_of_range ?_ ?_).trans ?_, (toNat_applyRow_of_nonneg ?_).trans ?_,
    (toNat_applyRow_of_nonneg ?_).trans ?_⟩ <;> simp only [rowForm, coefficientRom] <;> omega

/-- Settles O26: the formulas are `toNat_forward_bt601` and `toNat_forward_fullJ`, and the ranges follow from them. -/
theorem forwardMatrixFormulas : Obligations.ForwardMatrixFormulas := by
  intro r g b
  have hr := r.isLt
  have hg := g.isLt
  have hb := b.isLt
  obtain ⟨hy, hu, hv⟩ := toNat_forward_bt601 r g b
  refine ⟨⟨hy, hu, hv⟩, ⟨⟨?_, ?_⟩, ⟨?_, ?_⟩, ?_, ?_⟩, toNat_forward_fullJ r g b⟩ <;> omega

/-- Settles O27: every component is a clamped row (`toNat_applyRow`), and the constant of the row is the unfolded
form's. -/
theorem inverseMatrixFormulas : Obligations.InverseMatrixFormulas := by
  intro y u v
  simp only [inverse, coefficientRom, toNat_applyRow, rowForm, and_true]
  refine ⟨⟨?_, ?_, ?_⟩, ?_, ?_, ?_⟩ <;> congr 3 <;> ring

/-! ### Gray (rule R239) -/

/-- The chroma coefficients of a forward row cancel on gray. -/
theorem forward_gray (cs : ColourStandard) (k : Byte) :
    (forward cs k k k).u = 128 ∧ (forward cs k k k).v = 128 := by
  have h128 : (128 : Byte).toNat = 128 := rfl
  cases cs with
  | bt601 =>
    obtain ⟨-, hu, hv⟩ := toNat_forward_bt601 k k k
    exact ⟨BitVec.eq_of_toNat_eq (by omega), BitVec.eq_of_toNat_eq (by omega)⟩
  | fullJ =>
    obtain ⟨-, hu, hv⟩ := toNat_forward_fullJ k k k
    exact ⟨BitVec.eq_of_toNat_eq (by omega), BitVec.eq_of_toNat_eq (by omega)⟩

/-- On neutral chroma the three inverse rows of "601" coincide. -/
theorem inverse_neutral_bt601 (k : Byte) :
    let g := inverse .bt601 k 128 128
    g.r = g.g ∧ g.g = g.b ∧ (g.r.toNat : Int) = max 0 (min 255 ((298 * (k.toNat : Int) - 4640) / 256)) := by
  obtain ⟨⟨hr, hg, hb, -⟩, -⟩ := inverseMatrixFormulas k 128 128
  rw [show (128 : Byte).toNat = 128 from rfl] at hr hg hb
  exact ⟨BitVec.eq_of_toNat_eq (by omega), BitVec.eq_of_toNat_eq (by omega), by omega⟩

/-- On neutral chroma the inverse rows of "J" give the luma back. -/
theorem inverse_neutral_fullJ (k : Byte) :
    let g := inverse .fullJ k 128 128
    g.r = k ∧ g.g = k ∧ g.b = k := by
  have hk := k.isLt
  obtain ⟨-, hr, hg, hb, -⟩ := inverseMatrixFormulas k 128 128
  rw [show (128 : Byte).toNat = 128 from rfl] at hr hg hb
  exact ⟨BitVec.eq_of_toNat_eq (by omega), BitVec.eq_of_toNat_eq (by omega), BitVec.eq_of_toNat_eq (by omega)⟩

/-- Settles O28. -/
theorem grayStaysGray : Obligations.GrayStaysGray :=
  fun k => ⟨fun cs => forward_gray cs k, inverse_neutral_bt601 k, inverse_neutral_fullJ k⟩

/-! ### The distance from the real matrices (rule R238) -/

/-- A row whose linear form, less its rounding term, is closer than 256 to 256 times the real value is within 1 of it. -/
theorem nearReference_applyRow {row : Config.MatrixRow} {p q r : Byte} {num : Int}
    (h : |1000000 * (rowForm row p q r - 128) - 256 * num| < 256000000) :
    NearReference num (applyRow row p q r) := by
  intro n hn
  rw [toNat_applyRow]
  generalize rowForm row p q r = x at h ⊢
  have hx := abs_lt.mp h
  have hn' := abs_le.mp (show |1000000 * n - num| ≤ 500000 by omega)
  rw [abs_le]
  omega

/-- Settles O29: the coefficients of every row are 256 times the real ones, rounded, so that `nearReference_applyRow`
applies to each of the twelve. -/
theorem matricesNearRealReference : Obligations.MatricesNearRealReference := by
  intro p q r
  have hp := p.isLt
  have hq := q.isLt
  have hr := r.isLt
  refine ⟨⟨?_, ?_, ?_⟩, ⟨?_, ?_, ?_⟩, ⟨?_, ?_, ?_⟩, ?_, ?_, ?_⟩ <;> refine nearReference_applyRow ?_ <;>
    rw [abs_lt] <;> simp only [rowForm, coefficientRom] <;> omega

/-! ### The round trip (rule R247)

An inverse row applied to the forward rows is 256 times its channel, up to the rounding of the coefficients and of the
four shifts. -/

/-- A row whose linear form lies around 256 times `n` gives a byte around `n`: the clamp moves no value away from `n`. -/
theorem abs_applyRow_sub_le {row : Config.MatrixRow} {p q r : Byte} (n : Byte) {d : Int}
    (hlo : 256 * (n.toNat - d) ≤ rowForm row p q r) (hhi : rowForm row p q r < 256 * (n.toNat + d + 1)) :
    |((applyRow row p q r).toNat : Int) - n.toNat| ≤ d := by
  have hn := n.isLt
  rw [toNat_applyRow, abs_le]
  omega

/-- The round trip of "601": the linear form of each inverse row stays around its channel. -/
theorem roundTrip_bt601 (r g b : Byte) :
    let c := forward .bt601 r g b
    let p := inverse .bt601 c.y c.u c.v
    |(p.r.toNat : Int) - r.toNat| ≤ 2 ∧ |(p.g.toNat : Int) - g.toNat| ≤ 2 ∧ |(p.b.toNat : Int) - b.toNat| ≤ 3 := by
  have hr := r.isLt
  have hg := g.isLt
  have hb := b.isLt
  obtain ⟨hy, hu, hv⟩ := toNat_forward_bt601 r g b
  refine ⟨abs_applyRow_sub_le r ?_ ?_, abs_applyRow_sub_le g ?_ ?_, abs_applyRow_sub_le b ?_ ?_⟩ <;>
    simp only [rowForm, coefficientRom] <;> omega

/-- The round trip of "J": the linear form of each inverse row stays around its channel. -/
theorem roundTrip_fullJ (r g b : Byte) :
    let c := forward .fullJ r g b
    let p := inverse .fullJ c.y c.u c.v
    |(p.r.toNat : Int) - r.toNat| ≤ 2 ∧ |(p.g.toNat : Int) - g.toNat| ≤ 1 ∧ |(p.b.toNat : Int) - b.toNat| ≤ 2 := by
  have hr := r.isLt
  have hg := g.isLt
  have hb := b.isLt
  obtain ⟨hy, hu, hv⟩ := toNat_forward_fullJ r g b
  refine ⟨abs_applyRow_sub_le r ?_ ?_, abs_applyRow_sub_le g ?_ ?_, abs_applyRow_sub_le b ?_ ?_⟩ <;>
    simp only [rowForm, coefficientRom] <;> omega

/-- Settles O30, a standard at a time. -/
theorem colourRoundTripBounds : Obligations.ColourRoundTripBounds :=
  fun r g b => ⟨roundTrip_bt601 r g b, roundTrip_fullJ r g b⟩

end Sys2Proof.Machine
end

section
/-! SUPPORT. CONVERT (42_convert.md): the block average as a mean (R244), the image that a completed command leaves in
its destination planes (R240 to R243, R245), and the copy between equal formats. -/

namespace Sys2Proof.Machine

/-! ### The block average (rule R244) -/

/-- The sum of the samples of a block, with the coordinates clamped into the image. -/
def blockSum (c : Nat → Nat → Byte) (w h hs vs cx cy : Nat) : Nat :=
  ∑ b ∈ Finset.range (2 ^ vs), ∑ a ∈ Finset.range (2 ^ hs),
    (c (min (cx * 2 ^ hs + a) (w - 1)) (min (cy * 2 ^ vs + b) (h - 1))).toNat

/-- The block average before it is put into a byte. -/
theorem blockAvg_eq_ofNat (c : Nat → Nat → Byte) (w h hs vs cx cy : Nat) :
    blockAvg c w h hs vs cx cy = BitVec.ofNat 8 (if hs + vs = 0 then blockSum c w h hs vs cx cy
      else (blockSum c w h hs vs cx cy + 2 ^ (hs + vs - 1)) / 2 ^ (hs + vs)) := by
  have hsum : ((List.range (2 ^ vs)).flatMap fun b => (List.range (2 ^ hs)).map fun a =>
      (c (min (cx * 2 ^ hs + a) (w - 1)) (min (cy * 2 ^ vs + b) (h - 1))).toNat).sum
        = blockSum c w h hs vs cx cy := by
    rw [List.flatMap, List.sum_flatten, List.map_map]
    rfl
  unfold blockAvg
  simp only [hsum, apply_ite (BitVec.ofNat 8)]

theorem blockSum_le (c : Nat → Nat → Byte) (w h hs vs cx cy : Nat) :
    blockSum c w h hs vs cx cy ≤ 2 ^ (hs + vs) * 255 := by
  have hbyte : ∀ v : Byte, v.toNat ≤ 255 := fun v => by have := v.isLt; omega
  calc blockSum c w h hs vs cx cy
      ≤ ∑ b ∈ Finset.range (2 ^ vs), ∑ a ∈ Finset.range (2 ^ hs), 255 :=
        Finset.sum_le_sum fun b _ => Finset.sum_le_sum fun a _ => hbyte _
    _ = 2 ^ (hs + vs) * 255 := by simp [pow_add]; ring

/-- The block average as a number: a sum of bytes, with half of the block's size added, stays below 256 times the
size, so nothing is cut off. -/
theorem toNat_blockAvg (c : Nat → Nat → Byte) (w h hs vs cx cy : Nat) :
    (blockAvg c w h hs vs cx cy).toNat = if hs + vs = 0 then blockSum c w h hs vs cx cy
      else (blockSum c w h hs vs cx cy + 2 ^ (hs + vs - 1)) / 2 ^ (hs + vs) := by
  have hle := blockSum_le c w h hs vs cx cy
  rw [blockAvg_eq_ofNat, BitVec.toNat_ofNat]
  refine Nat.mod_eq_of_lt ?_
  split
  case isTrue hk =>
    rw [hk] at hle
    omega
  case isFalse hk =>
    have hhalf := Nat.two_pow_pred_lt_two_pow (Nat.pos_of_ne_zero hk)
    refine Nat.div_lt_of_lt_mul ?_
    omega

/-- Settles O25. -/
theorem blockAverageIsRoundedMean : Obligations.BlockAverageIsRoundedMean := toNat_blockAvg

/-- The average of a block whose samples are all `v` is `v`. -/
theorem blockAvg_eq_of_const {c : Nat → Nat → Byte} {w h hs vs cx cy : Nat} {v : Byte}
    (hc : ∀ a < 2 ^ hs, ∀ b < 2 ^ vs, c (min (cx * 2 ^ hs + a) (w - 1)) (min (cy * 2 ^ vs + b) (h - 1)) = v) :
    blockAvg c w h hs vs cx cy = v := by
  have hsum : blockSum c w h hs vs cx cy = 2 ^ (hs + vs) * v.toNat := by
    calc blockSum c w h hs vs cx cy
        = ∑ b ∈ Finset.range (2 ^ vs), ∑ a ∈ Finset.range (2 ^ hs), v.toNat :=
          Finset.sum_congr rfl fun b hb => Finset.sum_congr rfl fun a ha => by
            rw [hc a (Finset.mem_range.mp ha) b (Finset.mem_range.mp hb)]
      _ = 2 ^ (hs + vs) * v.toNat := by simp [pow_add]; ring
  rw [blockAvg_eq_ofNat, hsum]
  split
  case isTrue hk => simp [hk]
  case isFalse hk =>
    have hhalf := Nat.two_pow_pred_lt_two_pow (Nat.pos_of_ne_zero hk)
    rw [Nat.mul_add_div (by positivity), Nat.div_eq_of_lt hhalf, Nat.add_zero, BitVec.ofNat_toNat, BitVec.setWidth_eq]

/-! ### The destination image of a completed command -/

section DestinationImage
variable {i : Instr} {s : State}

/-- `destByte_completed` for a store given by its parts. -/
theorem destByte_of_mem (hr : Ready i s) {k y off : Nat} {v : Byte}
    (hst : (⟨k, y, off, v⟩ : Store) ∈ instrStores i s (readPlanes i s.latch)) :
    destByte i s.latch (completed i s).mem k y off = v :=
  have hbyte := destByte_completed hr hst
  hbyte

/-- A command whose stores are those of an RGB-family image leaves every pixel of it packed in memory. -/
theorem holdsPixel_completed (hr : Ready i s) {df : RgbFormat} {pixel : Nat → Nat → Rgba}
    (hst : instrStores i s (readPlanes i s.latch)
      = rgbStores df (imageWidth s.latch) (imageHeight s.latch) pixel)
    {x y : Nat} (hx : x < imageWidth s.latch) (hy : y < imageHeight s.latch) :
    HoldsPixel i df s.latch (completed i s).mem x y (pixel x y) := by
  intro n b hb
  exact destByte_of_mem hr (hst ▸ mem_rgbStores.mpr ⟨x, y, n, b, hx, hy, hb, rfl⟩)

variable {df : YuvFormat} {luma : Nat → Nat → Byte} {chroma : Nat → Nat → Nat → Nat → Byte × Byte}

/-- A command whose stores are those of a YUV-family image leaves its luma in memory. -/
theorem holdsLuma_completed (hr : Ready i s)
    (hst : instrStores i s (readPlanes i s.latch)
      = yuvStores df (imageWidth s.latch) (imageHeight s.latch) luma chroma) :
    HoldsLuma i df s.latch (completed i s).mem luma := by
  intro x y hx hy
  exact destByte_of_mem hr (hst ▸ List.mem_append_left _ (mem_lumaStores.mpr ⟨x, y, hx, hy, rfl⟩))

/-- A command whose stores are those of a YUV-family image leaves its chroma in memory. -/
theorem holdsChroma_completed (hr : Ready i s)
    (hst : instrStores i s (readPlanes i s.latch)
      = yuvStores df (imageWidth s.latch) (imageHeight s.latch) luma chroma) :
    HoldsChroma i df s.latch (completed i s).mem chroma := by
  intro hs vs hsub cx cy hx hy
  constructor
  · exact destByte_of_mem hr (hst ▸ List.mem_append_right _
      (mem_chromaStores.mpr ⟨hs, vs, cx, cy, hsub, hx, hy, .inl rfl⟩))
  · exact destByte_of_mem hr (hst ▸ List.mem_append_right _
      (mem_chromaStores.mpr ⟨hs, vs, cx, cy, hsub, hx, hy, .inr rfl⟩))

end DestinationImage

/-! ### The forms (rules R240 to R243) -/

/-- Settles O20; the inverse matrix gives alpha 255. -/
theorem convertYRPixels : Obligations.ConvertYRPixels := fun _ _ _ _ hr =>
  ⟨_, completes_completed hr, fun _ _ => holdsPixel_completed hr rfl⟩

/-- Settles O21. -/
theorem convertRYLumaChroma : Obligations.ConvertRYLumaChroma := fun _ _ _ _ hr =>
  ⟨_, completes_completed hr, holdsLuma_completed hr rfl, holdsChroma_completed hr rfl⟩

/-- Settles O22. -/
theorem convertYYLumaChroma : Obligations.ConvertYYLumaChroma := fun _ _ _ hr =>
  ⟨_, completes_completed hr, holdsLuma_completed hr rfl, holdsChroma_completed hr rfl⟩

/-- Settles O23. -/
theorem convertRRPixels : Obligations.ConvertRRPixels := fun _ _ _ hr =>
  ⟨_, completes_completed hr, fun _ _ => holdsPixel_completed hr rfl⟩

/-! ### The copy between equal formats (rules R242, R243) -/

/-- The store writes the byte that the planes show at the store's own position. -/
def CopiesFrom (ps : List Plane) (m : Memory) (st : Store) : Prop :=
  st.value = (planeAt ps st.plane).byte m st.row st.off

/-- A command whose store to a position copies from the source planes leaves the source byte there. -/
theorem destByte_eq_sourceByte {i : Instr} {s t : State} (hr : Ready i s) (ht : exec i s = .next t)
    {k y off : Nat} (hp : IsPosition (writePlanes i s.latch) k y off)
    (hcopy : ∀ st ∈ instrStores i s (readPlanes i s.latch), st.off = off →
      CopiesFrom (readPlanes i s.latch) s.mem st) :
    destByte i s.latch t.mem k y off = sourceByte i s k y off := by
  rw [exec_ready hr] at ht
  cases ht
  have ⟨hi, hw, _⟩ := hr
  obtain ⟨st, hst, rfl, rfl, rfl⟩ := instrStores_cover hi hw (readPlanes i s.latch) hp
  exact (destByte_completed hr hst).trans (hcopy st hst rfl)

/-- Packing the pixels that were unpacked from the same format stores the source bytes (rule R214). -/
theorem rgbStores_copy {f : RgbFormat} {m : Memory} {ps : List Plane} {w h : Nat} {st : Store}
    (hst : st ∈ rgbStores f w h (unpackRgb f m ps)) : CopiesFrom ps m st := by
  obtain ⟨x, y, n, b, -, -, hb, rfl⟩ := mem_rgbStores.mp hst
  rw [packRgb_unpackRgb] at hb
  obtain ⟨hn, hb⟩ := List.getElem?_eq_some_iff.mp hb
  rw [List.getElem_map, List.getElem_range] at hb
  exact hb.symm

/-- Luma is unpacked from the place it is stored to. -/
theorem unpackYuv_y (f : YuvFormat) (m : Memory) (ps : List Plane) (x y : Nat) :
    (unpackYuv f m ps x y).y = (planeAt ps 0).byte m y (lumaOffset f x) := by
  cases f <;> rfl

/-- Chroma is unpacked from the place it is stored to, by replication over its block. -/
theorem unpackYuv_chroma {f : YuvFormat} {hs vs : Nat} (hsub : subsampling f = some (hs, vs)) (m : Memory)
    (ps : List Plane) (x y : Nat) :
    let u := chromaPlaceU f (x / 2 ^ hs)
    let v := chromaPlaceV f (x / 2 ^ hs)
    (unpackYuv f m ps x y).u = (planeAt ps u.1).byte m (y / 2 ^ vs) u.2
      ∧ (unpackYuv f m ps x y).v = (planeAt ps v.1).byte m (y / 2 ^ vs) v.2 := by
  cases f <;> simp only [subsampling, Option.some.injEq, Prod.mk.injEq, reduceCtorEq] at hsub <;>
    obtain ⟨rfl, rfl⟩ := hsub <;> simp [unpackYuv, chromaPlaceU, chromaPlaceV]

/-- A clamped coordinate of a block lies in the block: the clamp acts on the last block alone, within it. -/
theorem clamped_div_block {n sh c a : Nat} (hc : c < cdim n sh) (ha : a < 2 ^ sh) :
    min (c * 2 ^ sh + a) (n - 1) / 2 ^ sh = c := by
  have hpos : 0 < 2 ^ sh := by positivity
  have hn : c * 2 ^ sh < n := by
    have := (Nat.lt_div_iff_mul_lt hpos).mp hc
    omega
  refine Nat.div_eq_of_lt_le ?_ ?_
  · omega
  · rw [Nat.add_mul]
    omega

/-- The average of replicated chroma is the chroma sample. -/
theorem bypassedChroma_unpackYuv {f : YuvFormat} {hs vs : Nat} (hsub : subsampling f = some (hs, vs)) (m : Memory)
    (ps : List Plane) {w h cx cy : Nat} (hx : cx < cdim w hs) (hy : cy < cdim h vs) :
    bypassedChroma w h (unpackYuv f m ps) hs vs cx cy
      = ((planeAt ps (chromaPlaceU f cx).1).byte m cy (chromaPlaceU f cx).2,
         (planeAt ps (chromaPlaceV f cx).1).byte m cy (chromaPlaceV f cx).2) := by
  unfold bypassedChroma
  rw [Prod.mk.injEq]
  refine ⟨blockAvg_eq_of_const fun a ha b hb => ?_, blockAvg_eq_of_const fun a ha b hb => ?_⟩
  · rw [(unpackYuv_chroma hsub m ps _ _).1, clamped_div_block hx ha, clamped_div_block hy hb]
  · rw [(unpackYuv_chroma hsub m ps _ _).2, clamped_div_block hx ha, clamped_div_block hy hb]

/-- The luma positions past the last pixel of a row are the padding bytes of YUY2 and UYVY (rule R246). -/
theorem padding_of_le {f : YuvFormat} {w x : Nat} (hx : x < lumaWidth f w) (hw : w ≤ x) :
    (f = .yuy2 ∧ w % 2 = 1 ∧ lumaOffset f x = 2 * w)
      ∨ (f = .uyvy ∧ w % 2 = 1 ∧ lumaOffset f x = 2 * w + 1) := by
  cases f with
  | yuy2 =>
    simp only [lumaWidth, cdim_one] at hx
    exact .inl ⟨rfl, by omega, by simp only [lumaOffset]; omega⟩
  | uyvy =>
    simp only [lumaWidth, cdim_one] at hx
    exact .inr ⟨rfl, by omega, by simp only [lumaOffset]; omega⟩
  | i420 | i422 | i444 | i411 | nv12 | nv21 | i400 => exact absurd hx (Nat.not_lt.mpr hw)

/-- Storing the pixels that were unpacked from the same YUV format stores the source bytes, but for the padding. -/
theorem yuvStores_copy {f : YuvFormat} {m : Memory} {ps : List Plane} {w h : Nat} {st : Store}
    (hst : st ∈ yuvStores f w h (fun x y => (unpackYuv f m ps x y).y) (bypassedChroma w h (unpackYuv f m ps)))
    (hyuy2 : ¬ (f = .yuy2 ∧ w % 2 = 1 ∧ st.off = 2 * w))
    (huyvy : ¬ (f = .uyvy ∧ w % 2 = 1 ∧ st.off = 2 * w + 1)) : CopiesFrom ps m st := by
  rcases List.mem_append.mp hst with hl | hc
  · obtain ⟨x, y, hx, -, rfl⟩ := mem_lumaStores.mp hl
    have hxw : x < w := by
      by_contra hle
      exact (padding_of_le hx (Nat.le_of_not_lt hle)).elim hyuy2 huyvy
    have hmin : min x (w - 1) = x := by omega
    simp only [CopiesFrom, unpackYuv_y, hmin]
  · obtain ⟨hs, vs, cx, cy, hsub, hx, hy, rfl | rfl⟩ := mem_chromaStores.mp hc <;>
      simp only [CopiesFrom, bypassedChroma_unpackYuv hsub m ps hx hy]

/-- Settles O24: the stores of both forms copy (`rgbStores_copy`, `yuvStores_copy`). -/
theorem sameFormatConvertCopies : Obligations.SameFormatConvertCopies := by
  constructor
  · intro f s t i hr ht k y off hp
    exact destByte_eq_sourceByte hr ht hp fun _ hst _ => rgbStores_copy hst
  · rintro f s t i w hr ht k y off hp hyuy2 huyvy
    refine destByte_eq_sourceByte hr ht hp ?_
    rintro st hst rfl
    exact yuvStores_copy hst hyuy2 huyvy

end Sys2Proof.Machine
end

section
/-! SUPPORT. SCALE (43_scale.md): the positions (R273, R274), the blend (R275), the box kernels (R276) and the path
(R277) as numbers, and the image that a completed command leaves (R280 to R282). -/

namespace Sys2Proof.Machine

/-! ### Positions and weights (rules R273, R274) -/

theorem scaleWeight_lt (step j : Nat) : scaleWeight step j < 256 := Nat.mod_lt _ (by decide)

/-- The step is rounded down, so a position is never past the ideal one. -/
theorem position_le_ideal (src dst j : Nat) : j * scaleStep src dst * dst ≤ j * src * 65536 := by
  rw [mul_assoc, mul_assoc]
  exact Nat.mul_le_mul_left j (Nat.div_mul_le_self _ _)

/-- The step loses less than one unit of the fraction, so position `j` loses less than `j` of them. -/
theorem ideal_lt_position_add {src dst j : Nat} (hdst : 0 < dst) (hj : 0 < j) :
    j * src * 65536 < (j * scaleStep src dst + j) * dst := by
  have hstep : src * 65536 < (scaleStep src dst + 1) * dst :=
    (Nat.div_lt_iff_lt_mul hdst).mp (Nat.lt_succ_self _)
  calc j * src * 65536 = j * (src * 65536) := mul_assoc ..
    _ < j * ((scaleStep src dst + 1) * dst) := Nat.mul_lt_mul_of_pos_left hstep hj
    _ = (j * scaleStep src dst + j) * dst := by ring

/-- Settles O38. -/
theorem scalePositionsInside : Obligations.ScalePositionsInside := fun src dst j hsrc hj =>
  ⟨Nat.le_sub_one_of_lt (scaleIndex_lt hsrc hj), Nat.le_sub_one_of_lt (scaleNext_lt hsrc),
    Nat.le_of_lt_succ (scaleWeight_lt _ _), position_le_ideal src dst j,
    ideal_lt_position_add (Nat.zero_lt_of_lt hj)⟩

/-! ### The blend (rule R275) -/

/-- The two weights of a blend add up to 256. -/
theorem mul_256_eq_weighted (m : Nat) {f : Nat} (hf : f ≤ 256) : m * 256 = m * (256 - f) + m * f := by
  rw [← Nat.mul_add, Nat.sub_add_cancel hf]

theorem mul_256_le_weighted {m a b f : Nat} (hf : f ≤ 256) (ha : m ≤ a) (hb : m ≤ b) :
    m * 256 ≤ a * (256 - f) + b * f := by
  rw [mul_256_eq_weighted m hf]
  gcongr

theorem weighted_le_mul_256 {m a b f : Nat} (hf : f ≤ 256) (ha : a ≤ m) (hb : b ≤ m) :
    a * (256 - f) + b * f ≤ m * 256 := by
  rw [mul_256_eq_weighted m hf]
  gcongr

/-- The blend as a number: the weighted sum of two bytes is at most 255 * 256, so nothing is cut off. -/
theorem toNat_blend (a b : Byte) {f : Nat} (hf : f ≤ 256) :
    (blend a b f).toNat = (a.toNat * (256 - f) + b.toNat * f) / 256 := by
  have hle := weighted_le_mul_256 (m := 255) hf (Nat.le_of_lt_succ a.isLt) (Nat.le_of_lt_succ b.isLt)
  refine (BitVec.toNat_ofNat _ _).trans (Nat.mod_eq_of_lt (Nat.div_lt_of_lt_mul ?_))
  exact Nat.lt_of_le_of_lt hle (by decide)

theorem min_le_blend (a b : Byte) {f : Nat} (hf : f ≤ 256) : min a.toNat b.toNat ≤ (blend a b f).toNat := by
  rw [toNat_blend a b hf, Nat.le_div_iff_mul_le (by decide)]
  exact mul_256_le_weighted hf (Nat.min_le_left _ _) (Nat.min_le_right _ _)

theorem blend_le_max (a b : Byte) {f : Nat} (hf : f ≤ 256) : (blend a b f).toNat ≤ max a.toNat b.toNat := by
  rw [toNat_blend a b hf]
  exact Nat.div_le_of_le_mul (mul_comm 256 _ ▸
    weighted_le_mul_256 hf (Nat.le_max_left _ _) (Nat.le_max_right _ _))

theorem blend_weight_zero (a b : Byte) : blend a b 0 = a := by
  apply BitVec.eq_of_toNat_eq
  rw [toNat_blend a b (Nat.zero_le _)]
  omega

theorem blend_self (a : Byte) {f : Nat} (hf : f ≤ 256) : blend a a f = a := by
  apply BitVec.eq_of_toNat_eq
  have hlow := min_le_blend a a hf
  have hhigh := blend_le_max a a hf
  omega

/-- Settles O39. -/
theorem blendBetween : Obligations.BlendBetween := by
  intro a b f hf
  have hf' : f ≤ 256 := Nat.le_succ_of_le hf
  refine ⟨toNat_blend a b hf', min_le_blend a b hf', blend_le_max a b hf', ?_⟩
  rintro (rfl | rfl)
  · exact blend_weight_zero a b
  · exact blend_self a hf'

/-! ### The box kernels (rule R276) -/

theorem toNat_box2 (sample : Nat → Nat → Nat → Byte) (j i c : Nat) :
    (box2 sample j i c).toNat = ((sample (2 * j) (2 * i) c).toNat + (sample (2 * j + 1) (2 * i) c).toNat
      + (sample (2 * j) (2 * i + 1) c).toNat + (sample (2 * j + 1) (2 * i + 1) c).toNat + 2) / 4 := by
  refine (BitVec.toNat_ofNat _ _).trans (Nat.mod_eq_of_lt ?_)
  omega

theorem toNat_box4 (sample : Nat → Nat → Nat → Byte) (j i c : Nat) :
    (box4 sample j i c).toNat
      = ((∑ a ∈ Finset.range 4, ∑ b ∈ Finset.range 4, (sample (4 * j + a) (4 * i + b) c).toNat) + 8) / 16 := by
  have hle : (∑ a ∈ Finset.range 4, ∑ b ∈ Finset.range 4, (sample (4 * j + a) (4 * i + b) c).toNat)
      ≤ ∑ a ∈ Finset.range 4, ∑ b ∈ Finset.range 4, 255 :=
    Finset.sum_le_sum fun a _ => Finset.sum_le_sum fun b _ => Nat.le_of_lt_succ (BitVec.isLt _)
  have hterms : ((List.range 4).flatMap fun b => (List.range 4).map fun a =>
        (sample (4 * j + a) (4 * i + b) c).toNat).sum
      = ∑ a ∈ Finset.range 4, ∑ b ∈ Finset.range 4, (sample (4 * j + a) (4 * i + b) c).toNat := by
    rw [List.flatMap, List.sum_flatten, List.map_map, Finset.sum_comm]
    rfl
  simp only [Finset.sum_const, Finset.card_range, smul_eq_mul] at hle
  simp only [box4, hterms]
  refine (BitVec.toNat_ofNat _ _).trans (Nat.mod_eq_of_lt ?_)
  omega

/-! ### The generic path (rules R281, R282) -/

/-- The vertical blend of column `x`, the first blend of SCALE.BILINEAR. -/
def columnBlend (z : ScaleSize) (sample : Nat → Nat → Nat → Byte) (i c x : Nat) : Byte :=
  let yi := scaleIndex (scaleStep z.sh z.dh) i
  blend (sample x yi c) (sample x (scaleNext yi z.sh) c) (scaleWeight (scaleStep z.sh z.dh) i)

/-- The horizontal blend along a row, the last blend of both filtering forms. -/
def rowBlend (z : ScaleSize) (row : Nat → Byte) (j : Nat) : Byte :=
  let xi := scaleIndex (scaleStep z.sw z.dw) j
  blend (row xi) (row (scaleNext xi z.sw)) (scaleWeight (scaleStep z.sw z.dw) j)

theorem toNat_columnBlend (z : ScaleSize) (sample : Nat → Nat → Nat → Byte) (i c x : Nat) :
    let y := i * (z.sh * 65536 / z.dh)
    (columnBlend z sample i c x).toNat = ((sample x (y / 65536) c).toNat * (256 - y / 256 % 256)
      + (sample x (min (y / 65536 + 1) (z.sh - 1)) c).toNat * (y / 256 % 256)) / 256 :=
  toNat_blend _ _ (scaleWeight_lt _ _).le

theorem toNat_rowBlend (z : ScaleSize) (row : Nat → Byte) (j : Nat) :
    let x := j * (z.sw * 65536 / z.dw)
    (rowBlend z row j).toNat = ((row (x / 65536)).toNat * (256 - x / 256 % 256)
      + (row (min (x / 65536 + 1) (z.sw - 1))).toNat * (x / 256 % 256)) / 256 :=
  toNat_blend _ _ (scaleWeight_lt _ _).le

/-! ### The path (rule R277) -/

/-- The value of a filtering command: a box average at the exact ratios, else the value of the generic path. -/
def pathSample (z : ScaleSize) (sample : Nat → Nat → Nat → Byte) (generic : Byte) (j i c : Nat) : Byte :=
  match scalePath z with
  | .box2 => box2 sample j i c
  | .box4 => box4 sample j i c
  | .generic => generic

theorem linearSample_eq_pathSample (z : ScaleSize) (sample : Nat → Nat → Nat → Byte) (j i c : Nat) :
    linearSample z sample j i c = pathSample z sample
      (rowBlend z (fun x => sample x (scaleIndex (scaleStep z.sh z.dh) i) c) j) j i c := by
  unfold linearSample pathSample
  cases scalePath z <;> rfl

theorem bilinearSample_eq_pathSample (z : ScaleSize) (sample : Nat → Nat → Nat → Byte) (j i c : Nat) :
    bilinearSample z sample j i c
      = pathSample z sample (rowBlend z (columnBlend z sample i c) j) j i c := by
  unfold bilinearSample pathSample
  cases scalePath z <;> rfl

theorem pathSample_eq_ite (z : ScaleSize) (sample : Nat → Nat → Nat → Byte) (generic : Byte) (j i c : Nat) :
    pathSample z sample generic j i c
      = if z.sw = 2 * z.dw ∧ z.sh = 2 * z.dh then box2 sample j i c
        else if z.sw = 4 * z.dw ∧ z.sh = 4 * z.dh then box4 sample j i c
        else generic := by
  unfold pathSample scalePath
  split_ifs <;> rfl

/-- The value of a filtering command in numbers, on each of the three paths. -/
theorem toNat_pathSample (z : ScaleSize) (sample : Nat → Nat → Nat → Byte) {generic : Byte} {v : Nat}
    (hv : generic.toNat = v) (j i c : Nat) :
    let S := fun (x y : Nat) => (sample x y c).toNat
    let out := (pathSample z sample generic j i c).toNat
    if z.sw = 2 * z.dw ∧ z.sh = 2 * z.dh then
      out = (S (2 * j) (2 * i) + S (2 * j + 1) (2 * i) + S (2 * j) (2 * i + 1)
        + S (2 * j + 1) (2 * i + 1) + 2) / 4
    else if z.sw = 4 * z.dw ∧ z.sh = 4 * z.dh then
      out = ((∑ a ∈ Finset.range 4, ∑ b ∈ Finset.range 4, S (4 * j + a) (4 * i + b)) + 8) / 16
    else out = v := by
  dsimp only
  rw [pathSample_eq_ite]
  split_ifs
  · exact toNat_box2 sample j i c
  · exact toNat_box4 sample j i c
  · exact hv

/-! ### The destination image of a completed command (rule R272) -/

/-- The stores of the command `e` are those of the filter, over pixels of `n` bytes. -/
def StoresFiltered (e : Instr) (n : Nat) (s : State)
    (filter : ScaleSize → (Nat → Nat → Nat → Byte) → Nat → Nat → Nat → Byte) : Prop :=
  instrStores e s (readPlanes e s.latch) = scaleStores n (scaleSize s.latch)
    (filter (scaleSize s.latch) fun x y c => sourceByte e s 0 y (n * x + c))

section DestinationImage
variable {f : PixelFormat} {n : Nat} {s : State}

theorem storesFiltered_none (hn : scaleBytes f = some n) : StoresFiltered (.scaleNone f) n s pointSample := by
  simp only [StoresFiltered, instrStores, hn, Option.getD_some]
  rfl

theorem storesFiltered_linear (hn : scaleBytes f = some n) :
    StoresFiltered (.scaleLinear f) n s linearSample := by
  simp only [StoresFiltered, instrStores, hn, Option.getD_some]
  rfl

theorem storesFiltered_bilinear (hn : scaleBytes f = some n) :
    StoresFiltered (.scaleBilinear f) n s bilinearSample := by
  simp only [StoresFiltered, instrStores, hn, Option.getD_some]
  rfl

variable {e : Instr} {filter : ScaleSize → (Nat → Nat → Nat → Byte) → Nat → Nat → Nat → Byte}

/-- A completed command leaves the filter's value at every byte of every destination pixel. -/
theorem destByte_of_storesFiltered (hr : Ready e s) (hst : StoresFiltered e n s filter) {i j c : Nat}
    (hi : i < (scaleSize s.latch).dh) (hj : j < (scaleSize s.latch).dw) (hc : c < n) :
    destByte e s.latch (completed e s).mem 0 i (n * j + c)
      = filter (scaleSize s.latch) (fun x y c => sourceByte e s 0 y (n * x + c)) j i c :=
  destByte_of_mem hr (hst ▸ mem_scaleStores.mpr ⟨i, j, c, hi, hj, hc, rfl⟩)

end DestinationImage

/-! ### The forms (rules R280 to R282) -/

/-- Settles O35. -/
theorem scaleNonePointSamples : Obligations.ScaleNonePointSamples := fun _ _ _ hn hr =>
  ⟨_, completes_completed hr, fun _ _ _ => destByte_of_storesFiltered hr (storesFiltered_none hn)⟩

/-- Settles O36: off the exact ratios the value is a blend along the point-sampled row. -/
theorem scaleLinearBlendsRows : Obligations.ScaleLinearBlendsRows := by
  intro f n s e z hn hr
  refine ⟨_, completes_completed hr, fun i j c hi hj hc => ?_⟩
  dsimp only
  rw [destByte_of_storesFiltered hr (storesFiltered_linear hn) hi hj hc, linearSample_eq_pathSample]
  exact toNat_pathSample z _ (toNat_rowBlend z _ j) j i c

/-- Settles O37: off the exact ratios the value is a blend of two blended columns. -/
theorem scaleBilinearBlendsColumnsThenRows : Obligations.ScaleBilinearBlendsColumnsThenRows := by
  intro f n s e z hn hr
  refine ⟨_, completes_completed hr, fun i j c hi hj hc => ?_⟩
  dsimp only
  rw [destByte_of_storesFiltered hr (storesFiltered_bilinear hn) hi hj hc, bilinearSample_eq_pathSample]
  refine toNat_pathSample z _ ?_ j i c
  rw [toNat_rowBlend, toNat_columnBlend, toNat_columnBlend]

/-! ### Equal sizes (rules R280 to R282, corner cases) -/

theorem scaleStep_self {size : Nat} (h : 0 < size) : scaleStep size size = 65536 :=
  Nat.mul_div_cancel_left _ h

theorem scaleIndex_self {size : Nat} (h : 0 < size) (j : Nat) : scaleIndex (scaleStep size size) j = j := by
  rw [scaleStep_self h]
  exact Nat.mul_div_cancel j (by decide)

theorem scaleWeight_self {size : Nat} (h : 0 < size) (j : Nat) : scaleWeight (scaleStep size size) j = 0 := by
  rw [scaleStep_self h]
  change j * 65536 / 256 % 256 = 0
  omega

/-- With equal sizes the filter gives every byte of the source its own value. -/
def IdentityAtEqualSizes (filter : ScaleSize → (Nat → Nat → Nat → Byte) → Nat → Nat → Nat → Byte) : Prop :=
  ∀ (z : ScaleSize) (sample : Nat → Nat → Nat → Byte), z.dw = z.sw → z.dh = z.sh →
    ∀ j < z.sw, ∀ i < z.sh, ∀ c, filter z sample j i c = sample j i c

section EqualSizes
variable {z : ScaleSize} {j i : Nat}

/-- An image with a pixel is not twice or four times its own width, so the path is generic. -/
theorem pathSample_of_equal_widths (hw : z.dw = z.sw) (hj : j < z.sw) (sample : Nat → Nat → Nat → Byte)
    (generic : Byte) (c : Nat) : pathSample z sample generic j i c = generic := by
  rw [pathSample_eq_ite, if_neg (by omega), if_neg (by omega)]

theorem rowBlend_of_equal_widths (hw : z.dw = z.sw) (hj : j < z.sw) (row : Nat → Byte) :
    rowBlend z row j = row j := by
  have hpos := Nat.zero_lt_of_lt hj
  rw [rowBlend, hw, scaleIndex_self hpos, scaleWeight_self hpos, blend_weight_zero]

theorem columnBlend_of_equal_heights (hh : z.dh = z.sh) (hi : i < z.sh) (sample : Nat → Nat → Nat → Byte)
    (c x : Nat) : columnBlend z sample i c x = sample x i c := by
  have hpos := Nat.zero_lt_of_lt hi
  rw [columnBlend, hh, scaleIndex_self hpos, scaleWeight_self hpos, blend_weight_zero]

theorem pointSample_identity : IdentityAtEqualSizes pointSample := by
  intro z sample hw hh j hj i hi c
  rw [pointSample, hw, hh, scaleIndex_self (Nat.zero_lt_of_lt hj), scaleIndex_self (Nat.zero_lt_of_lt hi)]

theorem linearSample_identity : IdentityAtEqualSizes linearSample := by
  intro z sample hw hh j hj i hi c
  rw [linearSample_eq_pathSample, pathSample_of_equal_widths hw hj, rowBlend_of_equal_widths hw hj, hh,
    scaleIndex_self (Nat.zero_lt_of_lt hi)]

theorem bilinearSample_identity : IdentityAtEqualSizes bilinearSample := by
  intro z sample hw hh j hj i hi c
  rw [bilinearSample_eq_pathSample, pathSample_of_equal_widths hw hj, rowBlend_of_equal_widths hw hj,
    columnBlend_of_equal_heights hh hi]

end EqualSizes

/-- Between equal sizes a completed command whose filter is the identity leaves the source image: a byte offset is
that of byte `off % n` of pixel `off / n`. -/
theorem destByte_eq_sourceByte_of_identity {e : Instr} {n : Nat} {s t : State}
    {filter : ScaleSize → (Nat → Nat → Nat → Byte) → Nat → Nat → Nat → Byte} (hid : IdentityAtEqualSizes filter)
    (hst : StoresFiltered e n s filter) (hr : Ready e s) (hw : (scaleSize s.latch).dw = (scaleSize s.latch).sw)
    (hh : (scaleSize s.latch).dh = (scaleSize s.latch).sh) (ht : exec e s = .next t) {y off : Nat}
    (hy : y < (scaleSize s.latch).sh) (hoff : off < n * (scaleSize s.latch).sw) :
    destByte e s.latch t.mem 0 y off = sourceByte e s 0 y off := by
  rw [exec_ready hr] at ht
  cases ht
  have hn : 0 < n := Nat.pos_of_ne_zero fun h => by simp [h] at hoff
  have hx : off / n < (scaleSize s.latch).sw := Nat.div_lt_of_lt_mul hoff
  have hbyte := destByte_of_storesFiltered hr hst (hh ▸ hy) (hw ▸ hx) (Nat.mod_lt off hn)
  rwa [hid _ _ hw hh _ hx _ hy, Nat.div_add_mod] at hbyte

/-- Settles O40. -/
theorem scaleIdentity : Obligations.ScaleIdentity := by
  rintro e f n s t (rfl | rfl | rfl) hn hr hw hh ht y off hy hoff
  · exact destByte_eq_sourceByte_of_identity pointSample_identity (storesFiltered_none hn) hr hw hh ht hy hoff
  · exact destByte_eq_sourceByte_of_identity linearSample_identity (storesFiltered_linear hn) hr hw hh ht hy hoff
  · exact destByte_eq_sourceByte_of_identity bilinearSample_identity (storesFiltered_bilinear hn) hr hw hh ht hy hoff

end Sys2Proof.Machine
end

section
/-! SUPPORT. ROTATE and ROTATE_UV (44_rotate.md): the placement map of the inverse angle undoes the placement map
(R303), where a completed command leaves each source byte (R310 to R313, R320 to R323), and the chain of two
commands (R324). -/

namespace Sys2Proof.Machine

/-! ### The placement map and the inverse angle (rules R303, R324) -/

@[simp] theorem inverseAngle_inverseAngle (rot : Rotation) : inverseAngle (inverseAngle rot) = rot := by
  cases rot <;> rfl

/-- Turned back, the destination plane has the size of the source. -/
@[simp] theorem rotatedGeom_inverseAngle (rot : Rotation) (w h : Nat) :
    rotatedGeom (inverseAngle rot) (rotatedGeom rot w h).rb (rotatedGeom rot w h).rows = ⟨w, h⟩ := by
  cases rot <;> rfl

/-- The inverse angle takes the place of a source position back to the position. -/
theorem place_inverseAngle_place (rot : Rotation) {w h x y : Nat} (hx : x < w) (hy : y < h) :
    place (inverseAngle rot) (rotatedGeom rot w h).rb (rotatedGeom rot w h).rows
      (place rot w h x y).1 (place rot w h x y).2 = (x, y) := by
  have hreflectx : w - 1 - (w - 1 - x) = x := Nat.sub_sub_self (Nat.le_sub_one_of_lt hx)
  have hreflecty : h - 1 - (h - 1 - y) = y := Nat.sub_sub_self (Nat.le_sub_one_of_lt hy)
  cases rot <;> simp only [inverseAngle, rotatedGeom, place, hreflectx, hreflecty]

section Placement
variable {rot : Rotation} {w h c r : Nat}

/-- The inverse angle takes a destination position into the source plane. -/
theorem place_inverseAngle_lt (hc : c < (rotatedGeom rot w h).rb) (hr : r < (rotatedGeom rot w h).rows) :
    (place (inverseAngle rot) (rotatedGeom rot w h).rb (rotatedGeom rot w h).rows c r).1 < w
      ∧ (place (inverseAngle rot) (rotatedGeom rot w h).rb (rotatedGeom rot w h).rows c r).2 < h := by
  have hlt := place_lt (inverseAngle rot) hc hr
  rw [rotatedGeom_inverseAngle] at hlt
  exact hlt.symm

/-- The placement map takes back what the inverse angle took from the destination. -/
theorem place_place_inverseAngle (hc : c < (rotatedGeom rot w h).rb) (hr : r < (rotatedGeom rot w h).rows) :
    place rot w h
      (place (inverseAngle rot) (rotatedGeom rot w h).rb (rotatedGeom rot w h).rows c r).1
      (place (inverseAngle rot) (rotatedGeom rot w h).rb (rotatedGeom rot w h).rows c r).2 = (c, r) := by
  have hback := place_inverseAngle_place (inverseAngle rot) hc hr
  rwa [rotatedGeom_inverseAngle, inverseAngle_inverseAngle] at hback

end Placement

/-- Settles O18: the inverse of the table is the placement map of the inverse angle over the destination plane. -/
theorem placementIsBijection : Obligations.PlacementIsBijection := by
  intro rot w h
  refine ⟨fun x y hx hy => (place_lt rot hx hy).symm, fun c r hc hr => ?_⟩
  intro p
  have hp : p = place (inverseAngle rot) (rotatedGeom rot w h).rb (rotatedGeom rot w h).rows c r := by
    cases rot <;> rfl
  rw [hp]
  obtain ⟨hx, hy⟩ := place_inverseAngle_lt hc hr
  refine ⟨⟨hx, hy, place_place_inverseAngle hc hr⟩, fun x y hx hy he => ?_⟩
  rw [← place_inverseAngle_place rot hx hy, he]

/-! ### What a completed rotation leaves (rules R310 to R313, R320 to R323) -/

theorem instrStores_rotateForm (rot : Rotation) (s : State) :
    instrStores (rotateForm rot) s (readPlanes (rotateForm rot) s.latch)
      = rotateStores rot (imageWidth s.latch) (imageHeight s.latch)
          fun x y => sourceByte (rotateForm rot) s 0 y x := by
  cases rot <;> rfl

theorem instrStores_rotateUVForm (rot : Rotation) (s : State) :
    instrStores (rotateUVForm rot) s (readPlanes (rotateUVForm rot) s.latch)
      = rotateUVStores rot (imageWidth s.latch) (imageHeight s.latch)
          fun x y e => sourceByte (rotateUVForm rot) s 0 y (2 * x + e) := by
  cases rot <;> rfl

section CompletedRotation
variable {rot : Rotation} {s : State} {x y c r : Nat}

/-- A completed ROTATE leaves each source byte at its place. -/
theorem destByte_rotate (hready : Ready (rotateForm rot) s) (hx : x < imageWidth s.latch)
    (hy : y < imageHeight s.latch) (hplace : place rot (imageWidth s.latch) (imageHeight s.latch) x y = (c, r)) :
    destByte (rotateForm rot) s.latch (completed (rotateForm rot) s).mem 0 r c
      = sourceByte (rotateForm rot) s 0 y x := by
  refine destByte_of_mem hready ?_
  rw [instrStores_rotateForm]
  exact mem_rotateStores.mpr ⟨x, y, hx, hy, by rw [hplace]⟩

/-- A completed ROTATE_UV leaves byte `e` of each source element in slot `e` at the place of the element. -/
theorem destByte_rotateUV (hready : Ready (rotateUVForm rot) s) {e : Nat} (hx : x < imageWidth s.latch)
    (hy : y < imageHeight s.latch) (he : e < 2)
    (hplace : place rot (imageWidth s.latch) (imageHeight s.latch) x y = (c, r)) :
    destByte (rotateUVForm rot) s.latch (completed (rotateUVForm rot) s).mem e r c
      = sourceByte (rotateUVForm rot) s 0 y (2 * x + e) := by
  refine destByte_of_mem hready ?_
  rw [instrStores_rotateUVForm]
  exact mem_rotateUVStores.mpr ⟨x, y, e, hx, hy, he, by rw [hplace]⟩

end CompletedRotation

/-- Settles O16: the four cases of the statement are those of the placement map. -/
theorem rotateMovesEveryByte : Obligations.RotateMovesEveryByte := by
  intro rot s hr
  refine ⟨_, completes_completed hr, fun x y hx hy => ?_⟩
  cases rot <;> exact destByte_rotate hr hx hy rfl

/-- Settles O17: the four cases of the statement are those of the placement map. -/
theorem rotateUVSplitsAndMoves : Obligations.RotateUVSplitsAndMoves := by
  intro rot s hr
  refine ⟨_, completes_completed hr, fun x y e hx hy he => ?_⟩
  cases rot <;> exact destByte_rotateUV hr hx hy he rfl

/-! ### A rotation and the inverse rotation (rule R324) -/

/-- A command whose upright source plane is the first destination plane of another command reads there, in any memory
that holds the other's result, the bytes that the other left. -/
theorem sourceByte_eq_destByte {i j : Instr} {s s' : State} {m : Memory} {g : Geom}
    (hdst : (destGeom i s.latch)[0]? = some g) (hsrc : (sourceGeom j s'.latch)[0]? = some g)
    (hheight : 0 ≤ heightOf s'.latch) (haddr : s'.latch.src0Addr = s.latch.dst0Addr)
    (hstride : s'.latch.src0Stride = s.latch.dst0Stride)
    (hmem : ∀ a, InFootprint (writePlanes i s.latch) a → s'.mem.load a = m.load a)
    {y off : Nat} (hy : y < g.rows) (ho : off < g.rb) :
    sourceByte j s' 0 y off = destByte i s.latch m 0 y off := by
  have hsame : (planeAt (readPlanes j s'.latch) 0).addr y off = (planeAt (writePlanes i s.latch) 0).addr y off := by
    rw [readPlanes, writePlanes, planeAt_sourcePlanes _ hsrc, planeAt_destPlanes _ hdst,
      addr_sourcePlane_of_nonneg hheight, srcAddr, srcStride, haddr, hstride]
    rfl
  have hp : IsPosition (writePlanes i s.latch) 0 y off := isPosition_destPlanes.mpr ⟨g, hdst, hy, ho⟩
  rw [sourceByte, destByte, Plane.byte, Plane.byte, hsame]
  exact hmem _ ⟨0, y, off, hp, rfl⟩

/-- Settles O19: the second command reads at the place of `(x, y)` the byte that the first one left there, and the
inverse angle takes the place back to `(x, y)`. -/
theorem rotationThenInverseRestores : Obligations.RotationThenInverseRestores := by
  intro rot s t s' u hr ht hr' hwidth hheight haddr hstride hmem hu x y hx hy
  rw [exec_ready hr] at ht
  rw [exec_ready hr'] at hu
  cases ht
  cases hu
  obtain ⟨hr_lt, hc_lt⟩ := place_lt rot hx hy
  have hback := place_inverseAngle_place rot hx hy
  rcases hplace : place rot (imageWidth s.latch) (imageHeight s.latch) x y with ⟨c, r⟩
  rw [hplace] at hr_lt hc_lt hback
  have hdst := destGeom_rotateForm rot s.latch
  have hsrc := sourceGeom_rotateForm (inverseAngle rot) s'.latch
  have hw : imageWidth s'.latch = _ := congrArg Int.toNat hwidth
  have hh : imageHeight s'.latch = _ := congrArg Int.natAbs hheight
  rw [Int.toNat_natCast] at hw
  rw [Int.natAbs_natCast] at hh
  calc destByte (rotateForm (inverseAngle rot)) s'.latch (completed (rotateForm (inverseAngle rot)) s').mem 0 y x
      = sourceByte (rotateForm (inverseAngle rot)) s' 0 r c :=
        destByte_rotate hr' (hw ▸ hc_lt) (hh ▸ hr_lt) (by rw [hw, hh]; exact hback)
    _ = destByte (rotateForm rot) s.latch (completed (rotateForm rot) s).mem 0 r c :=
        sourceByte_eq_destByte (by rw [hdst]; rfl) (by rw [hsrc, hw, hh]; rfl)
          ((Int.natCast_nonneg _).trans_eq hheight.symm) haddr hstride hmem hr_lt hc_lt
    _ = sourceByte (rotateForm rot) s 0 y x := destByte_rotate hr hx hy hplace

end Sys2Proof.Machine
end

section
/-! SUPPORT. DEMOSAIC (45_demosaic.md): the colour map by parities (R331, R332), the mean over the neighbours inside the
image (R333), the colour of each role (R334 to R336), and the image that a completed command leaves (R340, R341). -/

namespace Sys2Proof.Machine

/-! ### The colour map (rules R331, R332) -/

/-- The colour of a sample depends on the parities of its position alone. -/
theorem sampleRole_of_parities (f : BayerFormat) {x y a b : Nat} (hx : x % 2 = a) (hy : y % 2 = b) :
    sampleRole f x y = sampleRole f a b := by
  subst hx hy
  simp only [sampleRole, Nat.mod_mod]

/-- A sample other than green has green beside it, and the third colour across the corner: a fact about the four
positions of a block. -/
theorem sampleRole_neighbours {f : BayerFormat} {x y : Nat} (h : sampleRole f x y ≠ .green) :
    sampleRole f (x + 1) y = .green ∧ sampleRole f x (y + 1) = .green
      ∧ sampleRole f (x + 1) (y + 1) ≠ .green ∧ sampleRole f (x + 1) (y + 1) ≠ sampleRole f x y := by
  have hblock : ∀ a < 2, ∀ b < 2, sampleRole f a b ≠ .green →
      sampleRole f (1 - a) b = .green ∧ sampleRole f a (1 - b) = .green
        ∧ sampleRole f (1 - a) (1 - b) ≠ .green ∧ sampleRole f (1 - a) (1 - b) ≠ sampleRole f a b := by
    cases f <;> decide
  have hright : (x + 1) % 2 = 1 - x % 2 := by omega
  have hbelow : (y + 1) % 2 = 1 - y % 2 := by omega
  rw [sampleRole_of_parities f rfl rfl] at h
  rw [sampleRole_of_parities f hright (y := y) rfl, sampleRole_of_parities f (x := x) rfl hbelow,
    sampleRole_of_parities f hright hbelow, sampleRole_of_parities f (x := x) (y := y) rfl rfl]
  exact hblock _ (Nat.mod_lt x two_pos) _ (Nat.mod_lt y two_pos) h

/-- The ordering whose rows are those of another, even and odd exchanged. -/
def rowExchanged : BayerFormat → BayerFormat
  | .rggb => .gbrg
  | .bggr => .grbg
  | .grbg => .bggr
  | .gbrg => .rggb

/-- The row-exchanged ordering has in each row what the other ordering has in a row of the other parity. -/
theorem sampleRole_rowExchanged (f : BayerFormat) (x : Nat) {y y' : Nat} (h : (y + y') % 2 = 1) :
    sampleRole (rowExchanged f) x y = sampleRole f x y' := by
  have hblock : ∀ a < 2, ∀ b < 2, sampleRole (rowExchanged f) a b = sampleRole f a (1 - b) := by
    cases f <;> decide
  have hother : y' % 2 = 1 - y % 2 := by omega
  rw [sampleRole_of_parities f rfl hother, sampleRole_of_parities _ rfl rfl]
  exact hblock _ (Nat.mod_lt x two_pos) _ (Nat.mod_lt y two_pos)

/-- Settles O46: the blocks by the parities of their positions, the flip by `sampleRole_rowExchanged`, as an even number
of rows puts every row at one of the other parity. -/
theorem bayerColourMap : Obligations.BayerColourMap := by
  refine ⟨fun x y => ?_, fun _ _ _ => sampleRole_neighbours, fun x y h heven hy => ?_⟩
  · simp [sampleRole]
  · have hflip : (y + (h - 1 - y)) % 2 = 1 := by omega
    exact ⟨sampleRole_rowExchanged .rggb x hflip, sampleRole_rowExchanged .gbrg x hflip,
      sampleRole_rowExchanged .bggr x hflip, sampleRole_rowExchanged .grbg x hflip⟩

/-! ### The mean over the neighbours inside the image (rule R333) -/

theorem mem_insideImage {w h : Nat} {ps : List (Int × Int)} {p : Int × Int} :
    p ∈ insideImage w h ps ↔ p ∈ ps ∧ 0 ≤ p.1 ∧ p.1 < w ∧ 0 ≤ p.2 ∧ p.2 < h := by
  simp only [insideImage, List.mem_filter, decide_eq_true_eq]

/-- The mean as a number: a mean of bytes is a byte, so nothing is cut off. -/
theorem toNat_avgAvail (M : Nat → Nat → Byte) (w h : Nat) (ps : List (Int × Int)) :
    (avgAvail M w h ps).toNat = ((insideImage w h ps).map fun p => (M p.1.toNat p.2.toNat).toNat).sum
      / (insideImage w h ps).length := by
  have hsum : ((insideImage w h ps).map fun p => (M p.1.toNat p.2.toNat).toNat).sum
      ≤ (insideImage w h ps).length * 255 := by
    have hbyte : ∀ v ∈ (insideImage w h ps).map fun p => (M p.1.toNat p.2.toNat).toNat, v ≤ 255 := by
      rintro _ hv
      obtain ⟨p, -, rfl⟩ := List.mem_map.mp hv
      exact Nat.le_of_lt_succ (M _ _).isLt
    simpa using List.sum_le_card_nsmul _ _ hbyte
  rw [avgAvail, BitVec.toNat_ofNat]
  exact Nat.mod_eq_of_lt (Nat.lt_succ_of_le (Nat.div_le_of_le_mul hsum))

/-- The mean over a flat mosaic is its value, wherever there is a neighbour at all. -/
theorem avgAvail_flat {M : Nat → Nat → Byte} {w h : Nat} {k : Byte} (hM : ∀ x y, x < w → y < h → M x y = k)
    {ps : List (Int × Int)} (hne : 0 < (insideImage w h ps).length) : avgAvail M w h ps = k := by
  have hmap : ((insideImage w h ps).map fun p => (M p.1.toNat p.2.toNat).toNat)
      = (insideImage w h ps).map fun _ => k.toNat := by
    refine List.map_congr_left fun p hp => ?_
    obtain ⟨-, hx0, hxw, hy0, hyh⟩ := mem_insideImage.mp hp
    rw [hM _ _ (by omega) (by omega)]
  refine BitVec.eq_of_toNat_eq ?_
  rw [toNat_avgAvail, hmap, List.map_const', List.sum_replicate, smul_eq_mul]
  exact Nat.mul_div_cancel_left _ hne

/-! ### How many neighbours lie inside (rule R333) -/

/-- The coordinate is one of an axis of `n` positions. -/
def onAxis (n : Nat) (c : Int) : Bool := decide (0 ≤ c ∧ c < n)

theorem onAxis_self {n c : Nat} (hc : c < n) : onAxis n c = true :=
  decide_eq_true ⟨by omega, by omega⟩

theorem onAxis_before {n c : Nat} (hc : c < n) : onAxis n (c - 1) = decide (0 < c) :=
  decide_eq_decide.mpr (by omega)

theorem onAxis_after (n c : Nat) : onAxis n (c + 1) = decide (c + 1 < n) :=
  decide_eq_decide.mpr (by omega)

/-- A position is inside the image when each coordinate is on its axis. -/
theorem length_insideImage (w h : Nat) (ps : List (Int × Int)) :
    (insideImage w h ps).length = ps.countP fun p => onAxis w p.1 && onAxis h p.2 := by
  simp only [insideImage, List.countP_eq_length_filter, onAxis, ← Bool.decide_and, and_assoc]

/-- How many of `c - 1` and `c + 1` are on an axis of `n` positions. -/
def axisNeighbours (n c : Nat) : Nat := (if 0 < c then 1 else 0) + if c + 1 < n then 1 else 0

theorem axisNeighbours_inner {n c : Nat} (hc : c < n) (h : ¬ (c = 0 ∨ c = n - 1)) : axisNeighbours n c = 2 := by
  rw [axisNeighbours, if_pos (by omega), if_pos (by omega)]

theorem axisNeighbours_edge {n c : Nat} (hn : 2 ≤ n) (h : c = 0 ∨ c = n - 1) : axisNeighbours n c = 1 := by
  unfold axisNeighbours
  split <;> split <;> omega

theorem axisNeighbours_pos {n c : Nat} (hn : 2 ≤ n) (hc : c < n) : 0 < axisNeighbours n c := by
  unfold axisNeighbours
  split <;> split <;> omega

section NeighbourCounts
variable {w h x y : Nat}

theorem length_inside_hor (hx : x < w) (hy : y < h) :
    (insideImage w h (horNeighbours x y)).length = axisNeighbours w x := by
  simp [length_insideImage, horNeighbours, axisNeighbours, List.countP_cons, onAxis_before hx, onAxis_after,
    onAxis_self hy, add_comm]

theorem length_inside_ver (hx : x < w) (hy : y < h) :
    (insideImage w h (verNeighbours x y)).length = axisNeighbours h y := by
  simp [length_insideImage, verNeighbours, axisNeighbours, List.countP_cons, onAxis_before hy, onAxis_after,
    onAxis_self hx, add_comm]

theorem length_inside_orth (hx : x < w) (hy : y < h) :
    (insideImage w h (orthNeighbours x y)).length = axisNeighbours w x + axisNeighbours h y := by
  rw [orthNeighbours, insideImage, List.filter_append, List.length_append]
  exact congrArg₂ _ (length_inside_hor hx hy) (length_inside_ver hx hy)

/-- A diagonal neighbour is a neighbour along each axis. -/
theorem length_inside_diag (hx : x < w) (hy : y < h) :
    (insideImage w h (diagNeighbours x y)).length = axisNeighbours w x * axisNeighbours h y := by
  simp only [length_insideImage, diagNeighbours, axisNeighbours, List.countP_cons, List.countP_nil,
    onAxis_before hx, onAxis_before hy, onAxis_after, Bool.and_eq_true, decide_eq_true_eq, ite_and]
  split_ifs <;> rfl

end NeighbourCounts

/-- Settles O44: a position on an edge has one neighbour along that axis, every other position two. -/
theorem bayerNeighbourCounts : Obligations.BayerNeighbourCounts := by
  intro w h x y hw hh hx hy n counts edgeX edgeY
  have hcounts : counts = (axisNeighbours w x + axisNeighbours h y, axisNeighbours w x * axisNeighbours h y,
      axisNeighbours w x, axisNeighbours h y) := by
    simp only [counts, n, length_inside_orth hx hy, length_inside_diag hx hy, length_inside_hor hx hy,
      length_inside_ver hx hy]
  rw [hcounts]
  refine ⟨?inner, ?sides, ?topBottom, ?corners, fun M ps => ⟨rfl, fun _ => toNat_avgAvail M w h ps⟩⟩
  case inner =>
    rintro ⟨hX, hY⟩
    rw [axisNeighbours_inner hx hX, axisNeighbours_inner hy hY]
  case sides =>
    rintro ⟨hX, hY⟩
    rw [axisNeighbours_edge hw hX, axisNeighbours_inner hy hY]
  case topBottom =>
    rintro ⟨hX, hY⟩
    rw [axisNeighbours_inner hx hX, axisNeighbours_edge hh hY]
  case corners =>
    rintro ⟨hX, hY⟩
    rw [axisNeighbours_edge hw hX, axisNeighbours_edge hh hY]

/-! ### The colour of each role (rules R334 to R336) -/

section Colours
variable {f : BayerFormat} {M : Nat → Nat → Byte} {w h x y : Nat}

theorem bayerPixel_alpha : (bayerPixel f M w h x y).a = 255 := by
  unfold bayerPixel
  cases sampleRole f x y
  case green => dsimp only; split <;> rfl
  all_goals rfl

theorem bayerPixel_red (hr : sampleRole f x y = .red) : bayerPixel f M w h x y
    = ⟨M x y, avgAvail M w h (orthNeighbours x y), avgAvail M w h (diagNeighbours x y), 255⟩ := by
  simp only [bayerPixel, hr]

theorem bayerPixel_blue (hb : sampleRole f x y = .blue) : bayerPixel f M w h x y
    = ⟨avgAvail M w h (diagNeighbours x y), avgAvail M w h (orthNeighbours x y), M x y, 255⟩ := by
  simp only [bayerPixel, hb]

theorem bayerPixel_green_redRow (hg : sampleRole f x y = .green) (hrow : rowColour f x y = .red) :
    bayerPixel f M w h x y
      = ⟨avgAvail M w h (horNeighbours x y), M x y, avgAvail M w h (verNeighbours x y), 255⟩ := by
  simp only [bayerPixel, hg, if_pos hrow]

theorem bayerPixel_green_blueRow (hg : sampleRole f x y = .green) (hrow : rowColour f x y ≠ .red) :
    bayerPixel f M w h x y
      = ⟨avgAvail M w h (verNeighbours x y), M x y, avgAvail M w h (horNeighbours x y), 255⟩ := by
  simp only [bayerPixel, hg, if_neg hrow]

end Colours

/-- Settles O43, by the colour of each role and the mean as a number. -/
theorem bayerColoursAtEveryPosition : Obligations.BayerColoursAtEveryPosition := by
  intro f M w h x y _ _ _ _
  refine ⟨bayerPixel_alpha, fun hr => ?red, fun hb => ?blue, fun hg hrow => ?redRow, fun hg hrow => ?blueRow⟩
  case red =>
    rw [bayerPixel_red hr]
    exact ⟨rfl, toNat_avgAvail .., toNat_avgAvail ..⟩
  case blue =>
    rw [bayerPixel_blue hb]
    exact ⟨rfl, toNat_avgAvail .., toNat_avgAvail ..⟩
  case redRow =>
    rw [bayerPixel_green_redRow hg hrow]
    exact ⟨rfl, toNat_avgAvail .., toNat_avgAvail ..⟩
  case blueRow =>
    rw [bayerPixel_green_blueRow hg hrow]
    exact ⟨rfl, toNat_avgAvail .., toNat_avgAvail ..⟩

/-- Settles O45: a position has neighbours of every kind inside the image, all with the one value. -/
theorem flatMosaicGivesFlatColour : Obligations.FlatMosaicGivesFlatColour := by
  intro f M w h k hw hh hM x y hx hy
  have hposX := axisNeighbours_pos hw hx
  have hposY := axisNeighbours_pos hh hy
  have hhor : avgAvail M w h (horNeighbours x y) = k := avgAvail_flat hM (length_inside_hor hx hy ▸ hposX)
  have hver : avgAvail M w h (verNeighbours x y) = k := avgAvail_flat hM (length_inside_ver hx hy ▸ hposY)
  have horth : avgAvail M w h (orthNeighbours x y) = k :=
    avgAvail_flat hM (length_inside_orth hx hy ▸ Nat.add_pos_left hposX _)
  have hdiag : avgAvail M w h (diagNeighbours x y) = k :=
    avgAvail_flat hM (length_inside_diag hx hy ▸ Nat.mul_pos hposX hposY)
  cases hrole : sampleRole f x y
  case red => rw [bayerPixel_red hrole, hM x y hx hy, horth, hdiag]
  case blue => rw [bayerPixel_blue hrole, hM x y hx hy, horth, hdiag]
  case green =>
    by_cases hrow : rowColour f x y = .red
    · rw [bayerPixel_green_redRow hrole hrow, hM x y hx hy, hhor, hver]
    · rw [bayerPixel_green_blueRow hrole hrow, hM x y hx hy, hhor, hver]

/-! ### The forms (rules R340, R341) -/

/-- Settles O41. -/
theorem demosaicRPixels : Obligations.DemosaicRPixels := fun _ _ _ hr =>
  ⟨_, completes_completed hr, fun _ _ => holdsPixel_completed hr rfl⟩

/-- Settles O42. -/
theorem demosaicYLumaChroma : Obligations.DemosaicYLumaChroma := fun _ _ _ _ hr =>
  ⟨_, completes_completed hr, holdsLuma_completed hr rfl, holdsChroma_completed hr rfl⟩

end Sys2Proof.Machine
end

section
/-! SUPPORT. Errors (60_exceptions.md): what error entry writes and the numbers it records (R361 to R364), that the
error of a command is read off its descriptor, and what follows for a list that is restarted without repair (R366). -/

namespace Sys2Proof.Machine

/-! ### Error entry and its numbers (rules R361 to R364) -/

/-- Settles O7, by the definitions of error entry and of the two tables. -/
theorem errorEntryAndCodes : Obligations.ErrorEntryAndCodes :=
  ⟨fun _ _ => rfl, fun _ => ⟨rfl, rfl⟩, fun _ => ⟨rfl, rfl⟩, rfl, rfl⟩

/-! ### The error of a command is read off its descriptor (rule R364) -/

theorem exec_failed_argument {i : Instr} (hi : i ≠ .endList) (hw : i.wellFormed = true) {s : State} {c : ArgCause}
    (hc : instrArgFault i s.latch = some c) : exec i s = .next (raise (.invalidArgument c) s) := by
  have hbad : ¬ ArgsOk i s.latch := by simp [← instrArgFault_eq_none_iff hi hw, hc]
  rcases exec_data_cases hi hw s with ⟨c', hc', he⟩ | ⟨⟨-, -, hargs, -⟩, -⟩ | ⟨hargs, -, -⟩
  · exact Option.some.inj (hc'.symm.trans hc) ▸ he
  · exact absurd hargs hbad
  · exact absurd hargs hbad

/-- A command that sets `ERR` raises an error that it raises in every state with the same operands: only a form
outside its format sets and a failing argument check set `ERR`. -/
theorem exec_raises_of_err {i : Instr} {s t : State} (h : exec i s = .next t) (hs : s.err = false)
    (ht : t.err = true) : ∃ e, ∀ s' : State, s'.latch = s.latch → exec i s' = .next (raise e s') := by
  by_cases hi : i = .endList
  · subst hi
    obtain rfl : endRun s = t := Host.Outcome.next.inj h
    simp [hs] at ht
  cases hw : i.wellFormed with
  | false => exact ⟨_, fun s' _ => exec_ill_formed hw s'⟩
  | true =>
    rcases exec_data_cases hi hw s with ⟨c, hc, -⟩ | ⟨-, he⟩ | ⟨-, -, he⟩
    · exact ⟨.invalidArgument c, fun s' hlatch => exec_failed_argument hi hw (hlatch ▸ hc)⟩
    · obtain rfl : completed i s = t := Host.Outcome.next.inj (he.symm.trans h)
      obtain ⟨-, -, -, -, herr, -, -⟩ := completed_sameControl i s
      exact absurd (ht.symm.trans (herr.trans hs)) (by decide)
    · cases he.symm.trans h

/-- A fetch reads `DPC` and memory alone (40_sequencing.md rule R131). -/
theorem fetchedWord_congr {s s' : State} (hm : s'.mem = s.mem) (hp : s'.dpc = s.dpc) :
    s'.fetchedWord = s.fetchedWord := by
  funext k
  simp only [State.fetchedWord, hm, hp]

/-- A step that sets `ERR` raises an error that every running engine with the same `DPC` and memory raises. -/
theorem step_raises_of_err {s t : State} (hb : s.busy = true) (h : step s = .next t) (hs : s.err = false)
    (ht : t.err = true) :
    ∃ e, ∀ s' : State, s'.busy = true → s'.mem = s.mem → s'.dpc = s.dpc → step s' = .next (raise e s'.fetch) := by
  cases hd : decode (s.fetchedWord 0) with
  | error c =>
    refine ⟨.illegalCommand c, fun s' hb' hm hp => step_undecoded hb' ?_⟩
    rw [fetchedWord_congr hm hp, hd]
  | ok i =>
    have hexec : exec i s.fetch = .next t := (step_decoded hb hd).symm.trans h
    obtain ⟨e, he⟩ := exec_raises_of_err hexec hs ht
    refine ⟨e, fun s' hb' hm hp => ?_⟩
    have hwords := fetchedWord_congr hm hp
    rw [step_decoded hb' (hwords ▸ hd)]
    exact he s'.fetch (by rw [State.fetch_latch, State.fetch_latch, hwords])

/-! ### Restarting a list (rule R366) -/

/-- The engine after the host has cleared `ERR` and started it again with `IE` as given. -/
def restarted (ie : Bool) (s : State) : State :=
  startRun ((clearError s).withIe ie)

/-- The restarted engine fetches the same descriptor, so the same error leaves what the first one left, but for the `IE`
the host wrote and `DONE`, which START cleared. -/
theorem raise_fetch_restarted (e : CommandError) (ie : Bool) (s : State) :
    raise e (restarted ie (raise e s.fetch)).fetch = { raise e s.fetch with ie := ie, done := false } := by
  have hwords : (restarted ie (raise e s.fetch)).fetchedWord = s.fetchedWord := fetchedWord_congr rfl rfl
  rw [State.fetch, hwords]
  rfl

theorem actAll_pair {a b : Action} {s t u : State} (ha : act a s = .next t) (hb : act b t = .next u) :
    actAll [a, b] s = .next u := by
  simp only [actAll, ha, hb]

/-- Bit 1 of the acknowledgement makes no difference, as START clears `DONE` too. -/
theorem actAll_clear_start {t : State} {v c : Word} (hb : t.busy = false) (hv : v.getLsbD 2 = true)
    (hc : c.getLsbD 0 = true) :
    actAll [.host (.writeReg 4 0x08 v), .host (.writeReg 4 0x04 c)] t = .next (restarted (c.getLsbD 1) t) := by
  have hclear : writeRegister 4 0x08 v t = .next (writeStatus v t) := writeRegister_idle rfl v hb
  have hidle : (writeStatus v t).busy = false := by rw [writeStatus_eq]; exact hb
  have herr : (writeStatus v t).err = false := by simp [writeStatus_eq, hv]
  obtain ⟨-, haccepted, -⟩ := startAction (writeStatus v t) c hidle
  refine actAll_pair hclear ((haccepted hc herr).trans ?_)
  simp [writeStatus_eq, hv, restarted, startRun, State.withIe, clearError]

/-- Settles O9: START is refused by `startAction`; the restarted engine has the `DPC` and memory of the failed step,
so it raises the same error (`step_raises_of_err`) over the same fetched descriptor. -/
theorem restartWithoutRepairRaisesSameError : Obligations.RestartWithoutRepairRaisesSameError := by
  intro s t v c hb hs hstep ht hv hc
  obtain ⟨e, hraises⟩ := step_raises_of_err hb hstep hs ht
  obtain rfl : raise e s.fetch = t := Host.Outcome.next.inj ((hraises s hb rfl rfl).symm.trans hstep)
  obtain ⟨hrefused, -, -⟩ := startAction (raise e s.fetch) c rfl
  refine ⟨hrefused hc rfl, restarted (c.getLsbD 1) (raise e s.fetch), actAll_clear_start rfl hv hc, rfl, ?_⟩
  rw [hraises (restarted _ (raise e s.fetch)) rfl rfl rfl, raise_fetch_restarted]

end Sys2Proof.Machine
end

section
/-! SUPPORT. The reset input (70_reset_and_hazards.md rule R400): what it leaves in the registers, and which bytes of
memory it can tear. -/

namespace Sys2Proof.Machine

/-! ### The bytes a reset can tear -/

/-- The test that keeps a torn byte is the footprint of rule R65, at the address its store reduces to. -/
theorem inPlanes_iff {ps : List Plane} {a : Nat} :
    inPlanes ps a = true ↔ InFootprint ps (a % Config.memBytes) := by
  have haddr : address (a : Int) = a % Config.memBytes := address_natCast a
  simp only [inPlanes, List.any_eq_true, Span.covers_iff, inFootprint_iff_span, haddr]

/-- A byte that no cell of the list reaches reads as before. -/
theorem Memory.load_foldl_store_ne {m : Memory} {cells : List Host.Cell} {a : Nat}
    (h : ∀ c ∈ cells, a ≠ c.1 % Config.memBytes) :
    (cells.foldl (fun m c => m.store (c.1 % Config.memBytes) c.2) m).load a = m.load a := by
  induction cells generalizing m with
  | nil => rfl
  | cons c cells ih =>
    obtain ⟨hc, hcells⟩ := List.forall_mem_cons.mp h
    exact (ih hcells).trans (m.load_store_ne _ hc)

/-! ### What the reset input leaves -/

/-- All the outcomes of the reset input: the reset registers, over memory as it was when the engine is idle, and over
memory with some bytes of the write footprint in flight stored to when it runs. -/
theorem resetInput_cases (latch : Descriptor) (torn : List Host.Cell) (s : State) :
    (s.busy = false ∧ resetInput latch torn s = resetRegisters latch s.mem)
    ∨ (s.busy = true ∧ ∃ cells : List Host.Cell,
        (∀ c ∈ cells, InFootprint (pendingPlanes s).2 (c.1 % Config.memBytes))
        ∧ resetInput latch torn s = resetRegisters latch
            (cells.foldl (fun m c => m.store (c.1 % Config.memBytes) c.2) s.mem)) := by
  cases hb : s.busy with
  | false => exact .inl ⟨rfl, by simp [resetInput, hb]⟩
  | true =>
    refine .inr ⟨rfl, _, fun c hc => ?_, by rw [resetInput, if_pos hb]⟩
    exact inPlanes_iff.mp (List.mem_filter.mp hc).2

/-- Settles O57, by the outcomes of the reset input: a byte outside the write footprint is at the address of none of
the cells stored. -/
theorem resetInputAbandonsCommand : Obligations.ResetInputAbandonsCommand := by
  intro latch torn s
  rcases resetInput_cases latch torn s with ⟨-, ht⟩ | ⟨hb, cells, hcells, ht⟩ <;> rw [ht]
  · exact ⟨rfl, fun _ => rfl, fun _ _ => rfl⟩
  · refine ⟨rfl, fun hidle => ?_, fun a ha => Memory.load_foldl_store_ne fun c hc hac => ?_⟩
    · exact absurd hidle (by simp [hb])
    · exact ha (hac ▸ hcells c hc)

end Sys2Proof.Machine
end
